-- ==== Sys2Proof/Word.lean ====
section
/-!
DEFINITION. The two word sizes of the FDC: bytes of sample memory and 64-bit registers (00_scope.md R8, 10_state.md R23).
-/

namespace Sys2Proof

/-- One byte of sample memory (20_memory.md R60). -/
abbrev Byte := BitVec 8

/-- A 64-bit register or bus word (10_state.md R23). A binary64 pattern fills it; a binary32 pattern stands in its low
32 bits (log 17). -/
abbrev Word := BitVec 64

end Sys2Proof
end

