-- ==== Sys2Proof/Syntax.lean ====
section
/-!
DEFINITION. What the host can say to the FDC: the four commands (30_encoding.md R82), the fields of a command word (R80),
the registers by name (10_state.md R23), and one operation of the host or its platform (44_host_bus.md R200, 70 R260, R266).
-/

namespace Sys2Proof

/-- The four commands of 30_encoding.md R82, one per row of the opcode table. Their operands stand in ARG0 to ARG3. -/
inductive Instr where
  | create
  | process
  | clear
  | factorize
  deriving DecidableEq, Repr, Inhabited

/-- The fields of a command word, format "C" (30_encoding.md R80). -/
structure CommandWord where
  /-- Bits 63:8, reserved, must be zero. -/
  rsvd : BitVec 56
  /-- Bits 7:0, the operation code. -/
  opc  : BitVec 8
  deriving DecidableEq, Repr

/-- Why a command word is illegal (30_encoding.md R83). -/
inductive IllegalWord where
  /-- RSVD is not zero, whatever the OPC. -/
  | reservedBits
  /-- OPC is 0x00 or 0x05 to 0xFF. -/
  | unknownOpcode
  deriving DecidableEq, Repr

/-- The registers by the names of 10_state.md R23. -/
inductive Reg where
  | id
  | cmd
  | status
  | ctrl
  | arg (i : Fin 4)
  | result
  | ratio
  | nstages
  | scratch
  | taps
  | achieved
  | coefSel
  | coefData
  | fzN
  | factor (i : Fin 32)
  | fz (i : Fin 32)
  deriving DecidableEq, Repr

/-- A register access as the bus carries it: a byte address and a width in bytes (44_host_bus.md R200, R208). -/
structure BusAccess where
  addr  : Nat
  width : Nat
  deriving DecidableEq, Repr

/-- One operation that the host or its platform performs on the block. A list of them is the rest of the host's program
and, with `engine`, the order in which host and engine take turns (44_host_bus.md R200, 95_test_vectors.md P6; log 14). -/
inductive HostOp where
  /-- A bus read of a register (44_host_bus.md R207). -/
  | regRead (a : BusAccess)
  /-- A bus write of `v` (44_host_bus.md R201 to R206). -/
  | regWrite (a : BusAccess) (v : Word)
  /-- Poll STATUS until the running command has completed or the block is overrun (30_encoding.md R89). -/
  | wait
  /-- A read of `n` bytes of sample memory by the host's own path (20_memory.md R60). -/
  | memRead (addr : Word) (n : Nat)
  /-- A write of bytes to sample memory by the host or another agent of the platform (20_memory.md R60, 70 R266). -/
  | memWrite (addr : Word) (bytes : List Byte)
  /-- The engine's turn: its step happens here if one is enabled (44_host_bus.md R209). -/
  | engine
  /-- The platform's reset input is pulsed (70_reset_and_hazards.md R260). -/
  | reset
  deriving DecidableEq, Repr

end Sys2Proof
end

