-- ==== Sys2Proof/WellFormed.lean ====
section
/-!
DEFINITION. Which command words and which bus accesses are well formed (30_encoding.md R80, R83; 44_host_bus.md R200, R208).
A value of `Instr` has no operand, so every one of them is well formed.
-/

namespace Sys2Proof

/-- RSVD is zero and OPC is one of the four codes (30_encoding.md R80, R83). -/
def CommandWord.wf (c : CommandWord) : Bool :=
  c.rsvd == 0#56 && (c.opc == 0x01#8 || c.opc == 0x02#8 || c.opc == 0x03#8 || c.opc == 0x04#8)

/-- A 64-bit access at a multiple of 8 within the 4096 bytes at `base` (44_host_bus.md R200, R208). -/
def BusAccess.wf (base : Nat) (a : BusAccess) : Bool :=
  a.width == 8 && decide (base ≤ a.addr) && (a.addr - base) % 8 == 0 && decide (a.addr - base < 4096)

end Sys2Proof
end

