-- ==== Sys2Proof/Decode.lean ====
section
/-!
DEFINITION. The command decoder and encoder (30_encoding.md R80 to R83), and the register map from names to offsets and
back (10_state.md R23, R40).
-/

namespace Sys2Proof

/-- The fields of a 64-bit command word (30_encoding.md R80). -/
def commandFields (w : Word) : CommandWord :=
  { rsvd := w.extractLsb' 8 56, opc := w.extractLsb' 0 8 }

/-- The decoder of 30_encoding.md R81, total on all 2^64 words, with the reason for which a word is illegal. -/
def decode (w : Word) : Except IllegalWord Instr :=
  let c := commandFields w
  if c.rsvd ≠ 0#56 then .error .reservedBits
  else if c.opc = 0x01#8 then .ok .create
  else if c.opc = 0x02#8 then .ok .process
  else if c.opc = 0x03#8 then .ok .clear
  else if c.opc = 0x04#8 then .ok .factorize
  else .error .unknownOpcode

/-- The operation code of each command (30_encoding.md R82). -/
def opcodeOf : Instr → BitVec 8
  | .create    => 0x01#8
  | .process   => 0x02#8
  | .clear     => 0x03#8
  | .factorize => 0x04#8

/-- The command word of each command: RSVD zero above its OPC (30_encoding.md R80, R82). -/
def encode (i : Instr) : Word :=
  0#56 ++ opcodeOf i

/-- What the decoder reads from a word given as a number, bit 0 the least significant. A command is one 64-bit word
(30_encoding.md R81), so `nbits` is 64, and any bit above `nbits` is zero. -/
def decodeTableWord (nbits w : Nat) : Option Instr :=
  match decode (BitVec.ofNat 64 (w % 2 ^ nbits)) with
  | .ok i    => some i
  | .error _ => none

/-- The offset of each register from REG_BASE (10_state.md R23). -/
def Reg.offset : Reg → Nat
  | .id       => 0x000
  | .cmd      => 0x008
  | .status   => 0x010
  | .ctrl     => 0x018
  | .arg i    => 0x020 + 8 * i.val
  | .result   => 0x040
  | .ratio    => 0x048
  | .nstages  => 0x050
  | .scratch  => 0x058
  | .taps     => 0x060
  | .achieved => 0x068
  | .coefSel  => 0x070
  | .coefData => 0x078
  | .fzN      => 0x080
  | .factor i => 0x100 + 8 * i.val
  | .fz i     => 0x200 + 8 * i.val

/-- The register at an offset, or none where the offset is reserved (10_state.md R23, R40). -/
def regAt (off : Nat) : Option Reg :=
  if off % 8 ≠ 0 then none
  else match off / 8 with
    | 0  => some .id
    | 1  => some .cmd
    | 2  => some .status
    | 3  => some .ctrl
    | 4  => some (.arg 0)
    | 5  => some (.arg 1)
    | 6  => some (.arg 2)
    | 7  => some (.arg 3)
    | 8  => some .result
    | 9  => some .ratio
    | 10 => some .nstages
    | 11 => some .scratch
    | 12 => some .taps
    | 13 => some .achieved
    | 14 => some .coefSel
    | 15 => some .coefData
    | 16 => some .fzN
    | k  =>
      if h : 32 ≤ k ∧ k < 64 then some (.factor ⟨k - 32, by omega⟩)
      else if h : 64 ≤ k ∧ k < 96 then some (.fz ⟨k - 64, by omega⟩)
      else none

/-- The offset a bus access reaches when the platform has placed the block at `base`, or none where the access is outside
the interface (44_host_bus.md R200, R208). -/
def busOffset (base : Nat) (a : BusAccess) : Option Nat :=
  if a.wf base then some (a.addr - base) else none

end Sys2Proof
end

