-- ==== Sys2Proof/Machine/Cascade.lean ====
section
/-!
DEFINITION. The data of the stage cascade: complex samples, stages and the configuration (10_state.md R41, R42; 43 R160).
-/

namespace Sys2Proof.Machine

/-- A complex sample, its parts as bit patterns of the sample format (00_scope.md R10; log 17). -/
structure Sample where
  re : Word
  im : Word
  deriving DecidableEq, Repr, Inhabited

/-- `ZERO` = (+0.0, +0.0) (00_scope.md R10). -/
def Sample.zero : Sample := { re := 0#64, im := 0#64 }

/-- One stage (00_scope.md R12): `st.f[k]`, `st.c[k]`, `st.d[k]` and `st.p[k]` of 10_state.md R41 and R42. -/
structure Stage where
  /-- `st.f[k]`, the decimation factor. -/
  factor : Nat
  /-- `st.c[k][0..T-1]`, coefficient patterns of the sample format. -/
  coef   : List Word
  /-- `st.d[k][0..T-1]`, the circular delay line. -/
  delay  : List Sample
  /-- `st.p[k]`, the write cursor. -/
  cursor : Nat
  deriving DecidableEq, Repr, Inhabited

/-- The configuration of 10_state.md R41 with the stages' filter state of R42. `st.K` is the length of `stages`. -/
structure Cascade where
  /-- `st.cfg`, which STATUS.CFG shows. -/
  cfg      : Bool
  /-- `st.R`, the overall ratio. -/
  ratio    : Nat
  stages   : List Stage
  /-- `st.S`, the scratch size in samples. -/
  scratch  : Nat
  /-- `st.achieved`, a binary64 pattern. -/
  achieved : Word
  deriving DecidableEq, Repr, Inhabited

/-- The unconfigured block, after reset and after a failed CREATE (10_state.md R41, 43_cascade.md R165). -/
def Cascade.unconfigured : Cascade :=
  { cfg := false, ratio := 0, stages := [], scratch := 0, achieved := 0#64 }

end Sys2Proof.Machine
end

