-- ==== Sys2Proof/Config.lean ====
section
/-!
DEFINITION. What a platform fixes for one instance of the block (00_scope.md R6, R7) and the free values: constants with no
body, of which nothing can be proved (93_implementation_defined.md O1 to O5).
-/

namespace Sys2Proof

/-- `SAMPLE_FMT` (00_scope.md R6). -/
inductive Fmt where
  | binary32
  | binary64
  deriving DecidableEq, Repr, Inhabited

/-- `RATIO_TIES` (00_scope.md R6, 43_cascade.md R162). -/
inductive Ties where
  | even
  | away
  deriving DecidableEq, Repr, Inhabited

/-- A range of sample memory that the platform maps to ordinary memory (00_scope.md R6). -/
structure Region where
  base : Nat
  size : Nat
  deriving DecidableEq, Repr, Inhabited

/-- What the platform maps to ordinary memory (00_scope.md R6, `Mapped`): a list of regions written out, or a predicate on byte
ranges of which nothing is known (log 3). -/
inductive MemoryMap where
  /-- A byte range is mapped when it lies within one of the regions. -/
  | regions (rs : List Region)
  /-- A byte range is mapped when `Config.mapped` says so. -/
  | platform
  deriving DecidableEq, Repr, Inhabited

/-- The parameters of 00_scope.md R6 that an instance is built with, and the constraints of R7 on them: a configuration that
breaks one cannot be built (log 2). A field default is the spec's default where R6 states one; the defaults of the OPEN
parameters only witness that the constraints can be met. -/
structure Params where
  sampleFmt  : Fmt := .binary32
  /-- `TAPS_CFG`. -/
  tapsCfg    : Nat := 63
  ratioTies  : Ties := .even
  /-- `MIN_SCRATCH`, OPEN. -/
  minScratch : Nat := 1
  /-- `SCRATCH_CAP`, OPEN. -/
  scratchCap : Nat := 1
  /-- `Mapped`, OPEN (log 3). -/
  mapped     : MemoryMap := .platform
  /-- `REG_BASE`, OPEN. -/
  regBase    : Nat := 0
  tapsCfg_le    : tapsCfg ≤ 65534 := by decide
  minScratch_pos : 1 ≤ minScratch := by decide
  minScratch_le : minScratch ≤ scratchCap := by decide
  scratchCap_le : scratchCap ≤ 2 ^ 63 - 1 := by decide
  deriving DecidableEq, Repr, Inhabited

/-- The parameters of the instance that `State.reset` describes: OPEN in the spec, so a constant with no body (log 1). -/
opaque Config.params : Params

/-- `Mapped(b, len)` of a platform that lists no regions (00_scope.md R6): any predicate on byte ranges, of which nothing is
assumed. It need not hold of the parts of a range of which it holds (log 3). -/
opaque Config.mapped : Nat → Nat → Bool

/-- `SIN` (00_scope.md R6): a total function on binary64 patterns, of which nothing is assumed (log 4). -/
opaque Config.sin : Word → Word

/-- `COS` (00_scope.md R6): a total function on binary64 patterns, of which nothing is assumed (log 4). -/
opaque Config.cos : Word → Word

/-- Free 64-bit values: a register read while BUSY = 1 (70 R267), the bits of a NaN that FIR arithmetic produces (42 R145),
the parts of a delay line after a race (70 R266). Applied to the draw counter (log 5, log 6, log 10). -/
opaque Config.freeWord : Nat → Word

/-- Free bytes of sample memory (60 R225, 70 R262, R266). -/
opaque Config.freeByte : Nat → Byte

/-- The free configuration and filter state after an overrun (60_exceptions.md R225 (d); log 7). -/
opaque Config.freeCascade : Nat → Machine.Cascade

/-- The free factor list after an overrun (60_exceptions.md R225 (d); log 7). -/
opaque Config.freeFactors : Nat → List Nat

end Sys2Proof
end

