-- ==== Sys2Proof/Machine/Float.lean ====
section
/-!
DEFINITION. IEEE 754 binary32 and binary64 arithmetic, round to nearest, ties to even, every operation rounded on its own
(00_scope.md R9, 42_fir.md R145). A finite value is an exact multiple of the format's smallest subnormal, so that every
operation is exact arithmetic on natural numbers followed by one rounding (log 18).
-/

namespace Sys2Proof.Machine

/-- A floating-point value of one format. -/
inductive Fp where
  /-- Any NaN: its sign and payload are not part of the value (42_fir.md R145 (c)). -/
  | nan
  | inf (neg : Bool)
  /-- `mag` times the format's smallest subnormal, with a sign that a zero has too. -/
  | fin (neg : Bool) (mag : Nat)
  deriving DecidableEq, Repr

/-- Bits of the fraction field. -/
def fracBits : Fmt → Nat
  | .binary32 => 23
  | .binary64 => 52

/-- Bits of the exponent field. -/
def expBits : Fmt → Nat
  | .binary32 => 8
  | .binary64 => 11

/-- The smallest subnormal is 2 to the power of minus this. -/
def unitExp : Fmt → Nat
  | .binary32 => 149
  | .binary64 => 1074

/-- Significant bits of a normal number. -/
def precision (F : Fmt) : Nat := fracBits F + 1

/-- The exponent field of infinities and NaNs, all ones. -/
def expOnes (F : Fmt) : Nat := 2 ^ expBits F - 1

/-- The first magnitude, in units of the smallest subnormal, that is above every finite value: 2^128 or 2^1024. -/
def overflowMag (F : Fmt) : Nat := 2 ^ (expOnes F - 1 + fracBits F)

/-- The value of a bit pattern, in the low 32 bits for binary32 (00_scope.md R9, `f64`). -/
def unpack (F : Fmt) (w : Word) : Fp :=
  let n := w.toNat
  let frac := n % 2 ^ fracBits F
  let e := n / 2 ^ fracBits F % 2 ^ expBits F
  let neg := n / 2 ^ (fracBits F + expBits F) % 2 == 1
  if e = expOnes F then (if frac = 0 then .inf neg else .nan)
  else if e = 0 then .fin neg frac
  else .fin neg ((2 ^ fracBits F + frac) * 2 ^ (e - 1))

/-- A bit pattern from its three fields. -/
def fieldsWord (F : Fmt) (neg : Bool) (e frac : Nat) : Word :=
  BitVec.ofNat 64 (((if neg then 2 ^ expBits F else 0) + e) * 2 ^ fracBits F + frac)

/-- The exponent field of a finite magnitude: 0 for a subnormal or a zero. -/
def magExponent (F : Fmt) (mag : Nat) : Nat :=
  if mag < 2 ^ fracBits F then 0 else Nat.log2 mag + 1 - fracBits F

/-- The fraction field of a finite magnitude. -/
def magFraction (F : Fmt) (mag : Nat) : Nat :=
  if mag < 2 ^ fracBits F then mag else mag / 2 ^ (magExponent F mag - 1) - 2 ^ fracBits F

/-- Some NaN of the format, chosen by the bits of `w`: its sign and its payload, where a payload of zero, which would be an
infinity, becomes the quiet bit. Every NaN pattern is reached by some `w` (42_fir.md R145 (c)). -/
def nanPattern (F : Fmt) (w : Word) : Word :=
  let payload := w.toNat % 2 ^ fracBits F
  let neg := w.toNat / 2 ^ (fracBits F + expBits F) % 2 == 1
  fieldsWord F neg (expOnes F) (if payload = 0 then 2 ^ (fracBits F - 1) else payload)

/-- The bit pattern of a value (00_scope.md R9, `bits64`). A NaN has no one pattern: it takes the one that `free` chooses. -/
def pack (F : Fmt) (free : Word) : Fp → Word
  | .nan => nanPattern F free
  | .inf neg => fieldsWord F neg (expOnes F) 0
  | .fin neg mag => fieldsWord F neg (magExponent F mag) (magFraction F mag)

/-- The magnitude nearest to `num / den` among those with at most `p` significant bits, ties to the even one, with no upper
bound on the exponent. -/
def roundMag (p num den : Nat) : Nat :=
  let s := Nat.log2 (num / den) + 1 - p
  let d := den * 2 ^ s
  let q := num / d
  let r := num % d
  let q' := if 2 * r < d then q else if d < 2 * r then q + 1 else q + q % 2
  q' * 2 ^ s

/-- Rounding to the format: the nearest magnitude, or an infinity when that is above every finite value (42 R145 (d)). -/
def roundTo (F : Fmt) (neg : Bool) (num den : Nat) : Fp :=
  let m := roundMag (precision F) num den
  if m < overflowMag F then .fin neg m else .inf neg

/-- A sign and a magnitude as an integer. -/
def signedMag (neg : Bool) (mag : Nat) : Int := if neg then -(mag : Int) else (mag : Int)

/-- The value with its sign changed. -/
def fneg : Fp → Fp
  | .nan => .nan
  | .inf neg => .inf (!neg)
  | .fin neg mag => .fin (!neg) mag

/-- `fadd_F` (00_scope.md R9). An exact sum of zero is -0.0 only when both addends are (42 R145 (f)). -/
def fadd (F : Fmt) : Fp → Fp → Fp
  | .nan, _ => .nan
  | _, .nan => .nan
  | .inf a, .inf b => if a = b then .inf a else .nan
  | .inf a, .fin _ _ => .inf a
  | .fin _ _, .inf b => .inf b
  | .fin a m, .fin b n =>
    let sum := signedMag a m + signedMag b n
    if sum = 0 then .fin (a && b) 0 else roundTo F (decide (sum < 0)) sum.natAbs 1

/-- `fsub_F` (00_scope.md R9). -/
def fsub (F : Fmt) (x y : Fp) : Fp := fadd F x (fneg y)

/-- `fmul_F` (00_scope.md R9). -/
def fmul (F : Fmt) : Fp → Fp → Fp
  | .nan, _ => .nan
  | _, .nan => .nan
  | .inf a, .inf b => .inf (a ^^ b)
  | .inf a, .fin b n => if n = 0 then .nan else .inf (a ^^ b)
  | .fin a m, .inf b => if m = 0 then .nan else .inf (a ^^ b)
  | .fin a m, .fin b n => roundTo F (a ^^ b) (m * n) (2 ^ unitExp F)

/-- `fdiv_F` (00_scope.md R9). -/
def fdiv (F : Fmt) : Fp → Fp → Fp
  | .nan, _ => .nan
  | _, .nan => .nan
  | .inf _, .inf _ => .nan
  | .inf a, .fin b _ => .inf (a ^^ b)
  | .fin a _, .inf b => .fin (a ^^ b) 0
  | .fin a m, .fin b n =>
    if n = 0 then (if m = 0 then .nan else .inf (a ^^ b))
    else roundTo F (a ^^ b) (m * 2 ^ unitExp F) n

/-- `cvt_G` of a value of format `F` (00_scope.md R9). -/
def fcvt (F G : Fmt) : Fp → Fp
  | .nan => .nan
  | .inf neg => .inf neg
  | .fin neg mag => roundTo G neg (mag * 2 ^ unitExp G) (2 ^ unitExp F)

/-- The format's value nearest to the rational `num / den` with a sign (30_encoding.md R89, `f64(x)`). An integer below
2^24 or 2^53 is exact. -/
def ofRat (F : Fmt) (neg : Bool) (num den : Nat) : Fp := roundTo F neg (num * 2 ^ unitExp F) den

/-- The IEEE comparison `x > 0`: false for a NaN and for both zeros (43_cascade.md R163). -/
def isPositive : Fp → Bool
  | .inf false => true
  | .fin false mag => mag != 0
  | _ => false

/-- The value is a NaN or an infinity. -/
def isNonFinite : Fp → Bool
  | .fin _ _ => false
  | _ => true

/-- The value is a zero of either sign. -/
def isZero : Fp → Bool
  | .fin _ mag => mag == 0
  | _ => false

/-- The integer nearest to `mag` units of the format, a tie going by RATIO_TIES (43_cascade.md R162). -/
def roundToInteger (F : Fmt) (ties : Ties) (mag : Nat) : Nat :=
  let one := 2 ^ unitExp F
  let q := mag / one
  let r := mag % one
  if 2 * r < one then q
  else if one < 2 * r then q + 1
  else match ties with
    | .even => q + q % 2
    | .away => q + 1

end Sys2Proof.Machine
end

