-- ==== Sys2Proof/Machine/State.lean ====
section
/-!
DEFINITION. The state of the block with its host and its sample memory, as plain data (10_state.md R20 to R44, 20_memory.md
R60), the reasons a step can stop, and the state after reset (70_reset_and_hazards.md R260).
-/

namespace Sys2Proof.Machine

/-- The error conditions of 60_exceptions.md R221, in the order of their codes. -/
inductive Err where
  | illegalCommand
  | notConfigured
  | invalidConfiguration
  | ratioOutOfRange
  | scratchTooLarge
  | invalidOperand
  | alignmentFault
  | memoryFault
  | designFault
  deriving DecidableEq, Repr

/-- What stops the machine. No command of the block ends in one of these. -/
inductive Fault where
  /-- Raised by a host access to sample memory that touches a byte the platform does not map (20_memory.md R65, R68): the spec
  gives no memory there. Safe: the model stops (log 13). -/
  | hostUnmapped
  /-- Raised when the block is overrun and the host has no operation left: the engine has no step and only a reset would leave
  this state (60_exceptions.md R225). Safe: the model stops (log 7). -/
  | overrunStuck
  deriving DecidableEq, Repr

/-- What the model gives no meaning. -/
inductive Refusal where
  /-- Raised by `exec` for an instruction with no meaning yet; no arm does. Safe. -/
  | notModelled (mnemonic : String)
  /-- Raised by a register access that is not 64 bits wide, not at a multiple of 8 or outside the register space: "A model
  refuses such a transaction" (44_host_bus.md R208). Safe. -/
  | unsupportedAccess
  deriving DecidableEq, Repr

/-- Sample memory: the bytes that differ from what an unlisted address reads as, in rising order of address. -/
abbrev Memory := List Host.Cell

/-- What a byte of sample memory that nothing has written reads as. DESIGN CHOICE: the spec gives sample memory no contents
(70_reset_and_hazards.md R261), and the model reads 0x00 (log 12, unsafe). -/
def Memory.unlisted : Byte := 0#8

/-- Every key of the list is above `lo`, below 2^64 and above the key before it, and no entry equals the unlisted byte. -/
def Memory.wfAbove : Option Nat → Memory → Bool
  | _, [] => true
  | lo, (a, b) :: rest =>
    (match lo with
      | none => true
      | some l => decide (l < a)) &&
    decide (a < 2 ^ 64) && (b != Memory.unlisted) && Memory.wfAbove (some a) rest

/-- The canonical form: strictly rising addresses of the 2^64-byte space (20_memory.md R60), no entry that an unlisted address
would read as. -/
def Memory.wf (m : Memory) : Bool := Memory.wfAbove none m

/-- Four 64-bit operands: ARG0 to ARG3 (10_state.md R28) or their latched copy `st.larg` (R44). -/
structure Args where
  a0 : Word
  a1 : Word
  a2 : Word
  a3 : Word
  deriving DecidableEq, Repr

/-- Operand registers that all hold 0. -/
def Args.zero : Args := { a0 := 0#64, a1 := 0#64, a2 := 0#64, a3 := 0#64 }

/-- A range of bytes of sample memory: `len` bytes from `base`. -/
structure Range where
  base : Nat
  len  : Nat
  deriving DecidableEq, Repr

/-- The MODEL's record of one PROCESS whose buffers the host may not touch yet: from its CMD write to the host's read of
DONE = 1 (70_reset_and_hazards.md R266; log 10). -/
structure Window where
  /-- `[inB, inB + n·SZ)`. -/
  input   : Range
  /-- `[outB, outB + maxOut·SZ)`. -/
  output  : Range
  /-- The output bytes that a race makes free, once the command has run (R266 (b)); none before that. -/
  exposed : Option Range
  /-- The engine step of this command has happened. -/
  ran     : Bool
  /-- Someone wrote into one of the ranges before the engine step. -/
  raced   : Bool
  /-- A later command has started, so that no read of STATUS can show DONE = 1 for this one any more. -/
  missed  : Bool
  deriving DecidableEq, Repr

/-- What the host has read: a register's value, or bytes of sample memory. -/
inductive Reply where
  | reg (v : Word)
  | mem (bytes : List Byte)
  deriving DecidableEq, Repr

/-- The whole machine. INVENTORY.md lists each field with the rule that names it and its reset value. -/
structure State where
  /-- The instance's parameters (00_scope.md R6); no step changes them (R7). -/
  params    : Params
  /-- CMD (10_state.md R25). -/
  cmd       : Word
  /-- STATUS.BUSY (10_state.md R26). -/
  busy      : Bool
  /-- STATUS.DONE. -/
  done      : Bool
  /-- STATUS.ERR. -/
  err       : Bool
  /-- STATUS.OVR. -/
  ovr       : Bool
  /-- STATUS.ERRCODE. -/
  errCode   : BitVec 8
  /-- CTRL.IE (10_state.md R27). -/
  ie        : Bool
  /-- ARG0 to ARG3 (10_state.md R28). -/
  args      : Args
  /-- COEF_SEL.TAP (10_state.md R35). -/
  coefTap   : BitVec 16
  /-- COEF_SEL.STAGE. -/
  coefStage : BitVec 5
  /-- The configuration and the filter state (10_state.md R41, R42). -/
  cas       : Cascade
  /-- `st.larg` (10_state.md R44). -/
  larg      : Args
  /-- `st.lcmd`. -/
  lcmd      : Word
  /-- `st.result`. -/
  result    : Word
  /-- `st.fz`. -/
  fz        : List Nat
  /-- Sample memory, which the platform owns (20_memory.md R60). -/
  mem       : Memory
  /-- What the host and the platform will still do, and when the engine takes its turns (log 14). -/
  host      : List HostOp
  /-- What the host has read, the newest first (log 23). -/
  replies   : List Reply
  /-- Buffers the host may not touch yet, the newest first (70 R266; log 10). -/
  windows   : List Window
  /-- The output range that an overrun left open, until the reset (60 R225 (c), 70 R262; log 9). -/
  lost      : Option Range
  /-- The MODEL's count of the free values drawn so far (log 24). -/
  draws     : Nat
  deriving DecidableEq, Repr

/-- The state after reset of an instance with parameters `p` (70_reset_and_hazards.md R260, R275): every register and every
internal field as 10_state.md gives it, nothing in sample memory, no host operation pending. -/
def State.resetOf (p : Params) : State :=
  { params := p, cmd := 0#64, busy := false, done := false, err := false, ovr := false, errCode := 0#8, ie := false,
    args := Args.zero, coefTap := 0#16, coefStage := 0#5, cas := Cascade.unconfigured, larg := Args.zero, lcmd := 0#64,
    result := 0#64, fz := [], mem := [], host := [], replies := [], windows := [], lost := none, draws := 0 }

/-- The state after reset of the platform's instance. -/
def State.reset : State := State.resetOf Config.params

end Sys2Proof.Machine
end

