-- ==== Sys2Proof/Machine/Operands.lean ====
section
/-!
DEFINITION. The constants of the block, the operands of each command (30_encoding.md R84 to R87), the produced length and the
buffer checks of PROCESS (43_cascade.md R168, R175), which look at operands and configuration alone.
-/

namespace Sys2Proof.Machine

/-- `ID_VALUE` (00_scope.md R6, 10_state.md R24). -/
def idValue : Word := 0x4644430000000001#64

/-- `RATIO_MAX` (00_scope.md R6). -/
def ratioMax : Nat := 2 ^ 31 - 1

/-- The size of sample memory, `2^ADDR_W` (00_scope.md R6, 20_memory.md R60). -/
def addrSpace : Nat := 2 ^ 64

/-- `SZ/2`: the bytes of one part of a sample (00_scope.md R6, 20_memory.md R61). -/
def partBytes : Fmt → Nat
  | .binary32 => 4
  | .binary64 => 8

/-- `SZ`: the bytes of one complex sample (00_scope.md R6). -/
def sampleBytes (F : Fmt) : Nat := 2 * partBytes F

/-- The effective tap count `T`: `TAPS_CFG` forced up to the next odd value (41_filter_design.md R121). -/
def taps (p : Params) : Nat := if p.tapsCfg % 2 = 1 then p.tapsCfg else p.tapsCfg + 1

/-- `ceil_div(a, b)` for `b ≥ 1` (00_scope.md R8). -/
def ceilDiv (a b : Nat) : Nat := (a + b - 1) / b

/-- The operands of CREATE (30_encoding.md R84). -/
structure CreateOperands where
  inRate  : Fp
  outRate : Fp
  maxLen  : Int
  deriving DecidableEq, Repr

/-- `inputRate`, `outputRate` and `maxInputLength` from the latched operands (30_encoding.md R84). -/
def createOperands (l : Args) : CreateOperands :=
  { inRate := unpack .binary64 l.a0, outRate := unpack .binary64 l.a1, maxLen := l.a2.toInt }

/-- The operands of PROCESS (30_encoding.md R85). -/
structure ProcessOperands where
  inB    : Nat
  n      : Nat
  outB   : Nat
  maxOut : Nat
  deriving DecidableEq, Repr

/-- `inBase`, `inputLen`, `outBase` and `maxOut` from the latched operands (30_encoding.md R85). -/
def processOperands (l : Args) : ProcessOperands :=
  { inB := l.a0.toNat, n := l.a1.toNat, outB := l.a2.toNat, maxOut := l.a3.toNat }

/-- `ratio` of FACTORIZE (30_encoding.md R87). -/
def factorizeOperand (l : Args) : Nat := l.a0.toNat

/-- `Mapped(b, len)` (00_scope.md R6; log 3): the platform's own predicate, or, where the parameters list its regions, that one of
them holds the range. -/
def isMapped (p : Params) (b len : Nat) : Bool :=
  match p.mapped with
  | .regions rs => rs.any fun r => decide (r.base ≤ b) && decide (b + len ≤ r.base + r.size)
  | .platform => Config.mapped b len

/-- `InRange(b, m)` for a buffer of `m` samples at `b` (20_memory.md R65): no wrap-around, and mapped. -/
def inRange (p : Params) (b m : Nat) : Bool :=
  decide (b + m * sampleBytes p.sampleFmt ≤ addrSpace) && isMapped p b (m * sampleBytes p.sampleFmt)

/-- The kept and stored length after each stage (43_cascade.md R168), for factors in stage order. -/
def keptLen (scratch : Nat) (factors : List Nat) (n : Nat) : Nat :=
  factors.foldl (fun len f => min (ceilDiv len f) scratch) n

/-- `ProducedLen(n, maxOut)` (43_cascade.md R168). -/
def producedLen (c : Cascade) (n maxOut : Nat) : Nat :=
  min (keptLen c.scratch (c.stages.map Stage.factor) n) maxOut

/-- The check of one buffer: alignment, then range, and none at all when it is empty (43 R175, 20_memory.md R64, R65). -/
def checkBuffer (p : Params) (b m : Nat) : Option Err :=
  if m = 0 then none
  else if b % partBytes p.sampleFmt ≠ 0 then some .alignmentFault
  else if inRange p b m = false then some .memoryFault
  else none

/-- `CheckBuffers(inB, n, outB, produced)`: the input buffer first (43_cascade.md R175). -/
def checkBuffers (p : Params) (o : ProcessOperands) (produced : Nat) : Option Err :=
  (checkBuffer p o.inB o.n).or (checkBuffer p o.outB produced)

/-- The check that precedes every effect of a PROCESS: the error it raises, if any (43_cascade.md R167, 60 R227). -/
def processCheck (p : Params) (c : Cascade) (o : ProcessOperands) : Option Err :=
  if c.cfg = false then some .notConfigured
  else checkBuffers p o (producedLen c o.n o.maxOut)

/-- The bytes a PROCESS writes when its checks pass: `[outB, outB + produced·SZ)` (20_memory.md R67). -/
def processOutput (p : Params) (c : Cascade) (o : ProcessOperands) : Range :=
  { base := o.outB, len := producedLen c o.n o.maxOut * sampleBytes p.sampleFmt }

/-- The bytes of a range that exist (20_memory.md R60). -/
def Range.existing (r : Range) : Range := { r with len := min r.len (addrSpace - r.base) }

/-- The bytes that a race on the latched PROCESS makes free: those of `[outB, outB + produced·SZ)` that exist, whether or not its
checks pass (70_reset_and_hazards.md R266 (b); log 11). -/
def racedRange (s : State) : Range := (processOutput s.params s.cas (processOperands s.larg)).existing

/-- The bytes that the command in flight may write: those of a PROCESS whose checks pass (60 R225 (c), 70 R262; log 8). -/
def inFlightRange (s : State) : Option Range :=
  match decode s.lcmd with
  | .ok .process =>
    match processCheck s.params s.cas (processOperands s.larg) with
    | none => some (processOutput s.params s.cas (processOperands s.larg))
    | some _ => none
  | _ => none

end Sys2Proof.Machine
end

