-- ==== Sys2Proof/Machine/Flags.lean ====
section
/-!
DEFINITION. The status bits, the other register words made of fields, the error codes and the interrupt line (10_state.md R26,
R27, R35, R46; 60_exceptions.md R221). No command computes a condition code (R45).
-/

namespace Sys2Proof.Machine

/-- STATUS as a word: ERRCODE in bits 15:8, then OVR, CFG, ERR, DONE and BUSY in bits 4 to 0 (10_state.md R26). -/
def statusWord (s : State) : Word :=
  0#48 ++ s.errCode ++ 0#3 ++ BitVec.ofBool s.ovr ++ BitVec.ofBool s.cas.cfg ++ BitVec.ofBool s.err
    ++ BitVec.ofBool s.done ++ BitVec.ofBool s.busy

/-- CTRL as a word: IE in bit 0 (10_state.md R27). -/
def ctrlWord (s : State) : Word := 0#63 ++ BitVec.ofBool s.ie

/-- COEF_SEL as a word: STAGE in bits 20:16, TAP in bits 15:0 (10_state.md R35). -/
def coefSelWord (s : State) : Word := 0#43 ++ s.coefStage ++ s.coefTap

/-- The interrupt line, level-sensitive: DONE AND IE (10_state.md R46, 60_exceptions.md R226). -/
def irq (s : State) : Bool := s.done && s.ie

/-- The code of each error (60_exceptions.md R221). Code 0 is no error and code 9, the overrun, never stands in ERRCODE. -/
def errCodeOf : Err → BitVec 8
  | .illegalCommand       => 1#8
  | .notConfigured        => 2#8
  | .invalidConfiguration => 3#8
  | .ratioOutOfRange      => 4#8
  | .scratchTooLarge      => 5#8
  | .invalidOperand       => 6#8
  | .alignmentFault       => 7#8
  | .memoryFault          => 8#8
  | .designFault          => 10#8

end Sys2Proof.Machine
end

