-- ==== Sys2Proof/Machine/Ops.lean ====
section
/-!
DEFINITION. The named operations over sample memory and over the state that the commands and the host share: loads and stores,
free values, the completion of a command with or without an error, the start of a command, the overrun, the race of
70_reset_and_hazards.md R266 and the reset event.
-/

namespace Sys2Proof.Machine

/-- The three outcomes of a step of this machine. -/
abbrev Result := Host.Outcome State Fault Refusal

/-! ### Sample memory -/

/-- The byte at an address (20_memory.md R60). -/
def loadByte : Memory → Nat → Byte
  | [], _ => Memory.unlisted
  | (k, v) :: rest, a => if a = k then v else loadByte rest a

/-- Store one byte, keeping the canonical form. -/
def storeByte : Memory → Nat → Byte → Memory
  | [], a, b => if b = Memory.unlisted then [] else [(a, b)]
  | (k, v) :: rest, a, b =>
    if a < k then (if b = Memory.unlisted then (k, v) :: rest else (a, b) :: (k, v) :: rest)
    else if a = k then (if b = Memory.unlisted then rest else (a, b) :: rest)
    else (k, v) :: storeByte rest a b

/-- `MemRead(addr, n)`: the `n` bytes at `addr`, assembled little-endian (00_scope.md R11, 20_memory.md R62). -/
def memLoad (m : Memory) (addr : Nat) : Nat → Nat
  | 0 => 0
  | n + 1 => (loadByte m addr).toNat + 256 * memLoad m (addr + 1) n

/-- `MemWrite(addr, n, v)`: `v` as `n` bytes, little-endian (00_scope.md R11, 20_memory.md R62). -/
def memStore (m : Memory) (addr : Nat) : Nat → Nat → Memory
  | 0, _ => m
  | n + 1, v => memStore (storeByte m addr (BitVec.ofNat 8 v)) (addr + 1) n (v / 256)

/-- Store a list of bytes at rising addresses. -/
def storeBytes (m : Memory) (addr : Nat) : List Byte → Memory
  | [] => m
  | b :: rest => storeBytes (storeByte m addr b) (addr + 1) rest

/-- `len` free bytes from `addr` on, the draws counted from `i`. -/
def drawBytes (m : Memory) (addr i : Nat) : Nat → Memory
  | 0 => m
  | n + 1 => drawBytes (storeByte m addr (Config.freeByte i)) (addr + 1) (i + 1) n

/-- `ReadSample(a)` (20_memory.md R66): `re` first, no conversion. -/
def readSample (F : Fmt) (m : Memory) (a : Nat) : Sample :=
  { re := BitVec.ofNat 64 (memLoad m a (partBytes F)),
    im := BitVec.ofNat 64 (memLoad m (a + partBytes F) (partBytes F)) }

/-- `WriteSample(a, z)` (20_memory.md R67). -/
def writeSample (F : Fmt) (m : Memory) (a : Nat) (z : Sample) : Memory :=
  memStore (memStore m a (partBytes F) z.re.toNat) (a + partBytes F) (partBytes F) z.im.toNat

/-- The `n` samples of the buffer at `b`, in rising address (20_memory.md R66, R71). -/
def readSamples (F : Fmt) (m : Memory) (b n : Nat) : List Sample :=
  (List.range n).map fun i => readSample F m (b + i * sampleBytes F)

/-- Write samples to the buffer at `b`, in rising address (20_memory.md R67, R71). -/
def writeSamples (F : Fmt) (m : Memory) (b : Nat) : List Sample → Memory
  | [] => m
  | z :: rest => writeSamples F (writeSample F m b z) (b + sampleBytes F) rest

/-! ### Free values -/

/-- Every byte of a range takes a free value; no range, no change. -/
def drawRange (r : Option Range) (s : State) : State :=
  match r with
  | none => s
  | some r => { s with mem := drawBytes s.mem r.base s.draws r.len, draws := s.draws + r.len }

/-- A free part of a sample: a free pattern of the format's width. -/
def freePart (F : Fmt) (i : Nat) : Word :=
  BitVec.ofNat 64 ((Config.freeWord i).toNat % 2 ^ (8 * partBytes F))

/-- A stage whose delay line and cursor are any value of their types: `T` samples and a cursor in `[0, T)` (70 R266 (b)).
It takes `2·T + 1` draws from `i` on. -/
def drawStage (F : Fmt) (T i : Nat) (st : Stage) : Stage :=
  { st with
    delay := (List.range T).map fun j => { re := freePart F (i + 2 * j), im := freePart F (i + 2 * j + 1) }
    cursor := (Config.freeWord (i + 2 * T)).toNat % T }

/-- Every stage's delay line and cursor take free values. -/
def drawStages (F : Fmt) (T : Nat) (i : Nat) : List Stage → List Stage
  | [] => []
  | st :: rest => drawStage F T i st :: drawStages F T (i + (2 * T + 1)) rest

/-- All filter state takes free values; factors, coefficients and the rest of the configuration stay (70 R266 (b), (c)). -/
def drawFilters (s : State) : State :=
  { s with
    cas := { s.cas with stages := drawStages s.params.sampleFmt (taps s.params) s.draws s.cas.stages }
    draws := s.draws + (2 * taps s.params + 1) * s.cas.stages.length }

/-! ### Completion (44_host_bus.md R210) -/

/-- `Complete(ok)`. -/
def completeOk (s : State) : State :=
  { s with err := false, errCode := 0#8, busy := false, done := true }

/-- `raise E` and `Complete(E)`: the one way in which a command reports an error. The block takes no trap, so nothing is saved
and nothing returns (60_exceptions.md R220, R223, R229). -/
def raiseError (e : Err) (s : State) : State :=
  { s with err := true, errCode := errCodeOf e, result := 0#64, busy := false, done := true }

/-- A command ends: with the state it made, or with its error on the state `failed` that the error leaves (60 R223). -/
def finish (failed : State) : Except Err State → State
  | .ok t    => completeOk t
  | .error e => raiseError e failed

/-- A word that is no command: ILLEGAL_COMMAND, and nothing else changes (30_encoding.md R81, R83). -/
def illegalCommand (s : State) : State := raiseError .illegalCommand s

/-! ### The command start and the overrun (44_host_bus.md R201, 60_exceptions.md R225) -/

/-- The buffers that a PROCESS hands over from its CMD write on (70_reset_and_hazards.md R266, R273). -/
def openWindow (p : Params) (l : Args) : Window :=
  let o := processOperands l
  { input  := { base := o.inB, len := o.n * sampleBytes p.sampleFmt }
    output := { base := o.outB, len := o.maxOut * sampleBytes p.sampleFmt }
    exposed := none, ran := false, raced := false, missed := false }

/-- The start of a command clears DONE, so that the read of DONE = 1 for an earlier command will not come (70 R266; log 10). -/
def missWindows (ws : List Window) : List Window := ws.map fun w => { w with missed := true }

/-- The windows after the start of command word `v`: a PROCESS opens one. -/
def windowsAtStart (v : Word) (s : State) : List Window :=
  match decode v with
  | .ok .process => openWindow s.params s.args :: missWindows s.windows
  | _ => missWindows s.windows

/-- The start of a command: word and operands are latched, DONE, ERR and ERRCODE are cleared, BUSY is set (R201). -/
def startCommand (v : Word) (s : State) : State :=
  { s with
    lcmd := v, larg := s.args, done := false, err := false, errCode := 0#8, busy := true
    windows := windowsAtStart v s }

/-- The overrun: OVR is set, the bytes the running command may write and all internal state and results, the latched word and
operands among them, become any value (60_exceptions.md R225, 70_reset_and_hazards.md R274; log 7, log 8). -/
def overrun (s : State) : State :=
  let t := drawRange (inFlightRange s) s
  { t with
    ovr := true, lost := inFlightRange s
    cas := Config.freeCascade t.draws, fz := Config.freeFactors t.draws, result := Config.freeWord t.draws
    lcmd := Config.freeWord (t.draws + 1)
    larg := ⟨Config.freeWord (t.draws + 2), Config.freeWord (t.draws + 3), Config.freeWord (t.draws + 4),
      Config.freeWord (t.draws + 5)⟩
    draws := t.draws + 6 }

/-- `RegWrite(0x008, v)` (44_host_bus.md R201). -/
def writeCmd (v : Word) (s : State) : State :=
  let t := { s with cmd := v }
  if t.ovr then t
  else if t.busy then overrun t
  else startCommand v t

/-! ### Races (70_reset_and_hazards.md R266) -/

/-- The range shares a byte with the `len` bytes at `a`. -/
def Range.meets (r : Range) (a len : Nat) : Bool :=
  decide (max a r.base < min (a + len) (r.base + r.len))

/-- One of the window's buffers shares a byte with the `len` bytes at `a`. -/
def Window.meets (w : Window) (a len : Nat) : Bool := w.input.meets a len || w.output.meets a len

/-- The byte at `a` lies in a buffer that the host may not touch yet. -/
def isHandedOver (s : State) (a : Nat) : Bool := s.windows.any fun w => w.meets a 1

/-- The windows after a write to `len` bytes at `a`: those it meets are raced. -/
def racedWindows (a len : Nat) (ws : List Window) : List Window :=
  ws.map fun w => if w.meets a len then { w with raced := true } else w

/-- The output bytes of every window of a list take free values, one window after the other. -/
def drawExposed (ws : List Window) (s : State) : State := ws.foldl (fun u w => drawRange w.exposed u) s

/-- A write to `len` bytes at `a` inside a window is a race. A command that has not run yet will end with free values; for one
that has run they are drawn now (R266 (b); log 10). -/
def noteWrite (a len : Nat) (s : State) : State :=
  let hit := s.windows.filter fun w => w.meets a len
  let t := { s with windows := racedWindows a len s.windows }
  let late := hit.filter Window.ran
  if late.isEmpty then t else drawFilters (drawExposed late t)

/-- The engine step of a PROCESS ends, with or without an error: its window, if it has one, records that it has run and its output
bytes. If a race came before, these bytes and all filter state become any value (R266 (b); log 11). -/
def settleWindow (output : Range) (s : State) : State :=
  match s.windows with
  | [] => s
  | w :: rest =>
    if w.ran then s
    else
      let t := { s with windows := { w with ran := true, exposed := some output } :: rest }
      if w.raced then drawFilters (drawRange (some output) t) else t

/-- The host has read DONE = 1: the buffers of the command for which it was read are its own again (70 R266, 20_memory.md R72).
The windows of commands whose DONE the host missed stay (log 10). -/
def closeWindows (s : State) : State :=
  { s with windows := s.windows.filter fun w => !w.ran || w.missed }

/-! ### The reset event (70_reset_and_hazards.md R260, R262) -/

/-- The output bytes that a reset leaves with any value: those of the PROCESS it abandons (R262; log 9). -/
def abandonedRange (s : State) : Option Range :=
  if s.busy then (if s.ovr then s.lost else inFlightRange s) else none

/-- The reset event: every register and internal field takes its reset value; sample memory stays, but for the output bytes of
an abandoned PROCESS. The host's own side (its program, what it has read) and the draw counter are not the block's. DESIGN
CHOICE: every window closes here. The spec does not say whether the host's duty towards a PROCESS's buffers (20_memory.md R72,
70 R266) ends at a reset that comes before the host has read DONE = 1 for it; in the model it does (log 31). -/
def resetEvent (s : State) : State :=
  let t := drawRange (abandonedRange s) s
  { State.resetOf s.params with mem := t.mem, draws := t.draws, host := s.host, replies := s.replies }

end Sys2Proof.Machine
end

