-- ==== Sys2Proof/Machine/Clear.lean ====
section
/-!
DEFINITION. CLEAR (43_cascade.md R178).
-/

namespace Sys2Proof.Machine

/-- A stage with its history cleared: `T` samples of ZERO and cursor 0 (43_cascade.md R178). -/
def clearStage (T : Nat) (st : Stage) : Stage :=
  { st with delay := List.replicate T Sample.zero, cursor := 0 }

/-- The body of CLEAR up to its completion (43_cascade.md R178). -/
def clearBody (s : State) : Except Err State :=
  if s.cas.cfg = false then .error .notConfigured
  else .ok { s with cas := { s.cas with stages := s.cas.stages.map (clearStage (taps s.params)) }, result := 0#64 }

/-- CLEAR (43_cascade.md R178). -/
def execClear (s : State) : Result := .next (finish s (clearBody s))

end Sys2Proof.Machine
end

