-- ==== Sys2Proof/Machine/Designer.lean ====
section
/-!
DEFINITION. The lowpass filter designer, an internal function of CREATE (41_filter_design.md R120 to R129). All of it is
binary64 arithmetic in the order of the rules, but for the last rounding to the sample format. `sin` and `cos` are arguments,
so that the machine passes the OPEN functions of the configuration and a test can pass known values.
-/

namespace Sys2Proof.Machine

/-- `PI`, 0x400921FB54442D18 (41_filter_design.md R124). -/
def piValue : Fp := unpack .binary64 0x400921FB54442D18#64

/-- A binary64 integer, exact below 2^53 (41_filter_design.md R124, R125). -/
def f64Nat (n : Nat) : Fp := ofRat .binary64 false n 1

/-- A function on binary64 patterns applied to a value. No rule applies it to a NaN: its arguments are products and quotients
of finite numbers that no zero divides (41 R124, R125). -/
def applyReal (fn : Word → Word) : Fp → Fp
  | .nan => .nan
  | .inf neg => unpack .binary64 (fn (pack .binary64 0#64 (.inf neg)))
  | .fin neg mag => unpack .binary64 (fn (pack .binary64 0#64 (.fin neg mag)))

/-- The centre tap `M = (T − 1)/2` (41_filter_design.md R122). -/
def centreTap (T : Nat) : Nat := (T - 1) / 2

/-- `a = 2.0 · (0.45 / f)`, with 0.45 the nearest binary64 (41_filter_design.md R123). -/
def cutoffScale (f : Nat) : Fp :=
  fmul .binary64 (f64Nat 2) (fdiv .binary64 (ofRat .binary64 false 45 100) (f64Nat f))

/-- `x_n = a · (n − M)` for a tap `n ≤ M` (41_filter_design.md R124). -/
def sincArgument (f T n : Nat) : Fp :=
  fmul .binary64 (cutoffScale f) (ofRat .binary64 (decide (n < centreTap T)) (centreTap T - n) 1)

/-- `sinc(x)` (41_filter_design.md R124). -/
def sinc (sin : Word → Word) (x : Fp) : Fp :=
  if isZero x then f64Nat 1
  else fdiv .binary64 (applyReal sin (fmul .binary64 piValue x)) (fmul .binary64 piValue x)

/-- The symmetric Hann window `w_n`, 1.0 for `T = 1` (41_filter_design.md R125). -/
def hann (cos : Word → Word) (T n : Nat) : Fp :=
  if T < 2 then f64Nat 1
  else
    let half := ofRat .binary64 false 1 2
    let angle := fdiv .binary64 (fmul .binary64 (fmul .binary64 (f64Nat 2) piValue) (f64Nat n)) (f64Nat (T - 1))
    fsub .binary64 half (fmul .binary64 half (applyReal cos angle))

/-- The raw tap `h_n = sinc(x_n) · w_n` for `n ≤ M` (41_filter_design.md R126). -/
def rawTap (sin cos : Word → Word) (f T n : Nat) : Fp :=
  fmul .binary64 (sinc sin (sincArgument f T n)) (hann cos T n)

/-- All `T` raw taps: the left half with the centre, then its mirror (41_filter_design.md R126). -/
def rawTaps (sin cos : Word → Word) (f T : Nat) : List Fp :=
  let left := (List.range (centreTap T + 1)).map (rawTap sin cos f T)
  left ++ (left.take (centreTap T)).reverse

/-- The sum of the raw taps in ascending order from +0.0 (41_filter_design.md R127). -/
def tapSum (hs : List Fp) : Fp := hs.foldl (fadd .binary64) (.fin false 0)

/-- One stored tap: divided in binary64, rounded once to the sample format (41_filter_design.md R127). -/
def storedTap (F : Fmt) (sum h : Fp) : Fp := fcvt .binary64 F (fdiv .binary64 h sum)

/-- `design(f, T)` (41_filter_design.md R120, R127): the coefficient patterns, or DESIGN_FAULT as none. -/
def design (sin cos : Word → Word) (F : Fmt) (f T : Nat) : Option (List Word) :=
  let hs := rawTaps sin cos f T
  let sum := tapSum hs
  if isNonFinite sum || isZero sum then none
  else
    let cs := hs.map (storedTap F sum)
    if cs.any isNonFinite then none
    else some (cs.map (pack F 0#64))

end Sys2Proof.Machine
end

