-- ==== Sys2Proof/Machine/Factorizer.lean ====
section
/-!
DEFINITION. The rate factorizer and the command FACTORIZE (40_factorizer.md).
-/

namespace Sys2Proof.Machine

/-- The inner loop of `factorize`: how often `q` divides the remainder, as a list, and what remains. `fuel` bounds the number
of divisions. -/
def pullFactor (q : Nat) : Nat → Nat → List Nat × Nat
  | 0, r => ([], r)
  | fuel + 1, r =>
    if r % q = 0 then
      match pullFactor q fuel (r / q) with
      | (fs, rest) => (q :: fs, rest)
    else ([], r)

/-- The loop over the preference list, then the residual (40_factorizer.md R100). -/
def pullFactors : List Nat → Nat → List Nat
  | [], r => if 1 < r then [r] else []
  | q :: qs, r =>
    match pullFactor q (Nat.log2 r + 1) r with
    | (fs, rest) => fs ++ pullFactors qs rest

/-- `factorize(r)` for `r ≥ 1` (40_factorizer.md R100). A number `r ≥ 1` can be divided by a `q ≥ 2` at most `log2 r` times, so
the fuel of the inner loop does not run out. -/
def factorize (r : Nat) : List Nat := pullFactors [8, 6, 5, 4, 3, 2] r

/-- The body of FACTORIZE up to its completion (40_factorizer.md R102). -/
def factorizeBody (s : State) : Except Err State :=
  let r := factorizeOperand s.larg
  if r = 0 then .error .invalidOperand
  else if ratioMax < r then .error .ratioOutOfRange
  else .ok { s with fz := factorize r, result := BitVec.ofNat 64 (factorize r).length }

/-- FACTORIZE (40_factorizer.md R102). An error leaves `st.fz` as it was. -/
def execFactorize (s : State) : Result := .next (finish s (factorizeBody s))

end Sys2Proof.Machine
end

