-- ==== Sys2Proof/Machine/Create.lean ====
section
/-!
DEFINITION. CREATE (43_cascade.md R161 to R166).
-/

namespace Sys2Proof.Machine

/-- The ratio from an exact quotient: nearest integer, clamped to at least 1 (43_cascade.md R162). -/
def clampedRatio (ties : Ties) (mag : Nat) : Nat := max (roundToInteger .binary64 ties mag) 1

/-- `RatioOf(inR, outR)`; none is RATIO_OUT_OF_RANGE (43_cascade.md R162). -/
def ratioOf (ties : Ties) (inR outR : Fp) : Option Nat :=
  match fdiv .binary64 inR outR with
  | .fin _ mag => if ratioMax < clampedRatio ties mag then none else some (clampedRatio ties mag)
  | _ => none

/-- The rates are both greater than 0 and neither is +inf (43_cascade.md R163). -/
def ratesValid (o : CreateOperands) : Bool :=
  isPositive o.inRate && isPositive o.outRate && o.inRate != .inf false && o.outRate != .inf false

/-- `S = max(maxInputLength, MIN_SCRATCH)` (43_cascade.md R164). -/
def scratchSize (p : Params) (maxLen : Int) : Nat := (max maxLen (p.minScratch : Int)).toNat

/-- A stage with zero history (43_cascade.md R165, 10_state.md R42). -/
def freshStage (T f : Nat) (coef : List Word) : Stage :=
  { factor := f, coef := coef, delay := List.replicate T Sample.zero, cursor := 0 }

/-- The stages for a list of factors, in list order (40_factorizer.md R103): each designed, or none at the first DESIGN_FAULT. -/
def designStages (sin cos : Word → Word) (F : Fmt) (T : Nat) : List Nat → Option (List Stage)
  | [] => some []
  | f :: fs =>
    match design sin cos F f T with
    | none => none
    | some coef =>
      match designStages sin cos F T fs with
      | none => none
      | some rest => some (freshStage T f coef :: rest)

/-- `st.achieved = inputRate / r` in binary64 (43_cascade.md R166). -/
def achievedRate (inR : Fp) (r : Nat) : Word := pack .binary64 0#64 (fdiv .binary64 inR (f64Nat r))

/-- The configuration that a CREATE makes, or the first error in the order of R161. -/
def createCascade (p : Params) (o : CreateOperands) : Except Err Cascade :=
  if ratesValid o = false then .error .invalidConfiguration
  else match ratioOf p.ratioTies o.inRate o.outRate with
    | none => .error .ratioOutOfRange
    | some r =>
      if p.scratchCap < scratchSize p o.maxLen then .error .scratchTooLarge
      else match designStages Config.sin Config.cos p.sampleFmt (taps p) (factorize r) with
        | none => .error .designFault
        | some stages =>
          .ok { cfg := true, ratio := r, stages := stages, scratch := scratchSize p o.maxLen,
                achieved := achievedRate o.inRate r }

/-- The body of CREATE up to its completion (43_cascade.md R161). -/
def createBody (s : State) : Except Err State :=
  match createCascade s.params (createOperands s.larg) with
  | .error e => .error e
  | .ok c => .ok { s with cas := c, result := BitVec.ofNat 64 c.stages.length }

/-- CREATE (43_cascade.md R161). Any error leaves the block unconfigured (R165). -/
def execCreate (s : State) : Result := .next (finish { s with cas := Cascade.unconfigured } (createBody s))

end Sys2Proof.Machine
end

