-- ==== Sys2Proof/Machine/Fir.lean ====
section
/-!
DEFINITION. The complex FIR step, one stage's pass over its input, and the chain of stages (42_fir.md R140 to R148; 43_cascade.md
R169 to R171). The scratch buffer is the list passed from stage to stage (10_state.md R43).
-/

namespace Sys2Proof.Machine

/-- The sum of one lane: products `c[j] · d[(p − j) mod T]` in increasing `j` from +0.0, each product and each sum rounded
(42_fir.md R141, R143). `(p + T − j) mod T` is `(p − j) mod T` for `j ≤ T`. -/
def laneSum (F : Fmt) (T : Nat) (coef lane : List Word) (p : Nat) : Fp :=
  (List.range T).foldl
    (fun acc j => fadd F acc (fmul F (unpack F (coef.getD j 0#64)) (unpack F (lane.getD ((p + T - j) % T) 0#64))))
    (.fin false 0)

/-- The delay line after the new sample is stored at the write cursor (42_fir.md R141). -/
def storedLine (st : Stage) (x : Sample) : List Sample := st.delay.set st.cursor x

/-- The stage after a step: the sample stored, the cursor advanced modulo `T` (42_fir.md R141). -/
def storeSample (T : Nat) (st : Stage) (x : Sample) : Stage :=
  { st with delay := storedLine st x, cursor := (st.cursor + 1) % T }

/-- The output of a step (42_fir.md R141, R142). The real part of a NaN output takes draw `dr`, the imaginary part draw `dr + 1`
(R145 (c); log 5). -/
def firOutput (F : Fmt) (T dr : Nat) (st : Stage) (x : Sample) : Sample :=
  { re := pack F (Config.freeWord dr) (laneSum F T st.coef ((storedLine st x).map Sample.re) st.cursor)
    im := pack F (Config.freeWord (dr + 1)) (laneSum F T st.coef ((storedLine st x).map Sample.im) st.cursor) }

/-- `FirStep(k, x)` on stage `k` (42_fir.md R141): the output and the stage after it. -/
def firStep (F : Fmt) (T dr : Nat) (st : Stage) (x : Sample) : Sample × Stage :=
  (firOutput F T dr st x, storeSample T st x)

/-- One stage over its input sequence, the first sample having index `i` (43_cascade.md R169): the kept outputs, those with an
index that is a multiple of the factor, and the stage after all of it. Each sample takes two draws. -/
def runStage (F : Fmt) (T : Nat) : Nat → Nat → Stage → List Sample → List Sample × Stage
  | _, _, st, [] => ([], st)
  | dr, i, st, x :: xs =>
    match firStep F T dr st x with
    | (y, st') =>
      match runStage F T (dr + 2) (i + 1) st' xs with
      | (kept, st'') => (if i % st.factor = 0 then y :: kept else kept, st'')

/-- The chain of stages: what a stage keeps, cut at the scratch size, is the next stage's input (43_cascade.md R167, R169,
R171). The result is the last stored sequence, the stages after it, and the draw counter. -/
def runStages (F : Fmt) (T scratch : Nat) : Nat → List Stage → List Sample → List Sample × List Stage × Nat
  | dr, [], seq => (seq, [], dr)
  | dr, st :: rest, seq =>
    match runStage F T dr 0 st seq with
    | (kept, st') =>
      match runStages F T scratch (dr + 2 * seq.length) rest (kept.take scratch) with
      | (out, sts, dr') => (out, st' :: sts, dr')

end Sys2Proof.Machine
end

