-- ==== Sys2Proof/Machine/Process.lean ====
section
/-!
DEFINITION. PROCESS (43_cascade.md R167 to R177).
-/

namespace Sys2Proof.Machine

/-- The work of a PROCESS whose checks have passed: read, filter, write, set the result (43_cascade.md R167). With no stage it
is a copy (R173). -/
def processWork (o : ProcessOperands) (s : State) : State :=
  let F := s.params.sampleFmt
  let produced := producedLen s.cas o.n o.maxOut
  match runStages F (taps s.params) s.cas.scratch s.draws s.cas.stages (readSamples F s.mem o.inB o.n) with
  | (out, stages, dr) =>
    { s with
      mem := writeSamples F s.mem o.outB (out.take produced)
      cas := { s.cas with stages := stages }
      draws := dr
      result := BitVec.ofNat 64 produced }

/-- The body of PROCESS up to its completion: every check precedes every effect (43_cascade.md R167, R175). -/
def processBody (s : State) : Except Err State :=
  let o := processOperands s.larg
  match processCheck s.params s.cas o with
  | some e => .error e
  | none => .ok (settleWindow (racedRange s) (processWork o s))

/-- PROCESS (43_cascade.md R167). A failed one has no effect but its error (60 R223), unless its buffers were raced (70 R266;
log 11). -/
def execProcess (s : State) : Result := .next (finish (settleWindow (racedRange s) s) (processBody s))

end Sys2Proof.Machine
end

