-- ==== Sys2Proof/Machine/Dispatch.lean ====
section
/-!
DEFINITION. One arm per command (30_encoding.md R82): the engine runs it to its end or its first error (44_host_bus.md R209).
-/

namespace Sys2Proof.Machine

def exec (i : Instr) (s : State) : Host.Outcome State Fault Refusal :=
  match i with
  | .create => Sys2Proof.Machine.execCreate s
  | .process => Sys2Proof.Machine.execProcess s
  | .clear => Sys2Proof.Machine.execClear s
  | .factorize => Sys2Proof.Machine.execFactorize s

end Sys2Proof.Machine
end

