-- ==== Sys2Proof/Machine/Registers.lean ====
section
/-!
DEFINITION. Register reads and writes by the host (10_state.md R23 to R40; 44_host_bus.md R201 to R207).
-/

namespace Sys2Proof.Machine

/-- A coefficient widened exactly to binary64 (10_state.md R36). `free` chooses the pattern of a NaN, which no designed
coefficient is (41_filter_design.md R127). -/
def widenCoef (F : Fmt) (free w : Word) : Word :=
  match F with
  | .binary64 => w
  | .binary32 => pack .binary64 free (fcvt .binary32 .binary64 (unpack .binary32 w))

/-- COEF_DATA (10_state.md R36). -/
def coefDataValue (s : State) : Word :=
  if s.cas.cfg = true ∧ s.coefTap.toNat < taps s.params then
    match s.cas.stages[s.coefStage.toNat]? with
    | some st => widenCoef s.params.sampleFmt (Config.freeWord s.draws) (st.coef.getD s.coefTap.toNat 0#64)
    | none => 0#64
  else 0#64

/-- A value that reads 0 while the block is unconfigured (10_state.md R30 to R34, R38). -/
def whenConfigured (s : State) (v : Word) : Word := if s.cas.cfg then v else 0#64

/-- ARG0 to ARG3 by index (10_state.md R28). -/
def Args.get (l : Args) : Fin 4 → Word
  | 0 => l.a0
  | 1 => l.a1
  | 2 => l.a2
  | 3 => l.a3

/-- ARG0 to ARG3 with one of them changed. -/
def Args.set (l : Args) (v : Word) : Fin 4 → Args
  | 0 => { l with a0 := v }
  | 1 => { l with a1 := v }
  | 2 => { l with a2 := v }
  | 3 => { l with a3 := v }

/-- The register's value as 10_state.md R24 to R39 define it. -/
def regValue (s : State) : Reg → Word
  | .id       => idValue
  | .cmd      => s.cmd
  | .status   => statusWord s
  | .ctrl     => ctrlWord s
  | .arg i    => s.args.get i
  | .result   => s.result
  | .ratio    => whenConfigured s (BitVec.ofNat 64 s.cas.ratio)
  | .nstages  => whenConfigured s (BitVec.ofNat 64 s.cas.stages.length)
  | .scratch  => whenConfigured s (BitVec.ofNat 64 s.cas.scratch)
  | .taps     => BitVec.ofNat 64 (taps s.params)
  | .achieved => whenConfigured s s.cas.achieved
  | .coefSel  => coefSelWord s
  | .coefData => coefDataValue s
  | .fzN      => BitVec.ofNat 64 s.fz.length
  | .factor i => whenConfigured s (BitVec.ofNat 64 ((s.cas.stages.map Stage.factor).getD i.val 0))
  | .fz i     => BitVec.ofNat 64 (s.fz.getD i.val 0)

/-- The registers whose reads return any value while BUSY = 1 (44_host_bus.md R207, 70 R267). -/
def isResultReg : Reg → Bool
  | .result | .ratio | .nstages | .scratch | .achieved | .coefData | .fzN | .factor _ | .fz _ => true
  | .id | .cmd | .status | .ctrl | .arg _ | .taps | .coefSel => false

/-- The host receives a register's value. -/
def reply (v : Word) (s : State) : State := { s with replies := .reg v :: s.replies }

/-- `RegRead` of a register, or of a reserved offset, which reads 0 (44_host_bus.md R207, 10_state.md R40). A read of STATUS
that shows DONE = 1 ends the host's duty towards the finished command's buffers (70 R266). -/
def readReg (r : Option Reg) (s : State) : State :=
  match r with
  | none => reply 0#64 s
  | some r =>
    if s.busy && isResultReg r then { reply (Config.freeWord s.draws) s with draws := s.draws + 1 }
    else
      let t := reply (regValue s r) s
      if r = .status ∧ s.done = true then closeWindows t else t

/-- `RegWrite` of a register (44_host_bus.md R201 to R206); a write to a read-only register or a reserved offset is ignored. -/
def writeReg (r : Option Reg) (v : Word) (s : State) : State :=
  match r with
  | some .cmd     => writeCmd v s
  | some .status  => if v.getLsbD 1 then { s with done := false } else s
  | some .ctrl    => { s with ie := v.getLsbD 0 }
  | some (.arg i) => { s with args := s.args.set v i }
  | some .coefSel => { s with coefTap := v.extractLsb' 0 16, coefStage := v.extractLsb' 16 5 }
  | some .id | some .result | some .ratio | some .nstages | some .scratch | some .taps | some .achieved
  | some .coefData | some .fzN | some (.factor _) | some (.fz _) | none => s

end Sys2Proof.Machine
end

