-- ==== Sys2Proof/Machine/Host.lean ====
section
/-!
DEFINITION. What one operation of the host or its platform does, whose turn it is, and how a command word is placed where the
engine takes its next one (44_host_bus.md R200 to R212; 30_encoding.md R89; 70_reset_and_hazards.md R260, R266).
-/

namespace Sys2Proof.Machine

/-- The `len` bytes at `a` exist and every one is mapped to ordinary memory (20_memory.md R60, R65, R68; log 13). -/
def hostReaches (p : Params) (a len : Nat) : Bool :=
  decide (a + len ≤ addrSpace) && (List.range len).all fun i => isMapped p (a + i) 1

/-- The byte the host reads: any value inside a buffer it may not touch yet (70 R266 (a)). -/
def hostByte (s : State) (a i : Nat) : Byte :=
  if isHandedOver s (a + i) then Config.freeByte (s.draws + i) else loadByte s.mem (a + i)

/-- The host reads `n` bytes of sample memory (20_memory.md R60, R72). -/
def hostLoad (a n : Nat) (s : State) : State :=
  { s with
    replies := .mem ((List.range n).map (hostByte s a)) :: s.replies
    draws := s.draws + n }

/-- The host or another agent writes bytes to sample memory (20_memory.md R60, 70 R266). -/
def hostStore (a : Nat) (bytes : List Byte) (s : State) : State :=
  noteWrite a bytes.length { s with mem := storeBytes s.mem a bytes }

/-- One poll of `wait` (30_encoding.md R89): a read of STATUS, and if the command is still running, the engine's turn comes
before the next poll (70 R272; log 14). -/
def pollStatus (s : State) : State :=
  let t := readReg (some .status) s
  if (!s.busy && s.done) || s.ovr then t else { t with host := .engine :: .wait :: t.host }

/-- One operation of the host or its platform. `engine` does nothing here: it is reached only when the engine has no step. -/
def hostAct (op : HostOp) (s : State) : Result :=
  match op with
  | .regRead a =>
    match busOffset s.params.regBase a with
    | some off => .next (readReg (regAt off) s)
    | none => .refused .unsupportedAccess
  | .regWrite a v =>
    match busOffset s.params.regBase a with
    | some off => .next (writeReg (regAt off) v s)
    | none => .refused .unsupportedAccess
  | .wait => .next (pollStatus s)
  | .memRead a n => if hostReaches s.params a.toNat n then .next (hostLoad a.toNat n s) else .fault .hostUnmapped
  | .memWrite a bytes =>
    if hostReaches s.params a.toNat bytes.length then .next (hostStore a.toNat bytes s) else .fault .hostUnmapped
  | .engine => .next s
  | .reset => .next (resetEvent s)

/-- Whose turn it is, with the state in which the turn is taken. -/
inductive Turn where
  /-- The engine runs its latched command (44_host_bus.md R209). -/
  | engine (s : State)
  /-- The host or its platform acts. -/
  | host (op : HostOp) (s : State)
  /-- Nobody has anything to do: the block holds its state (60_exceptions.md R235). -/
  | idle
  /-- The block is overrun and no reset will come (60_exceptions.md R225). -/
  | stuck
  deriving Repr

/-- The engine has one enabled step (44_host_bus.md R209). -/
def engineEnabled (s : State) : Bool := s.busy && !s.ovr

/-- Whose turn it is (log 14): the host's list says, and when it is empty the engine runs what it has been given. -/
def nextTurn (s : State) : Turn :=
  match s.host with
  | [] => if engineEnabled s then .engine s else if s.ovr then .stuck else .idle
  | .engine :: rest =>
    if engineEnabled s then .engine { s with host := rest } else .host .engine { s with host := rest }
  | op :: rest => .host op { s with host := rest }

/-- The command word `w` stands where the engine takes its next command, and the engine's turn is next: latched, BUSY set, no
overrun (44_host_bus.md R201, R209; log 15). -/
def placeCommand (nbits w : Nat) (s : State) : State :=
  { s with
    lcmd := BitVec.ofNat 64 (w % 2 ^ nbits), busy := true, ovr := false
    host := match s.host with
      | [] => []
      | ops => .engine :: ops }

end Sys2Proof.Machine
end

