-- ==== Sys2Proof/Machine/Step.lean ====
section
/-!
DEFINITION. One step of the machine: the engine's step (44_host_bus.md R209) or one operation of the host or its platform.
-/

namespace Sys2Proof.Machine

/-- The engine step: the latched word is decoded and its command runs to completion (44_host_bus.md R209). -/
def engineStep (s : State) : Host.Outcome State Fault Refusal :=
  match decode s.lcmd with
  | .ok i    => exec i s
  | .error _ => .next (illegalCommand s)

/-- One step. -/
def step (s : State) : Host.Outcome State Fault Refusal :=
  match nextTurn s with
  | .engine t  => engineStep t
  | .host op t => hostAct op t
  | .idle      => .next s
  | .stuck     => .fault .overrunStuck

/-- The state in which the very next step runs the command word `w` (log 15). -/
def State.withFetchWord (s : State) (nbits w : Nat) : State := placeCommand nbits w s

end Sys2Proof.Machine
end

