-- ==== Sys2Proof/Safety.lean ====
section
/-!
DEFINITION. The terms in which claims speak of the machine: the invariant of every step, the host's duties, and the views of the
filter state that outputs depend on.
-/

namespace Sys2Proof.Machine

/-- A range whose bytes all exist (20_memory.md R60). -/
abbrev Range.inSpace (r : Range) : Prop := r.len = 0 ∨ r.base + r.len ≤ addrSpace

/-- A stage as CREATE makes it and every later step leaves it (10_state.md R41, R42; 42_fir.md R144): designed coefficients,
`T` slots, a cursor in `[0, T)`. -/
abbrev stageOk (p : Params) (st : Stage) : Prop :=
  design Config.sin Config.cos p.sampleFmt st.factor (taps p) = some st.coef ∧
  st.delay.length = taps p ∧ st.cursor < taps p

/-- A configuration within the ranges of 10_state.md R41: the factors are the factorization of the ratio (40 R103), the scratch
size lies between MIN_SCRATCH and SCRATCH_CAP. An unconfigured block holds nothing (43 R165). -/
abbrev cascadeOk (p : Params) (c : Cascade) : Prop :=
  if c.cfg = true then
    1 ≤ c.ratio ∧ c.ratio ≤ ratioMax ∧ c.stages.map Stage.factor = factorize c.ratio ∧
    (∀ st ∈ c.stages, stageOk p st) ∧ p.minScratch ≤ c.scratch ∧ c.scratch ≤ p.scratchCap
  else c = Cascade.unconfigured

/-- `st.fz` is empty or the factorization of a legal ratio, which is then its product (10_state.md R44, 40 R102). -/
abbrev factorsOk (fz : List Nat) : Prop :=
  1 ≤ fz.prod ∧ fz.prod ≤ ratioMax ∧ fz = factorize fz.prod

/-- STATUS as 10_state.md R26 and 44_host_bus.md R201, R210 keep it: a running command shows no completion and no error, an
overrun keeps BUSY, ERRCODE is 0 exactly without an error and otherwise a code of 60 R221 other than 9. -/
abbrev statusOk (s : State) : Prop :=
  (s.busy = true → s.done = false ∧ s.err = false) ∧
  (s.ovr = true → s.busy = true) ∧
  (s.err = false ↔ s.errCode = 0#8) ∧
  s.errCode.toNat ≤ 10 ∧ s.errCode ≠ 9#8

/-- The invariant of every step. After an overrun the configuration and `st.fz` are any value (60 R225), so it says nothing of
them there. -/
structure State.Inv (s : State) : Prop where
  /-- Sample memory is in canonical form. -/
  mem     : s.mem.wf = true
  /-- STATUS is consistent. -/
  status  : statusOk s
  /-- The configuration is one that CREATE could have made. -/
  cascade : s.ovr = false → cascadeOk s.params s.cas
  /-- The factor list is one that FACTORIZE could have left. -/
  factors : s.ovr = false → factorsOk s.fz
  /-- What an overrun left open lies in sample memory. -/
  lost    : ∀ r ∈ s.lost, r.inSpace
  /-- What a race on a finished PROCESS would free lies in sample memory. -/
  windows : ∀ w ∈ s.windows, ∀ r ∈ w.exposed, r.inSpace

/-- No buffer of a PROCESS that is still to run has been written by anyone (the host's duty of 70_reset_and_hazards.md R266). -/
abbrev State.unraced (s : State) : Prop := ∀ w ∈ s.windows, w.ran = false → w.raced = false

/-- A run has ended: the host has nothing left to do and no command is running, or the block is overrun (70 R274). -/
abbrev State.ended (s : State) : Prop := s.host = [] ∧ (s.busy = false ∨ s.ovr = true)

/-- The parts of the sample fit the format (00_scope.md R10). -/
abbrev Sample.fits (F : Fmt) (z : Sample) : Prop := z.re.toNat < 256 ^ partBytes F ∧ z.im.toNat < 256 ^ partBytes F

/-- The last `T` inputs of a stage, newest first: the delay line read backward from the slot before the cursor (10_state.md R48,
42_fir.md R144). -/
def history (T : Nat) (st : Stage) : List Sample :=
  (List.range T).map fun j => st.delay.getD ((st.cursor + T - 1 - j) % T) Sample.zero

/-- The sum of one lane over inputs listed newest first: the input `j` steps old times `c[j]`, each product and each sum
rounded, in increasing `j` from +0.0 (42_fir.md R143). -/
def convolve (F : Fmt) (coef lane : List Word) : Fp :=
  (coef.zip lane).foldl (fun acc cx => fadd F acc (fmul F (unpack F cx.1) (unpack F cx.2))) (.fin false 0)

/-- Equal but for the sign and payload of a NaN (42_fir.md R145 (c), 43_cascade.md R179). -/
abbrev samePart (F : Fmt) (a b : Word) : Prop := a = b ∨ (unpack F a = .nan ∧ unpack F b = .nan)

/-- Equal samples but for NaN bits. -/
abbrev sameSample (F : Fmt) (x y : Sample) : Prop := samePart F x.re y.re ∧ samePart F x.im y.im

/-- Equal stages but for NaN bits in the delay line. -/
abbrev sameStage (F : Fmt) (a b : Stage) : Prop :=
  a.factor = b.factor ∧ a.coef = b.coef ∧ a.cursor = b.cursor ∧ List.Forall₂ (sameSample F) a.delay b.delay

/-- A magnitude with at most `p` significant bits. -/
abbrev representable (p m : Nat) : Prop := ∃ k e, k < 2 ^ p ∧ m = k * 2 ^ e

/-- A value that the format has: a finite one is below the overflow bound and has the format's significant bits. -/
abbrev Fp.ofFormat (F : Fmt) : Fp → Prop
  | .fin _ mag => mag < overflowMag F ∧ representable (precision F) mag
  | _ => True

/-- The distance of `num / den` from `m`, times `den`. -/
def distanceFrom (num den m : Nat) : Nat := (num - m * den) + (m * den - num)

/-- The part of a configuration that only CREATE, an overrun and a reset change (10_state.md R41, 20_memory.md R75). -/
def fixedPart (c : Cascade) : Bool × Nat × List (Nat × List Word) × Nat × Word :=
  (c.cfg, c.ratio, c.stages.map fun st => (st.factor, st.coef), c.scratch, c.achieved)

end Sys2Proof.Machine
end

