-- ==== Sys2Proof/Certificates/Slice0/Obligations.lean ====
section
/-!
DEFINITION. The statements for the provers. Each docstring names the rules of spec/ it formalises or rests on.
-/

open Sys2Proof Sys2Proof.Machine

/-! ### Words, registers and the step -/

/-- 30_encoding.md R81, R82: the four command words, and three that are illegal. -/
def Obligations.CommandWordsDecode : Prop :=
  decode 0x0000000000000001#64 = .ok .create ∧ decode 0x0000000000000002#64 = .ok .process ∧
  decode 0x0000000000000003#64 = .ok .clear ∧ decode 0x0000000000000004#64 = .ok .factorize ∧
  decode 0x0000000000000000#64 = .error .unknownOpcode ∧ decode 0x0000000000000005#64 = .error .unknownOpcode ∧
  decode 0x0000000000000102#64 = .error .reservedBits

/-- 30_encoding.md R80, R81, R83: of all 2^64 words exactly the encodings of the four commands decode, each to its command; a
word with a reserved bit set is refused for that, any other for its OPC. -/
def Obligations.DecodeMeetsEncodeBothWays : Prop :=
  (∀ (w : Word) (i : Instr), decode w = .ok i ↔ w = encode i) ∧
  (∀ w : Word, decode w = .error .reservedBits ↔ 256 ≤ w.toNat) ∧
  (∀ w : Word, decode w = .error .unknownOpcode ↔ w.toNat = 0 ∨ (5 ≤ w.toNat ∧ w.toNat < 256))

/-- 10_state.md R23, R40: the register map from names to offsets and back; every offset without a name is reserved. -/
def Obligations.RegisterMapRoundTrip : Prop :=
  (∀ r : Reg, regAt r.offset = some r) ∧
  (∀ off r, regAt off = some r → r.offset = off) ∧
  (∀ off, (0x088 ≤ off ∧ off < 0x100) ∨ 0x300 ≤ off → regAt off = none)

/-- 30_encoding.md R83: any word that is not one of the four completes with code 1 and changes STATUS and RESULT only. -/
def Obligations.IllegalWordCompletesWithCodeOne : Prop :=
  ∀ s : State, ¬ (1 ≤ s.lcmd.toNat ∧ s.lcmd.toNat ≤ 4) →
    engineStep s =
      .next { s with err := true, errCode := 1#8, result := 0#64, busy := false, done := true }

/-- 44_host_bus.md R209: when the engine is enabled and its turn has come, a step is `exec` of the decoded command; the
engine's turn comes when the host's list says so or is empty (the MODEL's form, log 14). -/
def Obligations.StepRunsDecodedCommand : Prop :=
  ∀ (s : State) (i : Instr), s.busy = true → s.ovr = false → decode s.lcmd = .ok i →
    (s.host = [] → step s = exec i s) ∧
    (∀ rest, s.host = .engine :: rest → step s = exec i { s with host := rest })

/-- 44_host_bus.md R200, R209; 60_exceptions.md R235: an operation of the host is one step of its own; without a command and
without an operation nothing changes (the host's list is the MODEL's form, log 14). -/
def Obligations.HostOperationTakesItsTurn : Prop :=
  (∀ (s : State) op rest, s.host = op :: rest → op ≠ .engine → step s = hostAct op { s with host := rest }) ∧
  (∀ (s : State) rest, s.host = .engine :: rest → s.busy = false → step s = .next { s with host := rest }) ∧
  (∀ s : State, s.host = [] → s.busy = false → s.ovr = false → step s = .next s)

/-! ### FACTORIZE -/

/-- 40_factorizer.md R102: the result of FACTORIZE for every operand, in every state (configured or not), and what FZ_N, FZ[i]
and RESULT then read. Nothing else changes. The word, the corner cases and the example of the rule come first. -/
def Obligations.FactorizeResult : Prop :=
  encode .factorize = 0x0000000000000004#64 ∧ factorize 1 = [] ∧ factorize 2147483647 = [2147483647] ∧
  factorize 36 = [6, 6] ∧
  ∀ s : State,
    (s.larg.a0.toNat = 0 →
      exec .factorize s = .next { s with err := true, errCode := 6#8, result := 0#64, busy := false, done := true }) ∧
    (2 ^ 31 - 1 < s.larg.a0.toNat →
      exec .factorize s = .next { s with err := true, errCode := 4#8, result := 0#64, busy := false, done := true }) ∧
    (1 ≤ s.larg.a0.toNat → s.larg.a0.toNat ≤ 2 ^ 31 - 1 →
      ∃ t, exec .factorize s = .next t ∧
        t = { s with fz := factorize s.larg.a0.toNat, result := BitVec.ofNat 64 (factorize s.larg.a0.toNat).length,
                     err := false, errCode := 0#8, busy := false, done := true } ∧
        (regValue t .fzN).toNat = (factorize s.larg.a0.toNat).length ∧
        (regValue t .result).toNat = (factorize s.larg.a0.toNat).length ∧
        ∀ i : Fin 32, (regValue t (.fz i)).toNat = (factorize s.larg.a0.toNat).getD i.val 0)

/-- 40_factorizer.md R101: the properties (a) to (f) of the factor list. -/
def Obligations.FactorListProperties : Prop :=
  factorize 1 = [] ∧ factorize 49 = [49] ∧ (factorize 1162261467).length = 19 ∧
  ∀ r, 1 ≤ r →
    (factorize r).prod = r ∧ (∀ q ∈ factorize r, 2 ≤ q) ∧
    (∀ q ∈ (factorize r).dropLast, q ∈ [8, 6, 5, 4, 3, 2]) ∧
    (∀ q ∈ (factorize r).getLast?, q ∈ [8, 6, 5, 4, 3, 2] ∨ (¬ 2 ∣ q ∧ ¬ 3 ∣ q ∧ ¬ 5 ∣ q)) ∧
    ((factorize r).filter (· ∈ [8, 6, 5, 4, 3, 2])).Pairwise (· ≥ ·) ∧
    (factorize r).count 4 ≤ 1 ∧ (factorize r).count 2 ≤ 1 ∧ ¬ (2 ∈ factorize r ∧ 3 ∈ factorize r) ∧
    (r ≤ 2 ^ 31 - 1 → (factorize r).length ≤ 19)

/-! ### CREATE -/

/-- 43_cascade.md R161, R165, R166; 40 R103; 41 R129: when the rates are positive and finite, the ratio is in range, the scratch
size fits and every factor's design succeeds, CREATE commits exactly this configuration with zero history, and changes
nothing else. -/
def Obligations.CreateConfigures : Prop :=
  ∀ (s : State) (r : Nat),
    0 < s.larg.a0.toNat → s.larg.a0.toNat < 0x7FF0000000000000 →
    0 < s.larg.a1.toNat → s.larg.a1.toNat < 0x7FF0000000000000 →
    ratioOf s.params.ratioTies (unpack .binary64 s.larg.a0) (unpack .binary64 s.larg.a1) = some r →
    max s.larg.a2.toInt (s.params.minScratch : Int) ≤ (s.params.scratchCap : Int) →
    (∀ f ∈ factorize r, design Config.sin Config.cos s.params.sampleFmt f (taps s.params) ≠ none) →
    ∃ c : Cascade,
      exec .create s =
        .next { s with cas := c, result := BitVec.ofNat 64 (factorize r).length,
                       err := false, errCode := 0#8, busy := false, done := true } ∧
      c.cfg = true ∧ c.ratio = r ∧ c.stages.map Stage.factor = factorize r ∧
      (∀ st ∈ c.stages,
        design Config.sin Config.cos s.params.sampleFmt st.factor (taps s.params) = some st.coef ∧
        st.delay = List.replicate (taps s.params) Sample.zero ∧ st.cursor = 0) ∧
      (c.scratch : Int) = max s.larg.a2.toInt (s.params.minScratch : Int) ∧
      unpack .binary64 c.achieved = fdiv .binary64 (unpack .binary64 s.larg.a0) (ofRat .binary64 false r 1)

/-- 43_cascade.md R163: a rate whose binary64 pattern is not that of a positive finite number (a zero of either sign, a negative
number, a NaN, an infinity) ends CREATE with code 3 and an unconfigured block; two positive finite rates never do, and PROCESS
never ends with that code. -/
def Obligations.CreateRejectsRates : Prop :=
  ∀ s : State,
    (¬ (0 < s.larg.a0.toNat ∧ s.larg.a0.toNat < 0x7FF0000000000000) ∨
        ¬ (0 < s.larg.a1.toNat ∧ s.larg.a1.toNat < 0x7FF0000000000000) →
      exec .create s =
        .next { s with cas := Cascade.unconfigured, err := true, errCode := 3#8, result := 0#64,
                       busy := false, done := true }) ∧
    (0 < s.larg.a0.toNat → s.larg.a0.toNat < 0x7FF0000000000000 →
      0 < s.larg.a1.toNat → s.larg.a1.toNat < 0x7FF0000000000000 →
      ∀ t, exec .create s = .next t → t.errCode ≠ 3#8) ∧
    (∀ t, exec .process s = .next t → t.errCode ≠ 3#8)

/-- 43_cascade.md R162: the quotient of the rates, rounded to the nearest integer with ties by RATIO_TIES, clamped to at least
1; out of range when the quotient is +inf or the ratio above 2^31 - 1. CREATE on positive finite rates takes exactly that ratio,
or ends with code 4 exactly when there is none. -/
def Obligations.RatioRoundsToNearest : Prop :=
  (∀ s t : State,
    0 < s.larg.a0.toNat → s.larg.a0.toNat < 0x7FF0000000000000 →
    0 < s.larg.a1.toNat → s.larg.a1.toNat < 0x7FF0000000000000 →
    exec .create s = .next t →
    let ratio := ratioOf s.params.ratioTies (unpack .binary64 s.larg.a0) (unpack .binary64 s.larg.a1)
    (t.errCode = 4#8 ↔ ratio = none) ∧ (t.err = false → ratio = some t.cas.ratio)) ∧
  ∀ (ties : Ties) (inR outR : Fp),
    (fdiv .binary64 inR outR = .inf false → ratioOf ties inR outR = none) ∧
    ∀ mag, fdiv .binary64 inR outR = .fin false mag →
      ∃ k, 2 * mag ≤ (2 * k + 1) * 2 ^ 1074 ∧ 2 * k * 2 ^ 1074 ≤ 2 * mag + 2 ^ 1074 ∧
        (ties = .even → (2 * mag = (2 * k + 1) * 2 ^ 1074 ∨ 2 * k * 2 ^ 1074 = 2 * mag + 2 ^ 1074) → k % 2 = 0) ∧
        (ties = .away → 2 * mag ≠ (2 * k + 1) * 2 ^ 1074) ∧
        ratioOf ties inR outR = (if 2 ^ 31 - 1 < max k 1 then none else some (max k 1))

/-- 43_cascade.md R164: the scratch size of a successful CREATE is maxInputLength clamped up to MIN_SCRATCH; one above
SCRATCH_CAP ends CREATE with code 5, when the rates and the ratio have passed. -/
def Obligations.ScratchSizeClampsUp : Prop :=
  ∀ s : State,
    (∀ t, exec .create s = .next t → t.err = false →
      (t.cas.scratch : Int) = max s.larg.a2.toInt (s.params.minScratch : Int) ∧
      t.cas.scratch ≤ s.params.scratchCap) ∧
    (0 < s.larg.a0.toNat → s.larg.a0.toNat < 0x7FF0000000000000 →
      0 < s.larg.a1.toNat → s.larg.a1.toNat < 0x7FF0000000000000 →
      ratioOf s.params.ratioTies (unpack .binary64 s.larg.a0) (unpack .binary64 s.larg.a1) ≠ none →
      (s.params.scratchCap : Int) < max s.larg.a2.toInt (s.params.minScratch : Int) →
      exec .create s =
        .next { s with cas := Cascade.unconfigured, err := true, errCode := 5#8, result := 0#64,
                       busy := false, done := true })

/-- 60_exceptions.md R227, 43_cascade.md R161, R165: with rates that pass, CREATE reports a ratio out of range exactly when there
is no ratio, a scratch size too large exactly when the ratio has passed, a DESIGN_FAULT exactly when both have passed and a
factor's design fails, and no error otherwise; an error leaves the block unconfigured and changes STATUS and RESULT besides. -/
def Obligations.CreateReportsFirstError : Prop :=
  ∀ s : State,
    0 < s.larg.a0.toNat → s.larg.a0.toNat < 0x7FF0000000000000 →
    0 < s.larg.a1.toNat → s.larg.a1.toNat < 0x7FF0000000000000 →
    let ratio := ratioOf s.params.ratioTies (unpack .binary64 s.larg.a0) (unpack .binary64 s.larg.a1)
    let fits := max s.larg.a2.toInt (s.params.minScratch : Int) ≤ (s.params.scratchCap : Int)
    let designed := fun f => design Config.sin Config.cos s.params.sampleFmt f (taps s.params) ≠ none
    ∃ t, exec .create s = .next t ∧ t.busy = false ∧ t.done = true ∧
      (t.errCode = 4#8 ↔ ratio = none) ∧
      (t.errCode = 5#8 ↔ ratio ≠ none ∧ ¬ fits) ∧
      (t.errCode = 10#8 ↔ ∃ r, ratio = some r ∧ fits ∧ ∃ f ∈ factorize r, ¬ designed f) ∧
      (t.errCode = 0#8 ↔ ∃ r, ratio = some r ∧ fits ∧ ∀ f ∈ factorize r, designed f) ∧
      (t.err = false ↔ t.errCode = 0#8) ∧
      (t.err = true →
        t = { s with cas := Cascade.unconfigured, err := true, errCode := t.errCode, result := 0#64,
                     busy := false, done := true })

/-- 43_cascade.md R179: CREATE with equal operands gives an equal configuration, bit for bit, whatever the block held before. -/
def Obligations.CreateDeterministic : Prop :=
  ∀ s s' t t' : State, s.params = s'.params →
    s.larg.a0 = s'.larg.a0 → s.larg.a1 = s'.larg.a1 → s.larg.a2 = s'.larg.a2 →
    exec .create s = .next t → exec .create s' = .next t' →
    t.cas = t'.cas ∧ t.result = t'.result ∧ t.errCode = t'.errCode

/-- 41_filter_design.md R121, R126, R128 (a), (c): a designed set has `T` taps and equals its own mirror image, and every tap is
a finite number of the sample format. -/
def Obligations.DesignIsSymmetric : Prop :=
  ∀ (p : Params) (sin cos : Word → Word) (f : Nat) (c : List Word),
    design sin cos p.sampleFmt f (taps p) = some c →
    taps p % 2 = 1 ∧ c.length = taps p ∧ c.reverse = c ∧
    ∀ w ∈ c, ∃ neg mag, unpack p.sampleFmt w = .fin neg mag

/-- 41_filter_design.md R129, R125: with one tap the designed set is [1.0], whatever SIN and COS are. -/
def Obligations.OneTapIsUnity : Prop :=
  ∀ (sin cos : Word → Word) (f : Nat), 1 ≤ f →
    design sin cos .binary32 f 1 = some [0x3F800000#64] ∧
    design sin cos .binary64 f 1 = some [0x3FF0000000000000#64]

/-! ### PROCESS -/

/-- 43_cascade.md R167, R175; 60_exceptions.md R223, R227: the errors of PROCESS in the order of their checks. None changes
anything but STATUS and RESULT (and the MODEL's own record of handed-over buffers, log 10). -/
def Obligations.ProcessRejectsInOrder : Prop :=
  ∀ s : State, s.unraced →
    let fails := fun code : BitVec 8 => ∃ ws, exec .process s =
      .next { s with windows := ws, err := true, errCode := code, result := 0#64, busy := false, done := true }
    let inB := s.larg.a0.toNat
    let n := s.larg.a1.toNat
    let outB := s.larg.a2.toNat
    let produced := producedLen s.cas n s.larg.a3.toNat
    let half := partBytes s.params.sampleFmt
    (s.cas.cfg = false → fails 2#8) ∧
    (s.cas.cfg = true → 0 < n → inB % half ≠ 0 → fails 7#8) ∧
    (s.cas.cfg = true → 0 < n → inB % half = 0 → inRange s.params inB n = false → fails 8#8) ∧
    (s.cas.cfg = true → (n = 0 ∨ (inB % half = 0 ∧ inRange s.params inB n = true)) →
      0 < produced → outB % half ≠ 0 → fails 7#8) ∧
    (s.cas.cfg = true → (n = 0 ∨ (inB % half = 0 ∧ inRange s.params inB n = true)) →
      0 < produced → outB % half = 0 → inRange s.params outB produced = false → fails 8#8)

/-- 43_cascade.md R167, R171, R172; 20_memory.md R66, R67, R71: a PROCESS whose buffers pass the checks completes. Its outputs
are computed from sample memory as it was before any write; exactly the output buffer changes; delay lines and cursors
advance; the rest of the configuration and all other state stay. -/
def Obligations.ProcessCompletes : Prop :=
  ∀ s : State, s.Inv → s.unraced → s.ovr = false → s.cas.cfg = true →
    let F := s.params.sampleFmt
    let inB := s.larg.a0.toNat
    let n := s.larg.a1.toNat
    let outB := s.larg.a2.toNat
    let produced := producedLen s.cas n s.larg.a3.toNat
    let run := runStages F (taps s.params) s.cas.scratch s.draws s.cas.stages (readSamples F s.mem inB n)
    (n = 0 ∨ (inB % partBytes F = 0 ∧ inRange s.params inB n = true)) →
    (produced = 0 ∨ (outB % partBytes F = 0 ∧ inRange s.params outB produced = true)) →
    ∃ m ws,
      exec .process s =
        .next { s with mem := m, windows := ws, cas := { s.cas with stages := run.2.1 }, draws := run.2.2,
                       result := BitVec.ofNat 64 produced, err := false, errCode := 0#8, busy := false, done := true } ∧
      (∀ a, a < outB ∨ outB + produced * sampleBytes F ≤ a → loadByte m a = loadByte s.mem a) ∧
      (∀ j, j < produced → run.1[j]? = some (readSample F m (outB + j * sampleBytes F))) ∧
      run.2.1.map (fun st => (st.factor, st.coef)) = s.cas.stages.map (fun st => (st.factor, st.coef))

/-- 43_cascade.md R168, R169, R171, 60_exceptions.md R228, 20_memory.md R67: the chain of stages ends with exactly the kept length
of R168, each stage cut at the scratch size, and the produced length is that length cut at the output capacity; where no stage
is truncated it is `ceil_div(n, R)` cut at the capacity; it never exceeds the capacity. -/
def Obligations.ProducedLengthMatchesRatio : Prop :=
  ∀ (p : Params) (c : Cascade) (maxOut : Nat), c.cfg = true → cascadeOk p c →
    (∀ (F : Fmt) (T dr : Nat) (xs : List Sample),
      let out := (runStages F T c.scratch dr c.stages xs).1
      out.length = (c.stages.map Stage.factor).foldl (fun len f => min (ceilDiv len f) c.scratch) xs.length ∧
      (out.take maxOut).length = producedLen c xs.length maxOut) ∧
    ∀ n, producedLen c n maxOut ≤ maxOut ∧
      ((∀ f ∈ (c.stages.map Stage.factor).head?, ceilDiv n f ≤ c.scratch) →
        producedLen c n maxOut = min (ceilDiv n c.ratio) maxOut)

/-- 43_cascade.md R173: with no stage PROCESS copies the first min(n, maxOut) samples bit for bit, from the memory as it was,
runs no FIR step, and is not limited by the scratch size. -/
def Obligations.PassThroughCopiesBits : Prop :=
  ∀ s : State, s.mem.wf = true → s.unraced → s.cas.cfg = true → s.cas.stages = [] →
    let inB := s.larg.a0.toNat
    let n := s.larg.a1.toNat
    let outB := s.larg.a2.toNat
    let produced := min n s.larg.a3.toNat
    let half := partBytes s.params.sampleFmt
    (n = 0 ∨ (inB % half = 0 ∧ inRange s.params inB n = true)) →
    (produced = 0 ∨ (outB % half = 0 ∧ inRange s.params outB produced = true)) →
    ∃ t, exec .process s = .next t ∧ t.err = false ∧ t.result.toNat = produced ∧ t.cas = s.cas ∧ t.draws = s.draws ∧
      (∀ k, k < produced * sampleBytes s.params.sampleFmt → loadByte t.mem (outB + k) = loadByte s.mem (inB + k)) ∧
      (∀ a, a < outB ∨ outB + produced * sampleBytes s.params.sampleFmt ≤ a → loadByte t.mem a = loadByte s.mem a)

/-- 43_cascade.md R174: with `n = 0` PROCESS sets RESULT to 0 and changes nothing but RESULT and STATUS, whatever the addresses
are; unconfigured it still fails with code 2 (the record of handed-over buffers is the MODEL's own, log 10). -/
def Obligations.EmptyInputChangesNothing : Prop :=
  ∀ s : State, s.unraced → s.larg.a1.toNat = 0 →
    (s.cas.cfg = true → ∃ ws, exec .process s =
      .next { s with windows := ws, result := 0#64, err := false, errCode := 0#8, busy := false, done := true }) ∧
    (s.cas.cfg = false → ∃ ws, exec .process s =
      .next { s with windows := ws, result := 0#64, err := true, errCode := 2#8, busy := false, done := true })

/-- 43_cascade.md R169, R170: of the outputs that a stage computes for its `L` inputs, those with an index 0, f, 2f, ... are
kept, in order, `ceil_div(L, f)` of them. -/
def Obligations.KeptOutputsAreMultiples : Prop :=
  ∀ (F : Fmt) (T dr : Nat) (st : Stage) (xs : List Sample), 0 < st.factor →
    let kept := (runStage F T dr 0 st xs).1
    let all := (runStage F T dr 0 { st with factor := 1 } xs).1
    all.length = xs.length ∧ kept.length = ceilDiv xs.length st.factor ∧
    ∀ j, j < kept.length → kept[j]? = all[j * st.factor]?

/-- 42_fir.md R144: the cursor stays in `[0, T)` and comes back after `T` steps, and the delay line holds exactly the last `T`
inputs, across everything the stage has received. -/
def Obligations.DelayLineHoldsLastInputs : Prop :=
  ∀ (F : Fmt) (T dr i : Nat) (st : Stage) (xs : List Sample), st.delay.length = T → st.cursor < T →
    let st' := (runStage F T dr i st xs).2
    st'.cursor < T ∧ st'.cursor = (st.cursor + xs.length) % T ∧ (xs.length = T → st'.cursor = st.cursor) ∧
    st'.delay.length = T ∧ history T st' = (xs.reverse ++ history T st).take T

/-- 42_fir.md R141, R143: the output of a step is, lane by lane, the sum of `c[j]` times the input `j` steps old, in increasing
`j` from +0.0, each product and each sum rounded; a NaN takes a free pattern (R145 (c)). -/
def Obligations.FirStepIsConvolution : Prop :=
  ∀ (F : Fmt) (T dr : Nat) (st : Stage) (x : Sample),
    st.delay.length = T → st.cursor < T → st.coef.length = T →
    let line := (x :: history T st).take T
    (firStep F T dr st x).1 =
      { re := pack F (Config.freeWord dr) (convolve F st.coef (line.map Sample.re))
        im := pack F (Config.freeWord (dr + 1)) (convolve F st.coef (line.map Sample.im)) }

/-- 10_state.md R48: outputs depend on the last `T` samples, oldest to newest, and not on the absolute cursor. -/
def Obligations.CursorUnobservable : Prop :=
  ∀ (F : Fmt) (T dr i : Nat) (a b : Stage) (xs : List Sample),
    a.delay.length = T → b.delay.length = T → a.cursor < T → b.cursor < T → a.coef.length = T →
    a.coef = b.coef → a.factor = b.factor → history T a = history T b →
    (runStage F T dr i a xs).1 = (runStage F T dr i b xs).1 ∧
    history T (runStage F T dr i a xs).2 = history T (runStage F T dr i b xs).2

/-- 42_fir.md R142: no value crosses from one lane to the other, and both lanes take the same coefficients: what the imaginary
lane makes of an input is what the real lane makes of it, up to NaN bits (R145 (c)). -/
def Obligations.LanesIndependent : Prop :=
  ∀ (F : Fmt) (T dr i : Nat) (a b : Stage) (xs ys : List Sample),
    a.coef = b.coef → a.factor = b.factor → a.cursor = b.cursor →
    (a.delay.map Sample.re = b.delay.map Sample.re → xs.map Sample.re = ys.map Sample.re →
      (runStage F T dr i a xs).1.map Sample.re = (runStage F T dr i b ys).1.map Sample.re) ∧
    (a.delay.map Sample.im = b.delay.map Sample.im → xs.map Sample.im = ys.map Sample.im →
      (runStage F T dr i a xs).1.map Sample.im = (runStage F T dr i b ys).1.map Sample.im) ∧
    (a.delay.map Sample.re = b.delay.map Sample.im → xs.map Sample.re = ys.map Sample.im →
      List.Forall₂ (samePart F) ((runStage F T dr i a xs).1.map Sample.re) ((runStage F T dr i b ys).1.map Sample.im))

/-- 42_fir.md R145 (f): no output part is ever -0.0. -/
def Obligations.OutputsNeverNegativeZero : Prop :=
  ∀ (T dr : Nat) (st : Stage) (x : Sample),
    (firStep .binary32 T dr st x).1.re ≠ 0x80000000#64 ∧ (firStep .binary32 T dr st x).1.im ≠ 0x80000000#64 ∧
    (firStep .binary64 T dr st x).1.re ≠ 0x8000000000000000#64 ∧
    (firStep .binary64 T dr st x).1.im ≠ 0x8000000000000000#64

/-- 42_fir.md R145 (a): while a NaN stays in one lane of the line, that lane's output is a NaN, whatever its coefficient. -/
def Obligations.NanSpreadsWhileItStays : Prop :=
  ∀ (F : Fmt) (T dr j : Nat) (st : Stage) (x z : Sample),
    st.delay.length = T → st.cursor < T → st.coef.length = T → j < T → (x :: history T st)[j]? = some z →
    (unpack F z.re = .nan → unpack F (firStep F T dr st x).1.re = .nan) ∧
    (unpack F z.im = .nan → unpack F (firStep F T dr st x).1.im = .nan)

/-- 70_reset_and_hazards.md R270, 43_cascade.md R170, R176: when a stream is split at a multiple of the overall ratio and nothing
is truncated, the kept samples of the two parts, the second continuing from the state the first left, are those of the whole,
and the filter state ends equal, both up to NaN bits (R179). -/
def Obligations.StreamContinuity : Prop :=
  ∀ (F : Fmt) (T S dr dr' dr'' : Nat) (stages : List Stage) (xs ys : List Sample),
    (∀ st ∈ stages, 0 < st.factor) →
    (stages.map Stage.factor).prod ∣ xs.length →
    (∀ f ∈ (stages.map Stage.factor).head?, ceilDiv (xs.length + ys.length) f ≤ S) →
    let whole := runStages F T S dr stages (xs ++ ys)
    let first := runStages F T S dr' stages xs
    let second := runStages F T S dr'' first.2.1 ys
    List.Forall₂ (sameSample F) whole.1 (first.1 ++ second.1) ∧
    List.Forall₂ (sameStage F) whole.2.1 second.2.1

/-! ### CLEAR -/

/-- 43_cascade.md R178: CLEAR zeroes every delay line and cursor and sets RESULT to 0, keeping the configuration; unconfigured it
fails with code 2; and whatever a history of PROCESS commands has made of the filter state, it brings back the state right after
the CREATE. -/
def Obligations.ClearZeroesHistory : Prop :=
  encode .clear = 0x0000000000000003#64 ∧
  (∀ s : State, s.cas.cfg = true →
    exec .clear s =
      .next { s with
        cas := { s.cas with
          stages := s.cas.stages.map fun st =>
            { st with delay := List.replicate (taps s.params) Sample.zero, cursor := 0 } }
        result := 0#64, err := false, errCode := 0#8, busy := false, done := true }) ∧
  (∀ s : State, s.cas.cfg = false →
    exec .clear s = .next { s with result := 0#64, err := true, errCode := 2#8, busy := false, done := true }) ∧
  (∀ s t u v : State, exec .create s = .next t → t.err = false →
    u.params = s.params → fixedPart u.cas = fixedPart t.cas → exec .clear u = .next v → v.cas = t.cas)

/-! ### Errors, completion and frames of the engine step -/

/-- 60_exceptions.md R223: what an error changes, for every command word: STATUS and RESULT, and for a CREATE the
configuration, which then reads 0 everywhere. (The record of handed-over buffers is the MODEL's own, log 10.) -/
def Obligations.ErrorEffects : Prop :=
  ∀ s t : State, s.unraced → engineStep s = .next t → t.err = true →
    (∃ e ws, t =
      { s with err := true, errCode := errCodeOf e, busy := false, done := true, result := 0#64, windows := ws,
               cas := if decode s.lcmd = .ok .create then Cascade.unconfigured else s.cas }) ∧
    t.errCode ≠ 0#8 ∧
    (decode s.lcmd = .ok .create →
      (∀ r ∈ [Reg.ratio, Reg.nstages, Reg.scratch, Reg.achieved, Reg.coefData], regValue t r = 0#64) ∧
      ∀ i, regValue t (.factor i) = 0#64)

/-- 44_host_bus.md R209, R210; 60_exceptions.md R221: every engine step completes its command, with a code of R221 exactly when
it ends with an error, and then RESULT is 0. -/
def Obligations.EngineStepCompletes : Prop :=
  ∀ s : State, ∃ t, engineStep s = .next t ∧ t.busy = false ∧ t.done = true ∧ t.ovr = s.ovr ∧
    (t.err = false ↔ t.errCode = 0#8) ∧
    (t.err = true → t.result = 0#64 ∧ t.errCode ∈ [1#8, 2#8, 3#8, 4#8, 5#8, 6#8, 7#8, 8#8, 10#8])

/-- The frame of the four commands and of an illegal word (10_state.md R21, R28, R41, R42, R44; 20_memory.md R60; 40 R102;
43 R165, R178): what an engine step leaves unchanged. -/
def Obligations.EngineStepFrame : Prop :=
  ∀ s t : State, engineStep s = .next t →
    t.params = s.params ∧ t.cmd = s.cmd ∧ t.ie = s.ie ∧ t.args = s.args ∧ t.coefTap = s.coefTap ∧
    t.coefStage = s.coefStage ∧ t.larg = s.larg ∧ t.lcmd = s.lcmd ∧ t.host = s.host ∧ t.replies = s.replies ∧
    t.lost = s.lost ∧ t.ovr = s.ovr ∧
    (decode s.lcmd ≠ .ok .process → t.mem = s.mem ∧ t.draws = s.draws ∧ t.windows = s.windows) ∧
    (decode s.lcmd ≠ .ok .factorize → t.fz = s.fz) ∧
    (decode s.lcmd ≠ .ok .create → fixedPart t.cas = fixedPart s.cas) ∧
    (decode s.lcmd ≠ .ok .create → decode s.lcmd ≠ .ok .process → decode s.lcmd ≠ .ok .clear → t.cas = s.cas)

/-- 44_host_bus.md R201, 70_reset_and_hazards.md R268: a command runs on its latched operands; writes to ARG0 to ARG3, CTRL and
COEF_SEL after its start change nothing of what it does. -/
def Obligations.LateWritesDoNotReachCommand : Prop :=
  ∀ (s : State) (a : Args) (ie : Bool) (tap : BitVec 16) (stage : BitVec 5),
    engineStep { s with args := a, ie := ie, coefTap := tap, coefStage := stage } =
      match engineStep s with
      | .next t    => .next { t with args := a, ie := ie, coefTap := tap, coefStage := stage }
      | .fault r   => .fault r
      | .refused r => .refused r

/-! ### Register transactions -/

/-- 44_host_bus.md R201: the three outcomes of a CMD write; the command runs on the latched operands, whatever is written to ARG0 to
ARG3 after it. The record of handed-over buffers is the MODEL's own form (log 10): the start of a PROCESS opens a window on its
input range `[ARG0, ARG0 + ARG1·SZ)` and output range `[ARG2, ARG2 + ARG3·SZ)`, any other word opens none, and an earlier window
is marked as one whose DONE the host has missed. What an overrun does to internal state is OverrunFreesState. -/
def Obligations.CommandWriteStartsOrOverruns : Prop :=
  ∀ (s : State) (v : Word),
    let t := writeReg (some .cmd) v s
    t.cmd = v ∧
    (s.ovr = true → t = { s with cmd := v }) ∧
    (s.ovr = false → s.busy = true →
      t.ovr = true ∧ t.busy = true ∧ t.done = s.done ∧ t.err = s.err ∧ t.errCode = s.errCode ∧ t.ie = s.ie ∧ t.args = s.args ∧
      t.coefTap = s.coefTap ∧ t.coefStage = s.coefStage ∧ t.params = s.params ∧ t.windows = s.windows ∧ t.host = s.host ∧
      t.replies = s.replies) ∧
    (s.ovr = false → s.busy = false →
      let bytes := fun n : Word => n.toNat * sampleBytes s.params.sampleFmt
      let opened : Window :=
        { input := ⟨s.args.a0.toNat, bytes s.args.a1⟩, output := ⟨s.args.a2.toNat, bytes s.args.a3⟩
          exposed := none, ran := false, raced := false, missed := false }
      t = { s with cmd := v, lcmd := v, larg := s.args, done := false, err := false, errCode := 0#8, busy := true,
                   windows := (if v = encode .process then [opened] else []) ++
                     s.windows.map fun w => { w with missed := true } }) ∧
    (∀ (a : Args) (u : State), engineStep t = .next u → engineStep { t with args := a } = .next { u with args := a })

/-- 44_host_bus.md R202: writing 1 to STATUS.DONE clears it; no other bit of STATUS can be written. -/
def Obligations.StatusWriteClearsDoneOnly : Prop :=
  ∀ (s : State) (v : Word),
    writeReg (some .status) v s = (if v.getLsbD 1 = true then { s with done := false } else s) ∧
    statusWord (writeReg (some .status) v s) =
      (if v.getLsbD 1 = true then statusWord s &&& 0xFFFFFFFFFFFFFFFD#64 else statusWord s)

/-- 44_host_bus.md R203, R204, R205: what a write to CTRL, an ARG register or COEF_SEL changes, and what then reads back. -/
def Obligations.ControlOperandSelectorWrites : Prop :=
  ∀ (s : State) (v : Word),
    writeReg (some .ctrl) v s = { s with ie := v.getLsbD 0 } ∧
    regValue (writeReg (some .ctrl) v s) .ctrl = v &&& 1#64 ∧
    (∀ i j : Fin 4,
      regValue (writeReg (some (.arg i)) v s) (.arg j) = (if i = j then v else regValue s (.arg j))) ∧
    (∀ i : Fin 4, { writeReg (some (.arg i)) v s with args := s.args } = s) ∧
    writeReg (some .coefSel) v s = { s with coefTap := v.extractLsb' 0 16, coefStage := v.extractLsb' 16 5 } ∧
    regValue (writeReg (some .coefSel) v s) .coefSel = v &&& 0x1FFFFF#64

/-- 44_host_bus.md R206: writes to read-only registers and reserved offsets have no effect on any state. -/
def Obligations.ReadOnlyWritesIgnored : Prop :=
  ∀ (s : State) (v : Word) (off : Nat),
    off ∉ [0x008, 0x010, 0x018, 0x020, 0x028, 0x030, 0x038, 0x070] → writeReg (regAt off) v s = s

/-- 44_host_bus.md R207: a read returns the register's value, 0 at a reserved offset, and changes nothing else of the block, but
that a result register read while BUSY = 1 returns a free value. What the host has read, the draw counter and the record of
handed-over buffers are the MODEL's own (log 6, log 10, log 23): a read of STATUS that shows DONE = 1 drops exactly the windows
of commands that have run and whose DONE the host has not missed, and every other read keeps them all. -/
def Obligations.RegisterReadsHaveNoSideEffect : Prop :=
  ∀ (s : State) (r : Reg),
    (s.busy = false ∨ isResultReg r = false → ¬ (r = .status ∧ s.done = true) →
      readReg (some r) s = { s with replies := .reg (regValue s r) :: s.replies }) ∧
    (s.done = true →
      readReg (some .status) s = { s with
        replies := .reg (regValue s .status) :: s.replies
        windows := s.windows.filter fun w => !(w.ran && !w.missed) }) ∧
    (s.busy = true → isResultReg r = true →
      readReg (some r) s = { s with replies := .reg (Config.freeWord s.draws) :: s.replies, draws := s.draws + 1 }) ∧
    (isResultReg r = true ↔
      r ∈ [Reg.result, Reg.ratio, Reg.nstages, Reg.scratch, Reg.achieved, Reg.coefData, Reg.fzN] ∨
      (∃ i, r = .factor i) ∨ ∃ i, r = .fz i) ∧
    readReg none s = { s with replies := .reg 0#64 :: s.replies }

/-- 10_state.md R26, R27, R35: the bits of STATUS, CTRL and COEF_SEL. -/
def Obligations.StatusWordLayout : Prop :=
  ∀ s : State,
    (statusWord s).getLsbD 0 = s.busy ∧ (statusWord s).getLsbD 1 = s.done ∧ (statusWord s).getLsbD 2 = s.err ∧
    (statusWord s).getLsbD 3 = s.cas.cfg ∧ (statusWord s).getLsbD 4 = s.ovr ∧
    (statusWord s).extractLsb' 5 3 = 0#3 ∧ (statusWord s).extractLsb' 8 8 = s.errCode ∧
    (statusWord s).extractLsb' 16 48 = 0#48 ∧
    (ctrlWord s).getLsbD 0 = s.ie ∧ (ctrlWord s).extractLsb' 1 63 = 0#63 ∧
    (coefSelWord s).extractLsb' 0 16 = s.coefTap ∧ (coefSelWord s).extractLsb' 16 5 = s.coefStage ∧
    (coefSelWord s).extractLsb' 21 43 = 0#43

/-- 10_state.md R24, R30 to R34, R36, R38: ID and TAPS always read their constants; an unconfigured block reads 0 in every
register of its configuration, a configured one reads its ratio, stage count, scratch size and factors. -/
def Obligations.ConfigurationRegisters : Prop :=
  ∀ s : State,
    regValue s .id = 0x4644430000000001#64 ∧ (regValue s .taps).toNat = taps s.params ∧
    (s.cas.cfg = false →
      (∀ r ∈ [Reg.ratio, Reg.nstages, Reg.scratch, Reg.achieved, Reg.coefData], regValue s r = 0#64) ∧
      ∀ i, regValue s (.factor i) = 0#64) ∧
    (s.cas.cfg = true → cascadeOk s.params s.cas →
      (regValue s .ratio).toNat = s.cas.ratio ∧ (regValue s .nstages).toNat = s.cas.stages.length ∧
      (regValue s .scratch).toNat = s.cas.scratch ∧ regValue s .achieved = s.cas.achieved ∧
      ∀ i : Fin 32, (regValue s (.factor i)).toNat = (s.cas.stages.map Stage.factor).getD i.val 0)

/-- 10_state.md R36: COEF_DATA reads the selected coefficient widened to binary64 without rounding, and 0 when the block is
unconfigured or the selection out of range. -/
def Obligations.CoefficientReadIsExact : Prop :=
  ∀ s : State,
    (s.cas.cfg = false ∨ taps s.params ≤ s.coefTap.toNat ∨ s.cas.stages.length ≤ s.coefStage.toNat →
      regValue s .coefData = 0#64) ∧
    (∀ st c, s.cas.cfg = true → s.cas.stages[s.coefStage.toNat]? = some st → s.coefTap.toNat < taps s.params →
      st.coef[s.coefTap.toNat]? = some c →
      (s.params.sampleFmt = .binary64 → regValue s .coefData = c) ∧
      (s.params.sampleFmt = .binary32 →
        unpack .binary64 (regValue s .coefData) = fcvt .binary32 .binary64 (unpack .binary32 c) ∧
        ∀ neg mag, unpack .binary32 c = .fin neg mag →
          unpack .binary64 (regValue s .coefData) = .fin neg (mag * 2 ^ 925)))

/-- 44_host_bus.md R208: an access that is not 64 bits wide, not at a multiple of 8 or outside the register space is refused; any
other is carried out. -/
def Obligations.UnsupportedAccessRefused : Prop :=
  ∀ (s : State) (a : BusAccess) (v : Word) (rest : List HostOp),
    let outside := a.width ≠ 8 ∨ a.addr < s.params.regBase ∨ (a.addr - s.params.regBase) % 8 ≠ 0 ∨
      s.params.regBase + 4096 ≤ a.addr
    (s.host = .regRead a :: rest →
      (outside → step s = .refused .unsupportedAccess) ∧
      (¬ outside → step s = .next (readReg (regAt (a.addr - s.params.regBase)) { s with host := rest }))) ∧
    (s.host = .regWrite a v :: rest →
      (outside → step s = .refused .unsupportedAccess) ∧
      (¬ outside → step s = .next (writeReg (regAt (a.addr - s.params.regBase)) v { s with host := rest })))

/-- 10_state.md R46, 60_exceptions.md R226: IRQ follows DONE and IE: it rises at every completion when enabled, and falls at the
acknowledgement, at the next start and at a reset; an overrun does not raise it. -/
def Obligations.InterruptFollowsCompletion : Prop :=
  (∀ s t : State, engineStep s = .next t → irq t = s.ie) ∧
  (∀ s : State, irq (writeReg (some .status) 2#64 s) = false) ∧
  (∀ (s : State) (v : Word), s.ovr = false → s.busy = false → irq (writeReg (some .cmd) v s) = false) ∧
  (∀ s : State, irq (resetEvent s) = false) ∧
  (∀ (s : State) (v : Word), s.busy = true → s.done = false → irq (writeReg (some .cmd) v s) = false) ∧
  (∀ s : State, irq s = (s.done && s.ie))

/-! ### Overrun, race and reset -/

/-- 60_exceptions.md R225 (a), (c), (d); 70_reset_and_hazards.md R274; 44_host_bus.md R207 (c): a CMD write while BUSY = 1 keeps BUSY
and DONE and the registers that still read exactly (CTRL, ARG0 to ARG3, COEF_SEL), and makes the bytes that the running command
may write free, and all filter state, configuration, results and latched values. (That a PROCESS which fails its checks may
write nothing is the MODEL's reading, log 8.) -/
def Obligations.OverrunFreesState : Prop :=
  ∀ (s : State) (v : Word), s.mem.wf = true → s.busy = true → s.ovr = false →
    let t := writeReg (some .cmd) v s
    t.ovr = true ∧ t.busy = true ∧ t.done = s.done ∧ t.err = s.err ∧ t.errCode = s.errCode ∧ t.cmd = v ∧ t.ie = s.ie ∧
    t.args = s.args ∧ t.coefTap = s.coefTap ∧ t.coefStage = s.coefStage ∧ t.params = s.params ∧
    (∃ d, t.cas = Config.freeCascade d ∧ t.fz = Config.freeFactors d ∧ t.result = Config.freeWord d ∧
      t.lcmd = Config.freeWord (d + 1) ∧
      t.larg = ⟨Config.freeWord (d + 2), Config.freeWord (d + 3), Config.freeWord (d + 4), Config.freeWord (d + 5)⟩) ∧
    (∀ a, (∀ r ∈ inFlightRange s, a < r.base ∨ r.base + r.len ≤ a) → loadByte t.mem a = loadByte s.mem a) ∧
    (∀ r ∈ inFlightRange s, r.inSpace ∧
      ∀ k, k < r.len → loadByte t.mem (r.base + k) = Config.freeByte (s.draws + k))

/-- 60_exceptions.md R225 (a), (b), (e): in every run from an overrun in which no reset comes, the command never completes, DONE
stays 0, the engine has no step, and no CMD write starts a command. -/
def Obligations.OverrunStuckUntilReset : Prop :=
  ∀ (k : Nat) (s t : State), s.ovr = true → s.busy = true → s.done = false → HostOp.reset ∉ s.host →
    Sys2Proof.core.run k s = .next t →
    t.ovr = true ∧ t.busy = true ∧ t.done = false ∧ irq t = false ∧ engineEnabled t = false ∧
    ∀ v, writeReg (some .cmd) v t = { t with cmd := v }

/-- 70_reset_and_hazards.md R266 (b), (c): a write into a PROCESS's buffers before its step is recorded, and at the step every
existing byte of its output range and all filter state are free, no other byte of memory changes, and RESULT, STATUS and the
configuration are those of a PROCESS without the race, whether or not its checks pass (log 11). The step leaves the output range
in the record, and a write after it, before the host's read of DONE = 1, frees the range and the filter state at once. (The
record is the MODEL's form, log 10.) -/
def Obligations.RaceFreesOutputs : Prop :=
  (∀ (s : State) (a : Nat) (bytes : List Byte), ∀ w ∈ s.windows, w.meets a bytes.length = true →
    { w with raced := true } ∈ (hostStore a bytes s).windows) ∧
  (∀ (s : State) (w : Window) (ws : List Window), s.mem.wf = true → s.windows = w :: ws → w.ran = false →
    let F := s.params.sampleFmt
    let outB := s.larg.a2.toNat
    let produced := producedLen s.cas s.larg.a1.toNat s.larg.a3.toNat
    let len := min (produced * sampleBytes F) (2 ^ 64 - outB)
    let check := processCheck s.params s.cas (processOperands s.larg)
    ∃ t, exec .process s = .next t ∧ t.windows = { w with ran := true, exposed := some ⟨outB, len⟩ } :: ws ∧
      t.result = (if check = none then BitVec.ofNat 64 produced else 0#64) ∧ t.err = check.isSome ∧
      t.errCode = (match check with
        | none => 0#8
        | some e => errCodeOf e) ∧
      t.busy = false ∧ t.done = true ∧ fixedPart t.cas = fixedPart s.cas ∧ (check = none → len = produced * sampleBytes F) ∧
      (w.raced = true →
        (∃ d sts, t.cas.stages = drawStages F (taps s.params) d sts) ∧
        (∃ d, ∀ k, k < len → loadByte t.mem (outB + k) = Config.freeByte (d + k)) ∧
        ∀ a, a < outB ∨ outB + len ≤ a → loadByte t.mem a = loadByte s.mem a)) ∧
  (∀ (s : State) (a : Nat) (bytes : List Byte), s.Inv → a + bytes.length ≤ 2 ^ 64 →
    ∀ w ∈ s.windows, w.ran = true → w.meets a bytes.length = true →
      ∃ m sts d, hostStore a bytes s =
          { s with mem := m, windows := racedWindows a bytes.length s.windows, draws := d
                   cas := { s.cas with stages := drawStages s.params.sampleFmt (taps s.params) sts s.cas.stages } } ∧
        (∀ r ∈ w.exposed, ∀ k, k < r.len → ∃ i, s.draws ≤ i ∧ i < d ∧ loadByte m (r.base + k) = Config.freeByte i) ∧
        ∀ c, (c < a ∨ a + bytes.length ≤ c) →
          (∀ x ∈ s.windows, x.ran = true → x.meets a bytes.length = true → ∀ r ∈ x.exposed, c < r.base ∨ r.base + r.len ≤ c) →
          loadByte m c = loadByte s.mem c)

/-- 70_reset_and_hazards.md R266 (a), 20_memory.md R72: a host read returns a free byte inside a buffer that is handed over and
the byte of sample memory elsewhere, and changes nothing of the block. -/
def Obligations.HostReadsOfSampleMemory : Prop :=
  ∀ (s : State) (a n : Nat), ∃ bytes : List Byte,
    hostLoad a n s = { s with replies := .mem bytes :: s.replies, draws := s.draws + n } ∧ bytes.length = n ∧
    ∀ i, i < n → bytes[i]? =
      some (if isHandedOver s (a + i) = true then Config.freeByte (s.draws + i) else loadByte s.mem (a + i))

/-- 20_memory.md R60, R62, R65: the host reads and writes sample memory at addresses that the platform maps; a write outside every
handed-over buffer stores its bytes and changes nothing else. (The stop at an unmapped byte is the MODEL's choice, log 13.) -/
def Obligations.HostWritesStoreBytes : Prop :=
  (∀ (s : State) (a : Word) (bytes : List Byte) (rest : List HostOp), s.host = .memWrite a bytes :: rest →
    step s = if hostReaches s.params a.toNat bytes.length = true then .next (hostStore a.toNat bytes { s with host := rest })
      else .fault .hostUnmapped) ∧
  (∀ (s : State) (a : Word) (n : Nat) (rest : List HostOp), s.host = .memRead a n :: rest →
    step s = if hostReaches s.params a.toNat n = true then .next (hostLoad a.toNat n { s with host := rest })
      else .fault .hostUnmapped) ∧
  (∀ (s : State) (a : Nat) (bytes : List Byte), s.mem.wf = true → hostReaches s.params a bytes.length = true →
    (∀ w ∈ s.windows, w.meets a bytes.length = false) →
    ∃ m, hostStore a bytes s = { s with mem := m } ∧
      (∀ i b, bytes[i]? = some b → loadByte m (a + i) = b) ∧
      ∀ c, c < a ∨ a + bytes.length ≤ c → loadByte m c = loadByte s.mem c)

/-- 70_reset_and_hazards.md R260: what the reset event leaves: every register and every internal field at its reset value, the
parameters unchanged, and sample memory unchanged but for the output bytes of a PROCESS that it abandons (R262). -/
def Obligations.ResetLeaves : Prop :=
  (∀ (s : State) (rest : List HostOp), s.host = .reset :: rest → ∃ t, step s = .next t ∧
    t.params = s.params ∧ t.busy = false ∧ t.done = false ∧ t.err = false ∧ t.cas.cfg = false ∧ t.ovr = false ∧
    t.errCode = 0#8 ∧ t.ie = false ∧ irq t = false ∧ t.cas = Cascade.unconfigured ∧
    t.larg = Args.zero ∧ t.lcmd = 0#64 ∧ t.result = 0#64 ∧ t.fz = [] ∧
    (∀ r, regValue t r =
      if r = .id then 0x4644430000000001#64 else if r = .taps then BitVec.ofNat 64 (taps s.params) else 0#64) ∧
    (s.busy = false → t.mem = s.mem) ∧
    ∀ a, (∀ x ∈ abandonedRange { s with host := rest }, a < x.base ∨ x.base + x.len ≤ a) → loadByte t.mem a = loadByte s.mem a) ∧
  (∀ (p : Params) (r : Reg), regValue (State.resetOf p) r =
      if r = .id then 0x4644430000000001#64 else if r = .taps then BitVec.ofNat 64 (taps p) else 0#64)

/-- 70_reset_and_hazards.md R262: a reset during a PROCESS whose checks would pass makes its output bytes free and leaves the rest
of sample memory alone; after an overrun it does the same with the range the overrun left open (log 9). -/
def Obligations.ResetAbandonsProcess : Prop :=
  ∀ s : State, s.Inv →
    let open' := if s.busy = true then (if s.ovr = true then s.lost else inFlightRange s) else none
    (∀ a, (∀ r ∈ open', a < r.base ∨ r.base + r.len ≤ a) → loadByte (resetEvent s).mem a = loadByte s.mem a) ∧
    (∀ r ∈ open', ∀ k, k < r.len → loadByte (resetEvent s).mem (r.base + k) = Config.freeByte (s.draws + k))

/-! ### Whole-machine rules -/

/-- 70_reset_and_hazards.md R260, R275: the reset state meets the invariant, whatever the parameters. -/
def Obligations.ResetMeetsInvariant : Prop :=
  State.reset.Inv ∧ ∀ p : Params, (State.resetOf p).Inv

/-- The invariant of every step (10_state.md R26, R41, R42, R44; 20_memory.md R60; 44_host_bus.md R201, R210): memory stays
canonical, STATUS consistent, the configuration one that CREATE could have made, cursors in range. -/
def Obligations.StepKeepsInvariant : Prop :=
  ∀ s t : State, s.Inv → step s = .next t → t.Inv

/-- 10_state.md R41, 20_memory.md R75: factors, coefficients, ratio, scratch size and achieved rate change only when the engine
runs CREATE, at a reset, or at an overrun. -/
def Obligations.ConfigurationChangesOnlyBy : Prop :=
  ∀ s t : State, step s = .next t →
    fixedPart t.cas = fixedPart s.cas ∨
    (s.busy = true ∧ s.ovr = false ∧ decode s.lcmd = .ok .create ∧ (s.host = [] ∨ s.host.head? = some .engine)) ∨
    s.host.head? = some .reset ∨
    (s.busy = true ∧ s.ovr = false ∧ t.ovr = true)

/-- 20_memory.md R60: of the engine's commands only PROCESS changes sample memory; otherwise a write by the host or another
agent does, or the free bytes of an overrun, a race or a reset during a command. -/
def Obligations.SampleMemoryChangesOnlyBy : Prop :=
  ∀ s t : State, step s = .next t →
    t.mem = s.mem ∨
    (s.busy = true ∧ s.ovr = false ∧ decode s.lcmd = .ok .process ∧ (s.host = [] ∨ s.host.head? = some .engine)) ∨
    (∃ a bytes, s.host.head? = some (.memWrite a bytes)) ∨
    (s.host.head? = some .reset ∧ s.busy = true) ∨
    (s.busy = true ∧ s.ovr = false ∧ t.ovr = true)

/-- 00_scope.md R7, 10_state.md R33: no step changes a parameter, so `T` is constant for the life of an instance. -/
def Obligations.StepKeepsParameters : Prop :=
  ∀ s t : State, step s = .next t → t.params = s.params ∧ regValue t .taps = regValue s .taps

/-- 44_host_bus.md R209, 70_reset_and_hazards.md R272: a started command, without an overrun or a reset, completes after finitely
many steps of the host, whatever register accesses, polls and accesses to sample memory it makes. That the bound is two steps
after the host's list, and that a poll gives the engine its turn, is the MODEL's form of the rule's fairness (log 14). -/
def Obligations.StartedCommandCompletes : Prop :=
  ∀ s : State, s.busy = true → s.ovr = false →
    (∀ op ∈ s.host, op = .engine ∨ op = .wait ∨
      (∃ a, op = .regRead a ∧ a.wf s.params.regBase = true) ∨
      (∃ a v, op = .regWrite a v ∧ a.wf s.params.regBase = true ∧ a.addr ≠ s.params.regBase + 0x008) ∨
      (∃ a n, op = .memRead a n ∧ hostReaches s.params a.toNat n = true) ∨
      (∃ a bytes, op = .memWrite a bytes ∧ hostReaches s.params a.toNat bytes.length = true)) →
    ∃ k t, k ≤ s.host.length + 2 ∧ Sys2Proof.core.run k s = .next t ∧ t.busy = false ∧ t.done = true ∧ t.ovr = false

/-! ### Arithmetic and memory -/

/-- 00_scope.md R9 (IEEE 754 itself is general knowledge, log 18): rounding gives a magnitude of the precision that is nearest to
the exact quotient, and the even one of two that are equally near. -/
def Obligations.RoundsToNearestEven : Prop :=
  ∀ p num den : Nat, 0 < p → 0 < den →
    representable p (roundMag p num den) ∧
    ∀ m, representable p m →
      distanceFrom num den (roundMag p num den) ≤ distanceFrom num den m ∧
      (m ≠ roundMag p num den → distanceFrom num den m = distanceFrom num den (roundMag p num den) →
        2 * (m - roundMag p num den + (roundMag p num den - m)) ∣ roundMag p num den)

/-- 00_scope.md R9: `bits64` is the inverse of `f64`, and the same for binary32; only a NaN has more than one pattern. -/
def Obligations.PatternsAndValuesInverse : Prop :=
  (∀ (F : Fmt) (w free : Word), w.toNat < 256 ^ partBytes F → unpack F w ≠ .nan → pack F free (unpack F w) = w) ∧
  (∀ (F : Fmt) (v : Fp) (free : Word), v.ofFormat F → unpack F (pack F free v) = v) ∧
  (∀ (F : Fmt) (w : Word), w.toNat < 256 ^ partBytes F → unpack F w = .nan → pack F w .nan = w)

/-- 20_memory.md R62, R66, R67; 00_scope.md R11: little-endian loads read what stores wrote, stores touch no other byte and keep
the canonical form, and a sample written reads back bit for bit. -/
def Obligations.LoadsReadWhatStoresWrote : Prop :=
  ∀ m : Memory, m.wf = true →
    (∀ a n v, a + n ≤ 2 ^ 64 →
      memLoad (memStore m a n v) a n = v % 256 ^ n ∧ (memStore m a n v).wf = true ∧
      (∀ i, i < n → (loadByte (memStore m a n v) (a + i)).toNat = v / 256 ^ i % 256) ∧
      ∀ c, c < a ∨ a + n ≤ c → loadByte (memStore m a n v) c = loadByte m c) ∧
    (∀ (F : Fmt) a z, a + sampleBytes F ≤ 2 ^ 64 → Sample.fits F z → readSample F (writeSample F m a z) a = z)
end

