-- ==== Sys2Proof/Laws/Factorizer.lean ====
section
/-!
SUPPORT. What the rate factorizer returns (40_factorizer.md R100, R101): one description of the whole list, from which its
properties follow.
-/

namespace Sys2Proof.Machine

/-- The inner loop takes out every factor `q` (40_factorizer.md R100). -/
theorem pullFactor_spec {q : Nat} (hq : 2 ≤ q) {fuel r : Nat} (hr : 1 ≤ r) (hf : r < 2 ^ fuel) :
    ∃ k r', pullFactor q fuel r = (List.replicate k q, r') ∧ r = q ^ k * r' ∧ 1 ≤ r' ∧ ¬ q ∣ r' := by
  induction fuel generalizing r with
  | zero => simp at hf; omega
  | succ fuel ih =>
    unfold pullFactor
    split
    · rename_i hd
      obtain ⟨r1, rfl⟩ := Nat.dvd_of_mod_eq_zero hd
      have hq0 : 0 < q := by omega
      rw [Nat.mul_div_cancel_left _ hq0]
      have hr1 : 1 ≤ r1 := Nat.pos_of_mul_pos_left (by omega : 0 < q * r1)
      obtain ⟨k, r', h1, h2, h3, h4⟩ := ih hr1 (by
        rw [pow_succ] at hf
        have : 2 * r1 ≤ q * r1 := Nat.mul_le_mul_right _ hq
        omega)
      refine ⟨k + 1, r', ?_, ?_, h3, h4⟩
      · rw [h1]; rfl
      · rw [h2, pow_succ']; ring
    · rename_i hd
      exact ⟨0, r, rfl, by simp, hr, fun h => hd (Nat.mod_eq_zero_of_dvd h)⟩

theorem pullFactors_cons {q : Nat} (hq : 2 ≤ q) (qs : List Nat) {r : Nat} (hr : 1 ≤ r) :
    ∃ k r', pullFactors (q :: qs) r = List.replicate k q ++ pullFactors qs r' ∧ r = q ^ k * r' ∧ 1 ≤ r' ∧ ¬ q ∣ r' := by
  obtain ⟨k, r', h1, h2, h3, h4⟩ := pullFactor_spec hq hr Nat.lt_log2_self
  exact ⟨k, r', by rw [pullFactors, h1], h2, h3, h4⟩

/-- The list that `factorize` returns: how often each preferred factor occurs, and the residual `m`. -/
theorem factorize_shape {r : Nat} (hr : 1 ≤ r) :
    ∃ a b c d e f m,
      factorize r = List.replicate a 8 ++ (List.replicate b 6 ++ (List.replicate c 5 ++ (List.replicate d 4 ++
        (List.replicate e 3 ++ (List.replicate f 2 ++ (if 1 < m then [m] else [])))))) ∧
      r = 8 ^ a * (6 ^ b * (5 ^ c * (4 ^ d * (3 ^ e * (2 ^ f * m))))) ∧
      1 ≤ m ∧ ¬ 2 ∣ m ∧ ¬ 3 ∣ m ∧ ¬ 5 ∣ m ∧ d ≤ 1 ∧ f ≤ 1 ∧ (e = 0 ∨ (d = 0 ∧ f = 0)) ∧ (d = 0 ∨ f = 0) := by
  obtain ⟨a, r1, e1, h1, p1, n1⟩ := pullFactors_cons (q := 8) (by norm_num) [6, 5, 4, 3, 2] hr
  obtain ⟨b, r2, e2, h2, p2, n2⟩ := pullFactors_cons (q := 6) (by norm_num) [5, 4, 3, 2] p1
  obtain ⟨c, r3, e3, h3, p3, n3⟩ := pullFactors_cons (q := 5) (by norm_num) [4, 3, 2] p2
  obtain ⟨d, r4, e4, h4, p4, n4⟩ := pullFactors_cons (q := 4) (by norm_num) [3, 2] p3
  obtain ⟨e, r5, e5, h5, p5, n5⟩ := pullFactors_cons (q := 3) (by norm_num) [2] p4
  obtain ⟨f, m, e6, h6, p6, n6⟩ := pullFactors_cons (q := 2) (by norm_num) [] p5
  refine ⟨a, b, c, d, e, f, m, ?_, ?_, p6, n6, ?_, ?_, ?_, ?_, ?_, ?_⟩
  · rw [factorize, e1, e2, e3, e4, e5, e6]; rfl
  · rw [h1, h2, h3, h4, h5, h6]
  · intro h
    exact n5 (h6 ▸ Dvd.dvd.mul_left h _)
  · intro h
    exact n3 (h4 ▸ Dvd.dvd.mul_left (h5 ▸ Dvd.dvd.mul_left (h6 ▸ Dvd.dvd.mul_left h _) _) _)
  · -- two 4s would make an 8
    by_contra hd
    obtain ⟨d', rfl⟩ : ∃ d', d = d' + 2 := ⟨d - 2, by omega⟩
    exact n1 ⟨6 ^ b * (5 ^ c * (2 * (4 ^ d' * r4))), by rw [h2, h3, h4]; ring⟩
  · -- two 2s would make a 4
    by_contra hf
    obtain ⟨f', rfl⟩ : ∃ f', f = f' + 2 := ⟨f - 2, by omega⟩
    exact n4 ⟨3 ^ e * (2 ^ f' * m), by rw [h5, h6]; ring⟩
  · -- a 3 with a 4 or a 2 would make a 6
    by_contra hc
    have he : e ≠ 0 := fun h => hc (Or.inl h)
    obtain ⟨e', rfl⟩ : ∃ e', e = e' + 1 := ⟨e - 1, by omega⟩
    apply n2
    by_cases hd : d = 0
    · have hf : f ≠ 0 := fun h => hc (Or.inr ⟨hd, h⟩)
      obtain ⟨f', rfl⟩ : ∃ f', f = f' + 1 := ⟨f - 1, by omega⟩
      exact ⟨5 ^ c * (4 ^ d * (3 ^ e' * (2 ^ f' * m))), by rw [h3, h4, h5, h6]; ring⟩
    · obtain ⟨d', rfl⟩ : ∃ d', d = d' + 1 := ⟨d - 1, by omega⟩
      exact ⟨5 ^ c * (2 * (4 ^ d' * (3 ^ e' * (2 ^ f * m)))), by rw [h3, h4, h5, h6]; ring⟩
  · -- a 4 with a 2 would make an 8
    by_contra hc
    have hd : d ≠ 0 := fun h => hc (Or.inl h)
    have hf : f ≠ 0 := fun h => hc (Or.inr h)
    obtain ⟨d', rfl⟩ : ∃ d', d = d' + 1 := ⟨d - 1, by omega⟩
    obtain ⟨f', rfl⟩ : ∃ f', f = f' + 1 := ⟨f - 1, by omega⟩
    exact n1 ⟨6 ^ b * (5 ^ c * (4 ^ d' * (3 ^ e * (2 ^ f' * m)))), by rw [h2, h3, h4, h5, h6]; ring⟩

theorem factorize_prod {r : Nat} (hr : 1 ≤ r) : (factorize r).prod = r := by
  obtain ⟨a, b, c, d, e, f, m, h, hr', hm, -⟩ := factorize_shape hr
  rw [h]
  simp only [List.prod_append, List.prod_replicate]
  have : (if 1 < m then [m] else []).prod = m := by
    split
    · simp
    · simp; omega
  rw [this, ← hr']

theorem factorize_two_le {r : Nat} (hr : 1 ≤ r) : ∀ q ∈ factorize r, 2 ≤ q := by
  obtain ⟨a, b, c, d, e, f, m, h, -⟩ := factorize_shape hr
  rw [h]
  intro q hq
  simp only [List.mem_append, List.mem_replicate] at hq
  rcases hq with h | h | h | h | h | h | h
  all_goals first
    | omega
    | (split at h
       · simp only [List.mem_singleton] at h; omega
       · simp at h)

/-- Twenty factors, of which at most one is a 2 and then none a 3 or a 4, have a product above RATIO_MAX (40_factorizer.md
R101 (f)). -/
theorem factorize_length {r : Nat} (hr : 1 ≤ r) (hmax : r ≤ ratioMax) : (factorize r).length ≤ 19 := by
  obtain ⟨a, b, c, d, e, f, m, h, hr', hm, h2, h3, h5, -, hf, hef, hdf⟩ := factorize_shape hr
  set k := if 1 < m then 1 else 0 with hk
  have hlen : (factorize r).length = a + b + c + d + e + f + k := by
    rw [h]
    simp only [List.length_append, List.length_replicate]
    have : (if 1 < m then [m] else []).length = k := by split <;> simp [*]
    omega
  have hmk : 3 ^ k ≤ m := by
    split at hk
    · rw [hk]; omega
    · rw [hk]; simpa using hm
  have low : 3 ^ (a + b + c + d + e + k) * 2 ^ f ≤ r := by
    have e1 : 3 ^ (a + b + c + d + e + k) * 2 ^ f = 3 ^ a * (3 ^ b * (3 ^ c * (3 ^ d * (3 ^ e * (2 ^ f * 3 ^ k))))) := by ring
    rw [e1, hr']
    refine Nat.mul_le_mul (Nat.pow_le_pow_left (by norm_num) _) (Nat.mul_le_mul (Nat.pow_le_pow_left (by norm_num) _)
      (Nat.mul_le_mul (Nat.pow_le_pow_left (by norm_num) _) (Nat.mul_le_mul (Nat.pow_le_pow_left (by norm_num) _)
      (Nat.mul_le_mul_left _ (Nat.mul_le_mul_left _ hmk)))))
  rw [hlen]
  by_contra hc
  have hr2 : r < 2 ^ 31 := by unfold ratioMax at hmax; omega
  rcases Nat.eq_zero_or_pos f with rfl | hf0
  · have : 3 ^ 20 ≤ 3 ^ (a + b + c + d + e + k) := Nat.pow_le_pow_right (by norm_num) (by omega)
    simp only [pow_zero, Nat.mul_one] at low
    norm_num at this hr2
    omega
  · obtain rfl : f = 1 := by omega
    obtain rfl : e = 0 := by omega
    obtain rfl : d = 0 := by omega
    have hmk5 : 5 ^ k ≤ m := by
      split at hk
      · rw [hk]; omega
      · rw [hk]; simpa using hm
    have low5 : 5 ^ (a + b + c + k) ≤ r := by
      have e1 : 5 ^ (a + b + c + k) = 5 ^ a * (5 ^ b * (5 ^ c * (1 * (1 * (1 * 5 ^ k))))) := by ring
      rw [e1, hr']
      refine Nat.mul_le_mul (Nat.pow_le_pow_left (by norm_num) _) (Nat.mul_le_mul (Nat.pow_le_pow_left (by norm_num) _)
        (Nat.mul_le_mul_left _ (Nat.mul_le_mul (by norm_num) (Nat.mul_le_mul (by norm_num)
        (Nat.mul_le_mul (by norm_num) hmk5)))))
    have : 5 ^ 19 ≤ 5 ^ (a + b + c + k) := Nat.pow_le_pow_right (by norm_num) (by omega)
    norm_num at this hr2
    omega

/-- No element of a list of positive numbers is above their product. -/
theorem getD_le_of_prod {l : List Nat} {R : Nat} (hpos : ∀ q ∈ l, 1 ≤ q) (h : l.prod ≤ R) (i : Nat) : l.getD i 0 ≤ R := by
  rw [List.getD_eq_getElem?_getD]
  cases hi : l[i]? with
  | none => simp
  | some q =>
    have hm : q ∈ l := List.mem_of_getElem? hi
    have hp : 0 < l.prod := List.prod_pos (fun q hq => hpos q hq)
    have := Nat.le_of_dvd hp (List.dvd_prod hm)
    simp; omega

end Sys2Proof.Machine
end

