-- ==== Sys2Proof/Laws/Float.lean ====
section
/-!
SUPPORT. The laws of floating-point patterns and rounding: patterns and values are inverse to each other, every rounded value
has the format's precision, and a sum that starts at +0.0 is never -0.0.
-/

namespace Sys2Proof.Machine

/-! ### Fields -/

theorem fieldsWord_toNat (F : Fmt) (neg : Bool) {e frac : Nat} (he : e < 2 ^ expBits F) (hf : frac < 2 ^ fracBits F) :
    (fieldsWord F neg e frac).toNat = ((if neg then 2 ^ expBits F else 0) + e) * 2 ^ fracBits F + frac := by
  unfold fieldsWord
  rw [BitVec.toNat_ofNat, Nat.mod_eq_of_lt]
  cases F <;> cases neg <;> simp [expBits, fracBits] at * <;> omega

theorem fieldsWord_fits (F : Fmt) (neg : Bool) {e frac : Nat} (he : e < 2 ^ expBits F) (hf : frac < 2 ^ fracBits F) :
    (fieldsWord F neg e frac).toNat < 256 ^ partBytes F := by
  rw [fieldsWord_toNat F neg he hf]
  cases F <;> cases neg <;> simp [expBits, fracBits, partBytes] at * <;> omega

theorem unpack_fieldsWord (F : Fmt) (neg : Bool) {e frac : Nat} (he : e < 2 ^ expBits F) (hf : frac < 2 ^ fracBits F) :
    unpack F (fieldsWord F neg e frac) =
      if e = expOnes F then (if frac = 0 then .inf neg else .nan)
      else if e = 0 then .fin neg frac
      else .fin neg ((2 ^ fracBits F + frac) * 2 ^ (e - 1)) := by
  have h1 : (fieldsWord F neg e frac).toNat % 2 ^ fracBits F = frac := by
    rw [fieldsWord_toNat F neg he hf, Nat.mul_add_mod_self_right, Nat.mod_eq_of_lt hf]
  have h2 : (fieldsWord F neg e frac).toNat / 2 ^ fracBits F % 2 ^ expBits F = e := by
    rw [fieldsWord_toNat F neg he hf]
    cases F <;> cases neg <;> simp [expBits, fracBits] at * <;> omega
  have h3 : ((fieldsWord F neg e frac).toNat / 2 ^ (fracBits F + expBits F) % 2 == 1) = neg := by
    rw [fieldsWord_toNat F neg he hf]
    cases F <;> cases neg <;> simp [expBits, fracBits] at * <;> omega
  simp only [unpack, h1, h2, h3]

theorem expOnes_lt (F : Fmt) : expOnes F < 2 ^ expBits F := by cases F <;> decide

theorem expOnes_pos (F : Fmt) : 0 < expOnes F := by cases F <;> decide

/-- A pattern of the format's width is its three fields. -/
theorem fieldsWord_of_toNat (F : Fmt) {w : Word} (hw : w.toNat < 256 ^ partBytes F) :
    fieldsWord F (w.toNat / 2 ^ (fracBits F + expBits F) % 2 == 1) (w.toNat / 2 ^ fracBits F % 2 ^ expBits F)
      (w.toNat % 2 ^ fracBits F) = w := by
  apply BitVec.eq_of_toNat_eq
  rw [fieldsWord_toNat F _ (Nat.mod_lt _ (by positivity)) (Nat.mod_lt _ (by positivity))]
  have hb : w.toNat / 2 ^ (fracBits F + expBits F) % 2 = 0 ∨ w.toNat / 2 ^ (fracBits F + expBits F) % 2 = 1 := by omega
  cases F <;> rcases hb with hb | hb <;> simp only [hb] <;> simp [expBits, fracBits, partBytes] at * <;> omega

/-! ### Magnitudes -/

theorem magExponent_normal {F : Fmt} {k e : Nat} (hk : 2 ^ fracBits F ≤ k) (hk' : k < 2 ^ (fracBits F + 1)) :
    magExponent F (k * 2 ^ e) = e + 1 ∧ magFraction F (k * 2 ^ e) = k - 2 ^ fracBits F := by
  have hpos : 0 < 2 ^ e := by positivity
  have hlow : 2 ^ fracBits F ≤ k * 2 ^ e := le_trans hk (Nat.le_mul_of_pos_right _ hpos)
  have hne : k * 2 ^ e ≠ 0 := by
    have : 0 < 2 ^ fracBits F := by positivity
    omega
  have hlog : Nat.log2 (k * 2 ^ e) = fracBits F + e := by
    rw [Nat.log2_eq_iff hne, pow_add, show fracBits F + e + 1 = fracBits F + 1 + e by ring, pow_add]
    exact ⟨Nat.mul_le_mul_right _ hk, (Nat.mul_lt_mul_right hpos).2 hk'⟩
  have he : magExponent F (k * 2 ^ e) = e + 1 := by
    rw [magExponent, if_neg (by omega), hlog]; omega
  refine ⟨he, ?_⟩
  rw [magFraction, if_neg (by omega), he, Nat.add_sub_cancel, Nat.mul_div_cancel _ hpos]

/-- A magnitude of the format is subnormal or has a full significand. -/
theorem representable_normal {F : Fmt} {m : Nat} (h : representable (precision F) m) (hm : 2 ^ fracBits F ≤ m) :
    ∃ k e, 2 ^ fracBits F ≤ k ∧ k < 2 ^ (fracBits F + 1) ∧ m = k * 2 ^ e := by
  obtain ⟨k, e, hk, rfl⟩ := h
  unfold precision at hk
  induction e generalizing k with
  | zero => exact ⟨k, 0, by simpa using hm, hk, rfl⟩
  | succ e ih =>
    by_cases hk2 : 2 ^ fracBits F ≤ k
    · exact ⟨k, e + 1, hk2, hk, rfl⟩
    · obtain ⟨k', e', h1, h2, h3⟩ := ih (2 * k) (by rw [pow_succ]; omega)
        (by rw [show 2 * k * 2 ^ e = k * 2 ^ (e + 1) by ring]; exact hm)
      exact ⟨k', e', h1, h2, by rw [← h3]; ring⟩

theorem magFields_lt {F : Fmt} {m : Nat} (h : (Fp.fin neg m).ofFormat F) :
    magExponent F m < expOnes F ∧ magFraction F m < 2 ^ fracBits F := by
  obtain ⟨hm, hr⟩ := h
  by_cases hs : m < 2 ^ fracBits F
  · rw [magExponent, magFraction, if_pos hs, if_pos hs]
    exact ⟨expOnes_pos F, hs⟩
  · obtain ⟨k, e, h1, h2, rfl⟩ := representable_normal hr (by omega)
    obtain ⟨he, hf⟩ := magExponent_normal h1 h2 (e := e)
    rw [he, hf]
    rw [pow_succ] at h2
    refine ⟨?_, by omega⟩
    by_contra hc
    have : overflowMag F ≤ k * 2 ^ e := by
      rw [overflowMag, Nat.add_comm, pow_add]
      exact Nat.mul_le_mul h1 (Nat.pow_le_pow_right (by norm_num) (by omega))
    omega

/-! ### Patterns and values -/

theorem unpack_nanPattern (F : Fmt) (w : Word) : unpack F (nanPattern F w) = .nan := by
  have hp : 0 < 2 ^ fracBits F := by positivity
  have hf : (if w.toNat % 2 ^ fracBits F = 0 then 2 ^ (fracBits F - 1) else w.toNat % 2 ^ fracBits F) < 2 ^ fracBits F := by
    split
    · cases F <;> decide
    · exact Nat.mod_lt _ hp
  rw [nanPattern, unpack_fieldsWord F _ (expOnes_lt F) hf, if_pos rfl, if_neg]
  split
  · positivity
  · assumption

/-- `f64` after `bits64` is the value again, a NaN staying a NaN (00_scope.md R9). -/
theorem unpack_pack {F : Fmt} {v : Fp} (h : v.ofFormat F) (free : Word) : unpack F (pack F free v) = v := by
  match v with
  | .nan => exact unpack_nanPattern F free
  | .inf neg => rw [pack, unpack_fieldsWord F _ (expOnes_lt F) (by positivity), if_pos rfl, if_pos rfl]
  | .fin neg m =>
    obtain ⟨he, hf⟩ := magFields_lt h
    rw [pack, unpack_fieldsWord F _ (lt_trans he (expOnes_lt F)) hf, if_neg he.ne]
    by_cases hs : m < 2 ^ fracBits F
    · simp [magExponent, magFraction, hs]
    · obtain ⟨k, e, h1, h2, rfl⟩ := representable_normal h.2 (by omega)
      obtain ⟨he', hf'⟩ := magExponent_normal h1 h2 (e := e)
      rw [he', hf', if_neg (by omega), Nat.add_sub_cancel]
      congr 2
      omega

theorem pack_fits {F : Fmt} {v : Fp} (h : v.ofFormat F) (free : Word) : (pack F free v).toNat < 256 ^ partBytes F := by
  match v with
  | .nan =>
    refine fieldsWord_fits F _ (expOnes_lt F) ?_
    split
    · cases F <;> decide
    · exact Nat.mod_lt _ (by positivity)
  | .inf neg => exact fieldsWord_fits F _ (expOnes_lt F) (by positivity)
  | .fin neg m =>
    obtain ⟨he, hf⟩ := magFields_lt h
    exact fieldsWord_fits F _ (lt_trans he (expOnes_lt F)) hf

/-- `bits64` after `f64` is the pattern again, unless it is a NaN (00_scope.md R9). -/
theorem pack_unpack {F : Fmt} {w : Word} (hw : w.toNat < 256 ^ partBytes F) (hn : unpack F w ≠ .nan) (free : Word) :
    pack F free (unpack F w) = w := by
  have hfr : w.toNat % 2 ^ fracBits F < 2 ^ fracBits F := Nat.mod_lt _ (by positivity)
  have hw' := fieldsWord_of_toNat F hw
  simp only [unpack] at hn ⊢
  split at hn
  · rename_i he
    rw [if_pos he]
    split at hn
    · rename_i hf
      rw [if_pos hf, pack]
      rw [he, hf] at hw'
      exact hw'
    · exact absurd rfl hn
  · rename_i he
    rw [if_neg he]
    split
    · rename_i he0
      rw [pack, magExponent, magFraction, if_pos hfr, if_pos hfr]
      rw [he0] at hw'
      exact hw'
    · rename_i he0
      obtain ⟨h1, h2⟩ := magExponent_normal (F := F) (k := 2 ^ fracBits F + w.toNat % 2 ^ fracBits F)
        (e := w.toNat / 2 ^ fracBits F % 2 ^ expBits F - 1) (by omega) (by rw [pow_succ]; omega)
      rw [pack, h1, h2, Nat.add_sub_cancel_left, Nat.sub_add_cancel (by omega)]
      exact hw'

/-! ### Rounding -/

theorem roundMag_significand {p num den : Nat} :
    ∃ q, q ≤ 2 ^ p ∧ roundMag p num den = q * 2 ^ (Nat.log2 (num / den) + 1 - p) := by
  refine ⟨_, ?_, rfl⟩
  have hq : num / (den * 2 ^ (Nat.log2 (num / den) + 1 - p)) < 2 ^ p := by
    rw [← Nat.div_div_eq_div_mul, Nat.div_lt_iff_lt_mul (by positivity), ← pow_add]
    refine lt_of_lt_of_le Nat.lt_log2_self (Nat.pow_le_pow_right (by norm_num) ?_)
    omega
  split
  · omega
  · split
    · omega
    · have := Nat.mod_lt (num / (den * 2 ^ (Nat.log2 (num / den) + 1 - p))) (show 0 < 2 by norm_num)
      omega

theorem roundMag_representable {p num den : Nat} (hp : 0 < p) : representable p (roundMag p num den) := by
  obtain ⟨q, hq, h⟩ := roundMag_significand (p := p) (num := num) (den := den)
  rw [h]
  rcases hq.lt_or_eq with hq | rfl
  · exact ⟨q, _, hq, rfl⟩
  · refine ⟨2 ^ (p - 1), Nat.log2 (num / den) + 1 - p + 1, Nat.pow_lt_pow_right (by norm_num) (by omega), ?_⟩
    rw [← pow_add, ← pow_add]
    congr 1
    omega

theorem representable_zero (p : Nat) : representable p 0 := ⟨0, 0, by positivity, rfl⟩

theorem overflowMag_pos (F : Fmt) : 0 < overflowMag F := by unfold overflowMag; positivity

theorem ofFormat_zero (F : Fmt) (neg : Bool) : (Fp.fin neg 0).ofFormat F :=
  ⟨overflowMag_pos F, representable_zero _⟩

theorem roundTo_ofFormat (F : Fmt) (neg : Bool) (num den : Nat) : (roundTo F neg num den).ofFormat F := by
  unfold roundTo
  dsimp only
  split
  · rename_i h
    exact ⟨h, roundMag_representable (Nat.succ_pos _)⟩
  · trivial

theorem fadd_ofFormat (F : Fmt) (x y : Fp) (hx : x.ofFormat F) (hy : y.ofFormat F) : (fadd F x y).ofFormat F := by
  match x, y with
  | .nan, _ => trivial
  | .inf _, .nan => trivial
  | .fin _ _, .nan => trivial
  | .inf a, .inf b => simp only [fadd]; split <;> trivial
  | .inf _, .fin _ _ => trivial
  | .fin _ _, .inf _ => trivial
  | .fin a m, .fin b n =>
    simp only [fadd]
    split
    · exact ofFormat_zero F _
    · exact roundTo_ofFormat F _ _ _

theorem fmul_ofFormat (F : Fmt) (x y : Fp) : (fmul F x y).ofFormat F := by
  match x, y with
  | .nan, _ => trivial
  | .inf _, .nan => trivial
  | .fin _ _, .nan => trivial
  | .inf a, .inf b => trivial
  | .inf _, .fin _ _ => simp only [fmul]; split <;> trivial
  | .fin _ _, .inf _ => simp only [fmul]; split <;> trivial
  | .fin a m, .fin b n => exact roundTo_ofFormat F _ _ _

theorem fcvt_ofFormat (F G : Fmt) (x : Fp) : (fcvt F G x).ofFormat G := by
  match x with
  | .nan => trivial
  | .inf _ => trivial
  | .fin a m => exact roundTo_ofFormat G _ _ _

theorem roundMag_pos {p num : Nat} (hp : 0 < p) (hn : 0 < num) : 0 < roundMag p num 1 := by
  unfold roundMag
  dsimp only
  rw [Nat.div_one, Nat.one_mul]
  have hq : 0 < num / 2 ^ (Nat.log2 num + 1 - p) := by
    apply Nat.div_pos _ (by positivity)
    exact le_trans (Nat.pow_le_pow_right (by norm_num) (by omega)) (Nat.log2_self_le hn.ne')
  apply Nat.mul_pos _ (by positivity)
  split
  · exact hq
  · split <;> omega

/-- A sum is -0.0 only when both addends are (42_fir.md R145 (f)). -/
theorem fadd_ne_negZero (F : Fmt) {x : Fp} (y : Fp) (hx : x ≠ .fin true 0) : fadd F x y ≠ .fin true 0 := by
  match x, y with
  | .nan, _ => simp [fadd]
  | .inf _, .nan => simp [fadd]
  | .fin _ _, .nan => simp [fadd]
  | .inf a, .inf b => simp only [fadd]; split <;> simp
  | .inf _, .fin _ _ => simp [fadd]
  | .fin _ _, .inf _ => simp [fadd]
  | .fin a m, .fin b n =>
    simp only [fadd]
    split
    · rename_i hs
      intro hc
      simp only [Fp.fin.injEq, Bool.and_eq_true, and_true] at hc
      obtain ⟨rfl, rfl⟩ := hc
      simp only [signedMag, if_true] at hs
      apply hx
      congr 1
      omega
    · rename_i hs
      unfold roundTo
      dsimp only
      split
      · intro hc
        simp only [Fp.fin.injEq] at hc
        have := roundMag_pos (p := precision F) (Nat.succ_pos _) (Int.natAbs_pos.2 hs)
        omega
      · simp

theorem ofRat_ofFormat (F : Fmt) (neg : Bool) (num den : Nat) : (ofRat F neg num den).ofFormat F := roundTo_ofFormat F _ _ _

theorem fdiv_ofFormat (F : Fmt) (x y : Fp) : (fdiv F x y).ofFormat F := by
  match x, y with
  | .nan, _ => trivial
  | .inf _, .nan => trivial
  | .fin _ _, .nan => trivial
  | .inf _, .inf _ => trivial
  | .inf _, .fin _ _ => trivial
  | .fin a _, .inf b => exact ofFormat_zero F _
  | .fin a m, .fin b n =>
    simp only [fdiv]
    split
    · split <;> trivial
    · exact roundTo_ofFormat F _ _ _

/-- The unit of the last place at a magnitude divides every magnitude of the precision that is at least as large. -/
theorem representable_dvd {p m k : Nat} (h : representable p m) (hk : 2 ^ k ≤ m) : 2 ^ (k + 1 - p) ∣ m := by
  obtain ⟨c, e, hc, rfl⟩ := h
  refine Dvd.dvd.mul_left (Nat.pow_dvd_pow 2 ?_) c
  by_contra hlt
  have h1 : c * 2 ^ e < 2 ^ (p + e) := by
    rw [pow_add]
    exact (Nat.mul_lt_mul_right (by positivity)).2 hc
  have h2 : 2 ^ (p + e) ≤ 2 ^ k := Nat.pow_le_pow_right (by norm_num) (by omega)
  omega

/-- A value that the precision holds is not changed by rounding (00_scope.md R9). -/
theorem roundMag_exact {p m den : Nat} (h : representable p m) (hd : 0 < den) : roundMag p (m * den) den = m := by
  rcases Nat.eq_zero_or_pos m with rfl | hm
  · simp [roundMag]
  · obtain ⟨c, hc⟩ := representable_dvd h (Nat.log2_self_le hm.ne')
    have hpos : 0 < 2 ^ (Nat.log2 m + 1 - p) := by positivity
    unfold roundMag
    dsimp only
    rw [Nat.mul_div_cancel _ hd]
    generalize 2 ^ (Nat.log2 m + 1 - p) = u at hc hpos
    subst hc
    rw [show u * c * den = c * (den * u) by ring, Nat.mul_div_cancel _ (by positivity), Nat.mul_mod_left,
      if_pos (by simpa using ⟨hd, hpos⟩)]
    ring

/-- Rounding keeps a power of two as a lower bound. -/
theorem roundMag_ge {p num den k : Nat} (hp : 0 < p) (hd : 0 < den) (h : 2 ^ k * den ≤ num) : 2 ^ k ≤ roundMag p num den := by
  have hv : 2 ^ k ≤ num / den := (Nat.le_div_iff_mul_le hd).2 h
  have hv0 : num / den ≠ 0 := by
    have : 0 < 2 ^ k := by positivity
    omega
  have hk : k ≤ Nat.log2 (num / den) := (Nat.le_log2 hv0).2 hv
  unfold roundMag
  dsimp only
  rw [← Nat.div_div_eq_div_mul]
  generalize hs : Nat.log2 (num / den) + 1 - p = u
  suffices 2 ^ k ≤ num / den / 2 ^ u * 2 ^ u by
    refine le_trans this (Nat.mul_le_mul_right _ ?_)
    split
    · exact le_rfl
    · split <;> omega
  by_cases hu : u ≤ k
  · rw [show k = k - u + u by omega, pow_add]
    refine Nat.mul_le_mul_right _ ((Nat.le_div_iff_mul_le (by positivity)).2 ?_)
    rw [← pow_add, show k - u + u = k by omega]
    exact hv
  · have h1 : 1 ≤ num / den / 2 ^ u := (Nat.le_div_iff_mul_le (by positivity)).2 (by
      rw [Nat.one_mul]
      exact le_trans (Nat.pow_le_pow_right (by norm_num) (by omega)) (Nat.log2_self_le hv0))
    refine le_trans (Nat.pow_le_pow_right (by norm_num) (by omega)) (Nat.le_mul_of_pos_left _ h1)

/-- Rounding at most doubles a magnitude, or makes a one. -/
theorem roundMag_le {p num den : Nat} (hp : 0 < p) : roundMag p num den ≤ 2 * (num / den) + 1 := by
  unfold roundMag
  dsimp only
  rw [← Nat.div_div_eq_div_mul]
  generalize hs : Nat.log2 (num / den) + 1 - p = u
  generalize hv : num / den = v at hs
  have hq : v / 2 ^ u * 2 ^ u ≤ v := Nat.div_mul_le_self _ _
  have hu : 2 ^ u ≤ v + 1 := by
    rcases Nat.eq_zero_or_pos v with rfl | h0
    · have : u = 0 := by rw [← hs]; simp; omega
      subst this; simp
    · have := Nat.log2_self_le h0.ne'
      have : 2 ^ u ≤ 2 ^ Nat.log2 v := Nat.pow_le_pow_right (by norm_num) (by omega)
      omega
  have : ∀ q', q' ≤ v / 2 ^ u + 1 → q' * 2 ^ u ≤ 2 * v + 1 := by
    intro q' h
    have := Nat.mul_le_mul_right (2 ^ u) h
    rw [Nat.add_mul, Nat.one_mul] at this
    omega
  apply this
  split
  · omega
  · split <;> omega

theorem roundTo_exact {F : Fmt} {m den : Nat} (neg : Bool) (h : representable (precision F) m) (hm : m < overflowMag F)
    (hd : 0 < den) : roundTo F neg (m * den) den = .fin neg m := by
  unfold roundTo
  dsimp only
  rw [roundMag_exact h hd, if_pos hm]

/-- What a finite pattern holds (00_scope.md R9). -/
theorem unpack_ofFormat (F : Fmt) (w : Word) : (unpack F w).ofFormat F := by
  have hf : w.toNat % 2 ^ fracBits F < 2 ^ fracBits F := Nat.mod_lt _ (by positivity)
  have he : w.toNat / 2 ^ fracBits F % 2 ^ expBits F < 2 ^ expBits F := Nat.mod_lt _ (by positivity)
  simp only [unpack]
  generalize w.toNat % 2 ^ fracBits F = f at hf
  generalize w.toNat / 2 ^ fracBits F % 2 ^ expBits F = e at he
  split
  · split <;> trivial
  · rename_i h1
    have h1' : e ≤ expOnes F - 1 := by unfold expOnes at h1 ⊢; omega
    have hov : 2 ^ fracBits F ≤ overflowMag F := Nat.pow_le_pow_right (by norm_num) (Nat.le_add_left _ _)
    split
    · exact ⟨by omega, f, 0, by unfold precision; rw [pow_succ]; omega, by simp⟩
    · refine ⟨?_, 2 ^ fracBits F + f, e - 1, by unfold precision; rw [pow_succ]; omega, rfl⟩
      calc (2 ^ fracBits F + f) * 2 ^ (e - 1) < 2 ^ (fracBits F + 1) * 2 ^ (e - 1) :=
            (Nat.mul_lt_mul_right (by positivity)).2 (by rw [pow_succ]; omega)
        _ = 2 ^ (fracBits F + 1 + (e - 1)) := by rw [← pow_add]
        _ ≤ overflowMag F := Nat.pow_le_pow_right (by norm_num) (by omega)

/-- Widening binary32 to binary64 is exact (10_state.md R36). -/
theorem fcvt_widen {neg : Bool} {mag : Nat} (h : (Fp.fin neg mag).ofFormat .binary32) :
    fcvt .binary32 .binary64 (.fin neg mag) = .fin neg (mag * 2 ^ 925) := by
  obtain ⟨h1, k, e, hk, rfl⟩ := h
  have hu : unitExp .binary64 = 925 + unitExp .binary32 := by decide
  rw [fcvt, hu, pow_add, ← Nat.mul_assoc]
  refine roundTo_exact neg ⟨k, e + 925, lt_trans hk (by decide), by rw [Nat.mul_assoc, ← pow_add]⟩ ?_ (by positivity)
  refine lt_of_lt_of_le ((Nat.mul_lt_mul_right (by positivity)).2 h1) ?_
  rw [overflowMag, overflowMag, ← pow_add]
  exact Nat.pow_le_pow_right (by norm_num) (by decide)

theorem roundTo_small {F : Fmt} {neg : Bool} {num den : Nat} (h : 2 * (num / den) + 1 < overflowMag F) :
    roundTo F neg num den = .fin neg (roundMag (precision F) num den) := by
  unfold roundTo
  dsimp only
  rw [if_pos (lt_of_le_of_lt (roundMag_le (by unfold precision; omega)) h)]

theorem roundTo_zero (F : Fmt) (neg : Bool) (den : Nat) : roundTo F neg 0 den = .fin neg 0 := by
  have : roundMag (precision F) 0 den = 0 := by simp [roundMag]
  rw [roundTo, this, if_pos (overflowMag_pos F)]

theorem fmul_zero_mag (F : Fmt) (a b : Bool) (m : Nat) : fmul F (.fin a m) (.fin b 0) = .fin (a ^^ b) 0 := by
  rw [fmul, Nat.mul_zero, roundTo_zero]

theorem ofRat_zero (F : Fmt) (neg : Bool) (den : Nat) : ofRat F neg 0 den = .fin neg 0 := by
  rw [ofRat, Nat.zero_mul, roundTo_zero]

end Sys2Proof.Machine
end

