-- ==== Sys2Proof/Laws/State.lean ====
section
/-!
SUPPORT. One lemma per field and named update of the state: what the update makes of the field.
-/

namespace Sys2Proof.Machine


/-! ### `reply` -/

@[simp] theorem reply_params (v : Word) (s : State) : (reply v s).params = s.params := rfl
@[simp] theorem reply_cmd (v : Word) (s : State) : (reply v s).cmd = s.cmd := rfl
@[simp] theorem reply_busy (v : Word) (s : State) : (reply v s).busy = s.busy := rfl
@[simp] theorem reply_done (v : Word) (s : State) : (reply v s).done = s.done := rfl
@[simp] theorem reply_err (v : Word) (s : State) : (reply v s).err = s.err := rfl
@[simp] theorem reply_ovr (v : Word) (s : State) : (reply v s).ovr = s.ovr := rfl
@[simp] theorem reply_errCode (v : Word) (s : State) : (reply v s).errCode = s.errCode := rfl
@[simp] theorem reply_ie (v : Word) (s : State) : (reply v s).ie = s.ie := rfl
@[simp] theorem reply_args (v : Word) (s : State) : (reply v s).args = s.args := rfl
@[simp] theorem reply_coefTap (v : Word) (s : State) : (reply v s).coefTap = s.coefTap := rfl
@[simp] theorem reply_coefStage (v : Word) (s : State) : (reply v s).coefStage = s.coefStage := rfl
@[simp] theorem reply_cas (v : Word) (s : State) : (reply v s).cas = s.cas := rfl
@[simp] theorem reply_larg (v : Word) (s : State) : (reply v s).larg = s.larg := rfl
@[simp] theorem reply_lcmd (v : Word) (s : State) : (reply v s).lcmd = s.lcmd := rfl
@[simp] theorem reply_result (v : Word) (s : State) : (reply v s).result = s.result := rfl
@[simp] theorem reply_fz (v : Word) (s : State) : (reply v s).fz = s.fz := rfl
@[simp] theorem reply_mem (v : Word) (s : State) : (reply v s).mem = s.mem := rfl
@[simp] theorem reply_host (v : Word) (s : State) : (reply v s).host = s.host := rfl
@[simp] theorem reply_replies (v : Word) (s : State) : (reply v s).replies = .reg v :: s.replies := rfl
@[simp] theorem reply_windows (v : Word) (s : State) : (reply v s).windows = s.windows := rfl
@[simp] theorem reply_lost (v : Word) (s : State) : (reply v s).lost = s.lost := rfl
@[simp] theorem reply_draws (v : Word) (s : State) : (reply v s).draws = s.draws := rfl

/-! ### `completeOk` -/

@[simp] theorem completeOk_params (s : State) : (completeOk s).params = s.params := rfl
@[simp] theorem completeOk_cmd (s : State) : (completeOk s).cmd = s.cmd := rfl
@[simp] theorem completeOk_busy (s : State) : (completeOk s).busy = false := rfl
@[simp] theorem completeOk_done (s : State) : (completeOk s).done = true := rfl
@[simp] theorem completeOk_err (s : State) : (completeOk s).err = false := rfl
@[simp] theorem completeOk_ovr (s : State) : (completeOk s).ovr = s.ovr := rfl
@[simp] theorem completeOk_errCode (s : State) : (completeOk s).errCode = 0#8 := rfl
@[simp] theorem completeOk_ie (s : State) : (completeOk s).ie = s.ie := rfl
@[simp] theorem completeOk_args (s : State) : (completeOk s).args = s.args := rfl
@[simp] theorem completeOk_coefTap (s : State) : (completeOk s).coefTap = s.coefTap := rfl
@[simp] theorem completeOk_coefStage (s : State) : (completeOk s).coefStage = s.coefStage := rfl
@[simp] theorem completeOk_cas (s : State) : (completeOk s).cas = s.cas := rfl
@[simp] theorem completeOk_larg (s : State) : (completeOk s).larg = s.larg := rfl
@[simp] theorem completeOk_lcmd (s : State) : (completeOk s).lcmd = s.lcmd := rfl
@[simp] theorem completeOk_result (s : State) : (completeOk s).result = s.result := rfl
@[simp] theorem completeOk_fz (s : State) : (completeOk s).fz = s.fz := rfl
@[simp] theorem completeOk_mem (s : State) : (completeOk s).mem = s.mem := rfl
@[simp] theorem completeOk_host (s : State) : (completeOk s).host = s.host := rfl
@[simp] theorem completeOk_replies (s : State) : (completeOk s).replies = s.replies := rfl
@[simp] theorem completeOk_windows (s : State) : (completeOk s).windows = s.windows := rfl
@[simp] theorem completeOk_lost (s : State) : (completeOk s).lost = s.lost := rfl
@[simp] theorem completeOk_draws (s : State) : (completeOk s).draws = s.draws := rfl

/-! ### `raiseError` -/

@[simp] theorem raiseError_params (e : Err) (s : State) : (raiseError e s).params = s.params := rfl
@[simp] theorem raiseError_cmd (e : Err) (s : State) : (raiseError e s).cmd = s.cmd := rfl
@[simp] theorem raiseError_busy (e : Err) (s : State) : (raiseError e s).busy = false := rfl
@[simp] theorem raiseError_done (e : Err) (s : State) : (raiseError e s).done = true := rfl
@[simp] theorem raiseError_err (e : Err) (s : State) : (raiseError e s).err = true := rfl
@[simp] theorem raiseError_ovr (e : Err) (s : State) : (raiseError e s).ovr = s.ovr := rfl
@[simp] theorem raiseError_errCode (e : Err) (s : State) : (raiseError e s).errCode = errCodeOf e := rfl
@[simp] theorem raiseError_ie (e : Err) (s : State) : (raiseError e s).ie = s.ie := rfl
@[simp] theorem raiseError_args (e : Err) (s : State) : (raiseError e s).args = s.args := rfl
@[simp] theorem raiseError_coefTap (e : Err) (s : State) : (raiseError e s).coefTap = s.coefTap := rfl
@[simp] theorem raiseError_coefStage (e : Err) (s : State) : (raiseError e s).coefStage = s.coefStage := rfl
@[simp] theorem raiseError_cas (e : Err) (s : State) : (raiseError e s).cas = s.cas := rfl
@[simp] theorem raiseError_larg (e : Err) (s : State) : (raiseError e s).larg = s.larg := rfl
@[simp] theorem raiseError_lcmd (e : Err) (s : State) : (raiseError e s).lcmd = s.lcmd := rfl
@[simp] theorem raiseError_result (e : Err) (s : State) : (raiseError e s).result = 0#64 := rfl
@[simp] theorem raiseError_fz (e : Err) (s : State) : (raiseError e s).fz = s.fz := rfl
@[simp] theorem raiseError_mem (e : Err) (s : State) : (raiseError e s).mem = s.mem := rfl
@[simp] theorem raiseError_host (e : Err) (s : State) : (raiseError e s).host = s.host := rfl
@[simp] theorem raiseError_replies (e : Err) (s : State) : (raiseError e s).replies = s.replies := rfl
@[simp] theorem raiseError_windows (e : Err) (s : State) : (raiseError e s).windows = s.windows := rfl
@[simp] theorem raiseError_lost (e : Err) (s : State) : (raiseError e s).lost = s.lost := rfl
@[simp] theorem raiseError_draws (e : Err) (s : State) : (raiseError e s).draws = s.draws := rfl

/-! ### `closeWindows` -/

@[simp] theorem closeWindows_params (s : State) : (closeWindows s).params = s.params := rfl
@[simp] theorem closeWindows_cmd (s : State) : (closeWindows s).cmd = s.cmd := rfl
@[simp] theorem closeWindows_busy (s : State) : (closeWindows s).busy = s.busy := rfl
@[simp] theorem closeWindows_done (s : State) : (closeWindows s).done = s.done := rfl
@[simp] theorem closeWindows_err (s : State) : (closeWindows s).err = s.err := rfl
@[simp] theorem closeWindows_ovr (s : State) : (closeWindows s).ovr = s.ovr := rfl
@[simp] theorem closeWindows_errCode (s : State) : (closeWindows s).errCode = s.errCode := rfl
@[simp] theorem closeWindows_ie (s : State) : (closeWindows s).ie = s.ie := rfl
@[simp] theorem closeWindows_args (s : State) : (closeWindows s).args = s.args := rfl
@[simp] theorem closeWindows_coefTap (s : State) : (closeWindows s).coefTap = s.coefTap := rfl
@[simp] theorem closeWindows_coefStage (s : State) : (closeWindows s).coefStage = s.coefStage := rfl
@[simp] theorem closeWindows_cas (s : State) : (closeWindows s).cas = s.cas := rfl
@[simp] theorem closeWindows_larg (s : State) : (closeWindows s).larg = s.larg := rfl
@[simp] theorem closeWindows_lcmd (s : State) : (closeWindows s).lcmd = s.lcmd := rfl
@[simp] theorem closeWindows_result (s : State) : (closeWindows s).result = s.result := rfl
@[simp] theorem closeWindows_fz (s : State) : (closeWindows s).fz = s.fz := rfl
@[simp] theorem closeWindows_mem (s : State) : (closeWindows s).mem = s.mem := rfl
@[simp] theorem closeWindows_host (s : State) : (closeWindows s).host = s.host := rfl
@[simp] theorem closeWindows_replies (s : State) : (closeWindows s).replies = s.replies := rfl
@[simp] theorem closeWindows_windows (s : State) : (closeWindows s).windows = s.windows.filter fun w => !w.ran || w.missed := rfl
@[simp] theorem closeWindows_lost (s : State) : (closeWindows s).lost = s.lost := rfl
@[simp] theorem closeWindows_draws (s : State) : (closeWindows s).draws = s.draws := rfl

/-! ### `startCommand` -/

@[simp] theorem startCommand_params (v : Word) (s : State) : (startCommand v s).params = s.params := rfl
@[simp] theorem startCommand_cmd (v : Word) (s : State) : (startCommand v s).cmd = s.cmd := rfl
@[simp] theorem startCommand_busy (v : Word) (s : State) : (startCommand v s).busy = true := rfl
@[simp] theorem startCommand_done (v : Word) (s : State) : (startCommand v s).done = false := rfl
@[simp] theorem startCommand_err (v : Word) (s : State) : (startCommand v s).err = false := rfl
@[simp] theorem startCommand_ovr (v : Word) (s : State) : (startCommand v s).ovr = s.ovr := rfl
@[simp] theorem startCommand_errCode (v : Word) (s : State) : (startCommand v s).errCode = 0#8 := rfl
@[simp] theorem startCommand_ie (v : Word) (s : State) : (startCommand v s).ie = s.ie := rfl
@[simp] theorem startCommand_args (v : Word) (s : State) : (startCommand v s).args = s.args := rfl
@[simp] theorem startCommand_coefTap (v : Word) (s : State) : (startCommand v s).coefTap = s.coefTap := rfl
@[simp] theorem startCommand_coefStage (v : Word) (s : State) : (startCommand v s).coefStage = s.coefStage := rfl
@[simp] theorem startCommand_cas (v : Word) (s : State) : (startCommand v s).cas = s.cas := rfl
@[simp] theorem startCommand_larg (v : Word) (s : State) : (startCommand v s).larg = s.args := rfl
@[simp] theorem startCommand_lcmd (v : Word) (s : State) : (startCommand v s).lcmd = v := rfl
@[simp] theorem startCommand_result (v : Word) (s : State) : (startCommand v s).result = s.result := rfl
@[simp] theorem startCommand_fz (v : Word) (s : State) : (startCommand v s).fz = s.fz := rfl
@[simp] theorem startCommand_mem (v : Word) (s : State) : (startCommand v s).mem = s.mem := rfl
@[simp] theorem startCommand_host (v : Word) (s : State) : (startCommand v s).host = s.host := rfl
@[simp] theorem startCommand_replies (v : Word) (s : State) : (startCommand v s).replies = s.replies := rfl
@[simp] theorem startCommand_windows (v : Word) (s : State) : (startCommand v s).windows = windowsAtStart v s := rfl
@[simp] theorem startCommand_lost (v : Word) (s : State) : (startCommand v s).lost = s.lost := rfl
@[simp] theorem startCommand_draws (v : Word) (s : State) : (startCommand v s).draws = s.draws := rfl

/-! ### `drawRange` -/

@[simp] theorem drawRange_params (r : Option Range) (s : State) : (drawRange r s).params = s.params := by cases r <;> rfl
@[simp] theorem drawRange_cmd (r : Option Range) (s : State) : (drawRange r s).cmd = s.cmd := by cases r <;> rfl
@[simp] theorem drawRange_busy (r : Option Range) (s : State) : (drawRange r s).busy = s.busy := by cases r <;> rfl
@[simp] theorem drawRange_done (r : Option Range) (s : State) : (drawRange r s).done = s.done := by cases r <;> rfl
@[simp] theorem drawRange_err (r : Option Range) (s : State) : (drawRange r s).err = s.err := by cases r <;> rfl
@[simp] theorem drawRange_ovr (r : Option Range) (s : State) : (drawRange r s).ovr = s.ovr := by cases r <;> rfl
@[simp] theorem drawRange_errCode (r : Option Range) (s : State) : (drawRange r s).errCode = s.errCode := by cases r <;> rfl
@[simp] theorem drawRange_ie (r : Option Range) (s : State) : (drawRange r s).ie = s.ie := by cases r <;> rfl
@[simp] theorem drawRange_args (r : Option Range) (s : State) : (drawRange r s).args = s.args := by cases r <;> rfl
@[simp] theorem drawRange_coefTap (r : Option Range) (s : State) : (drawRange r s).coefTap = s.coefTap := by cases r <;> rfl
@[simp] theorem drawRange_coefStage (r : Option Range) (s : State) : (drawRange r s).coefStage = s.coefStage := by cases r <;> rfl
@[simp] theorem drawRange_cas (r : Option Range) (s : State) : (drawRange r s).cas = s.cas := by cases r <;> rfl
@[simp] theorem drawRange_larg (r : Option Range) (s : State) : (drawRange r s).larg = s.larg := by cases r <;> rfl
@[simp] theorem drawRange_lcmd (r : Option Range) (s : State) : (drawRange r s).lcmd = s.lcmd := by cases r <;> rfl
@[simp] theorem drawRange_result (r : Option Range) (s : State) : (drawRange r s).result = s.result := by cases r <;> rfl
@[simp] theorem drawRange_fz (r : Option Range) (s : State) : (drawRange r s).fz = s.fz := by cases r <;> rfl
@[simp] theorem drawRange_host (r : Option Range) (s : State) : (drawRange r s).host = s.host := by cases r <;> rfl
@[simp] theorem drawRange_replies (r : Option Range) (s : State) : (drawRange r s).replies = s.replies := by cases r <;> rfl
@[simp] theorem drawRange_windows (r : Option Range) (s : State) : (drawRange r s).windows = s.windows := by cases r <;> rfl
@[simp] theorem drawRange_lost (r : Option Range) (s : State) : (drawRange r s).lost = s.lost := by cases r <;> rfl
@[simp] theorem drawRange_none (s : State) : drawRange none s = s := rfl

/-! ### `drawFilters` -/

@[simp] theorem drawFilters_params (s : State) : (drawFilters s).params = s.params := rfl
@[simp] theorem drawFilters_cmd (s : State) : (drawFilters s).cmd = s.cmd := rfl
@[simp] theorem drawFilters_busy (s : State) : (drawFilters s).busy = s.busy := rfl
@[simp] theorem drawFilters_done (s : State) : (drawFilters s).done = s.done := rfl
@[simp] theorem drawFilters_err (s : State) : (drawFilters s).err = s.err := rfl
@[simp] theorem drawFilters_ovr (s : State) : (drawFilters s).ovr = s.ovr := rfl
@[simp] theorem drawFilters_errCode (s : State) : (drawFilters s).errCode = s.errCode := rfl
@[simp] theorem drawFilters_ie (s : State) : (drawFilters s).ie = s.ie := rfl
@[simp] theorem drawFilters_args (s : State) : (drawFilters s).args = s.args := rfl
@[simp] theorem drawFilters_coefTap (s : State) : (drawFilters s).coefTap = s.coefTap := rfl
@[simp] theorem drawFilters_coefStage (s : State) : (drawFilters s).coefStage = s.coefStage := rfl
@[simp] theorem drawFilters_cas (s : State) : (drawFilters s).cas = { s.cas with stages := drawStages s.params.sampleFmt (taps s.params) s.draws s.cas.stages } := rfl
@[simp] theorem drawFilters_larg (s : State) : (drawFilters s).larg = s.larg := rfl
@[simp] theorem drawFilters_lcmd (s : State) : (drawFilters s).lcmd = s.lcmd := rfl
@[simp] theorem drawFilters_result (s : State) : (drawFilters s).result = s.result := rfl
@[simp] theorem drawFilters_fz (s : State) : (drawFilters s).fz = s.fz := rfl
@[simp] theorem drawFilters_mem (s : State) : (drawFilters s).mem = s.mem := rfl
@[simp] theorem drawFilters_host (s : State) : (drawFilters s).host = s.host := rfl
@[simp] theorem drawFilters_replies (s : State) : (drawFilters s).replies = s.replies := rfl
@[simp] theorem drawFilters_windows (s : State) : (drawFilters s).windows = s.windows := rfl
@[simp] theorem drawFilters_lost (s : State) : (drawFilters s).lost = s.lost := rfl
@[simp] theorem drawFilters_draws (s : State) : (drawFilters s).draws = s.draws + (2 * taps s.params + 1) * s.cas.stages.length := rfl

/-! ### `processWork` -/

@[simp] theorem processWork_params (o : ProcessOperands) (s : State) : (processWork o s).params = s.params := rfl
@[simp] theorem processWork_cmd (o : ProcessOperands) (s : State) : (processWork o s).cmd = s.cmd := rfl
@[simp] theorem processWork_busy (o : ProcessOperands) (s : State) : (processWork o s).busy = s.busy := rfl
@[simp] theorem processWork_done (o : ProcessOperands) (s : State) : (processWork o s).done = s.done := rfl
@[simp] theorem processWork_err (o : ProcessOperands) (s : State) : (processWork o s).err = s.err := rfl
@[simp] theorem processWork_ovr (o : ProcessOperands) (s : State) : (processWork o s).ovr = s.ovr := rfl
@[simp] theorem processWork_errCode (o : ProcessOperands) (s : State) : (processWork o s).errCode = s.errCode := rfl
@[simp] theorem processWork_ie (o : ProcessOperands) (s : State) : (processWork o s).ie = s.ie := rfl
@[simp] theorem processWork_args (o : ProcessOperands) (s : State) : (processWork o s).args = s.args := rfl
@[simp] theorem processWork_coefTap (o : ProcessOperands) (s : State) : (processWork o s).coefTap = s.coefTap := rfl
@[simp] theorem processWork_coefStage (o : ProcessOperands) (s : State) : (processWork o s).coefStage = s.coefStage := rfl
@[simp] theorem processWork_larg (o : ProcessOperands) (s : State) : (processWork o s).larg = s.larg := rfl
@[simp] theorem processWork_lcmd (o : ProcessOperands) (s : State) : (processWork o s).lcmd = s.lcmd := rfl
@[simp] theorem processWork_fz (o : ProcessOperands) (s : State) : (processWork o s).fz = s.fz := rfl
@[simp] theorem processWork_host (o : ProcessOperands) (s : State) : (processWork o s).host = s.host := rfl
@[simp] theorem processWork_replies (o : ProcessOperands) (s : State) : (processWork o s).replies = s.replies := rfl
@[simp] theorem processWork_windows (o : ProcessOperands) (s : State) : (processWork o s).windows = s.windows := rfl
@[simp] theorem processWork_lost (o : ProcessOperands) (s : State) : (processWork o s).lost = s.lost := rfl
@[simp] theorem processWork_result (o : ProcessOperands) (s : State) :
    (processWork o s).result = BitVec.ofNat 64 (producedLen s.cas o.n o.maxOut) := rfl

/-! ### `settleWindow` -/

@[simp] theorem settleWindow_params (r : Range) (s : State) : (settleWindow r s).params = s.params := by
  unfold settleWindow; split <;> [rfl; (split <;> [rfl; (split <;> simp)])]
@[simp] theorem settleWindow_cmd (r : Range) (s : State) : (settleWindow r s).cmd = s.cmd := by
  unfold settleWindow; split <;> [rfl; (split <;> [rfl; (split <;> simp)])]
@[simp] theorem settleWindow_busy (r : Range) (s : State) : (settleWindow r s).busy = s.busy := by
  unfold settleWindow; split <;> [rfl; (split <;> [rfl; (split <;> simp)])]
@[simp] theorem settleWindow_done (r : Range) (s : State) : (settleWindow r s).done = s.done := by
  unfold settleWindow; split <;> [rfl; (split <;> [rfl; (split <;> simp)])]
@[simp] theorem settleWindow_err (r : Range) (s : State) : (settleWindow r s).err = s.err := by
  unfold settleWindow; split <;> [rfl; (split <;> [rfl; (split <;> simp)])]
@[simp] theorem settleWindow_ovr (r : Range) (s : State) : (settleWindow r s).ovr = s.ovr := by
  unfold settleWindow; split <;> [rfl; (split <;> [rfl; (split <;> simp)])]
@[simp] theorem settleWindow_errCode (r : Range) (s : State) : (settleWindow r s).errCode = s.errCode := by
  unfold settleWindow; split <;> [rfl; (split <;> [rfl; (split <;> simp)])]
@[simp] theorem settleWindow_ie (r : Range) (s : State) : (settleWindow r s).ie = s.ie := by
  unfold settleWindow; split <;> [rfl; (split <;> [rfl; (split <;> simp)])]
@[simp] theorem settleWindow_args (r : Range) (s : State) : (settleWindow r s).args = s.args := by
  unfold settleWindow; split <;> [rfl; (split <;> [rfl; (split <;> simp)])]
@[simp] theorem settleWindow_coefTap (r : Range) (s : State) : (settleWindow r s).coefTap = s.coefTap := by
  unfold settleWindow; split <;> [rfl; (split <;> [rfl; (split <;> simp)])]
@[simp] theorem settleWindow_coefStage (r : Range) (s : State) : (settleWindow r s).coefStage = s.coefStage := by
  unfold settleWindow; split <;> [rfl; (split <;> [rfl; (split <;> simp)])]
@[simp] theorem settleWindow_larg (r : Range) (s : State) : (settleWindow r s).larg = s.larg := by
  unfold settleWindow; split <;> [rfl; (split <;> [rfl; (split <;> simp)])]
@[simp] theorem settleWindow_lcmd (r : Range) (s : State) : (settleWindow r s).lcmd = s.lcmd := by
  unfold settleWindow; split <;> [rfl; (split <;> [rfl; (split <;> simp)])]
@[simp] theorem settleWindow_result (r : Range) (s : State) : (settleWindow r s).result = s.result := by
  unfold settleWindow; split <;> [rfl; (split <;> [rfl; (split <;> simp)])]
@[simp] theorem settleWindow_fz (r : Range) (s : State) : (settleWindow r s).fz = s.fz := by
  unfold settleWindow; split <;> [rfl; (split <;> [rfl; (split <;> simp)])]
@[simp] theorem settleWindow_host (r : Range) (s : State) : (settleWindow r s).host = s.host := by
  unfold settleWindow; split <;> [rfl; (split <;> [rfl; (split <;> simp)])]
@[simp] theorem settleWindow_replies (r : Range) (s : State) : (settleWindow r s).replies = s.replies := by
  unfold settleWindow; split <;> [rfl; (split <;> [rfl; (split <;> simp)])]
@[simp] theorem settleWindow_lost (r : Range) (s : State) : (settleWindow r s).lost = s.lost := by
  unfold settleWindow; split <;> [rfl; (split <;> [rfl; (split <;> simp)])]

/-! ### `overrun` -/

@[simp] theorem overrun_params (s : State) : (overrun s).params = s.params := by simp [overrun]
@[simp] theorem overrun_cmd (s : State) : (overrun s).cmd = s.cmd := by simp [overrun]
@[simp] theorem overrun_busy (s : State) : (overrun s).busy = s.busy := by simp [overrun]
@[simp] theorem overrun_done (s : State) : (overrun s).done = s.done := by simp [overrun]
@[simp] theorem overrun_err (s : State) : (overrun s).err = s.err := by simp [overrun]
@[simp] theorem overrun_ovr (s : State) : (overrun s).ovr = true := by simp [overrun]
@[simp] theorem overrun_errCode (s : State) : (overrun s).errCode = s.errCode := by simp [overrun]
@[simp] theorem overrun_ie (s : State) : (overrun s).ie = s.ie := by simp [overrun]
@[simp] theorem overrun_args (s : State) : (overrun s).args = s.args := by simp [overrun]
@[simp] theorem overrun_coefTap (s : State) : (overrun s).coefTap = s.coefTap := by simp [overrun]
@[simp] theorem overrun_coefStage (s : State) : (overrun s).coefStage = s.coefStage := by simp [overrun]
@[simp] theorem overrun_host (s : State) : (overrun s).host = s.host := by simp [overrun]
@[simp] theorem overrun_replies (s : State) : (overrun s).replies = s.replies := by simp [overrun]
@[simp] theorem overrun_windows (s : State) : (overrun s).windows = s.windows := by simp [overrun]
@[simp] theorem overrun_lost (s : State) : (overrun s).lost = inFlightRange s := by simp [overrun]

/-! ### `hostLoad` -/

@[simp] theorem hostLoad_params (a n : Nat) (s : State) : (hostLoad a n s).params = s.params := rfl
@[simp] theorem hostLoad_cmd (a n : Nat) (s : State) : (hostLoad a n s).cmd = s.cmd := rfl
@[simp] theorem hostLoad_busy (a n : Nat) (s : State) : (hostLoad a n s).busy = s.busy := rfl
@[simp] theorem hostLoad_done (a n : Nat) (s : State) : (hostLoad a n s).done = s.done := rfl
@[simp] theorem hostLoad_err (a n : Nat) (s : State) : (hostLoad a n s).err = s.err := rfl
@[simp] theorem hostLoad_ovr (a n : Nat) (s : State) : (hostLoad a n s).ovr = s.ovr := rfl
@[simp] theorem hostLoad_errCode (a n : Nat) (s : State) : (hostLoad a n s).errCode = s.errCode := rfl
@[simp] theorem hostLoad_ie (a n : Nat) (s : State) : (hostLoad a n s).ie = s.ie := rfl
@[simp] theorem hostLoad_args (a n : Nat) (s : State) : (hostLoad a n s).args = s.args := rfl
@[simp] theorem hostLoad_coefTap (a n : Nat) (s : State) : (hostLoad a n s).coefTap = s.coefTap := rfl
@[simp] theorem hostLoad_coefStage (a n : Nat) (s : State) : (hostLoad a n s).coefStage = s.coefStage := rfl
@[simp] theorem hostLoad_cas (a n : Nat) (s : State) : (hostLoad a n s).cas = s.cas := rfl
@[simp] theorem hostLoad_larg (a n : Nat) (s : State) : (hostLoad a n s).larg = s.larg := rfl
@[simp] theorem hostLoad_lcmd (a n : Nat) (s : State) : (hostLoad a n s).lcmd = s.lcmd := rfl
@[simp] theorem hostLoad_result (a n : Nat) (s : State) : (hostLoad a n s).result = s.result := rfl
@[simp] theorem hostLoad_fz (a n : Nat) (s : State) : (hostLoad a n s).fz = s.fz := rfl
@[simp] theorem hostLoad_mem (a n : Nat) (s : State) : (hostLoad a n s).mem = s.mem := rfl
@[simp] theorem hostLoad_host (a n : Nat) (s : State) : (hostLoad a n s).host = s.host := rfl
@[simp] theorem hostLoad_replies (a n : Nat) (s : State) : (hostLoad a n s).replies = .mem ((List.range n).map (hostByte s a)) :: s.replies := rfl
@[simp] theorem hostLoad_windows (a n : Nat) (s : State) : (hostLoad a n s).windows = s.windows := rfl
@[simp] theorem hostLoad_lost (a n : Nat) (s : State) : (hostLoad a n s).lost = s.lost := rfl
@[simp] theorem hostLoad_draws (a n : Nat) (s : State) : (hostLoad a n s).draws = s.draws + n := rfl

/-! ### `resetEvent` -/

@[simp] theorem resetEvent_params (s : State) : (resetEvent s).params = s.params := rfl
@[simp] theorem resetEvent_cmd (s : State) : (resetEvent s).cmd = (State.resetOf s.params).cmd := rfl
@[simp] theorem resetEvent_busy (s : State) : (resetEvent s).busy = (State.resetOf s.params).busy := rfl
@[simp] theorem resetEvent_done (s : State) : (resetEvent s).done = (State.resetOf s.params).done := rfl
@[simp] theorem resetEvent_err (s : State) : (resetEvent s).err = (State.resetOf s.params).err := rfl
@[simp] theorem resetEvent_ovr (s : State) : (resetEvent s).ovr = (State.resetOf s.params).ovr := rfl
@[simp] theorem resetEvent_errCode (s : State) : (resetEvent s).errCode = (State.resetOf s.params).errCode := rfl
@[simp] theorem resetEvent_ie (s : State) : (resetEvent s).ie = (State.resetOf s.params).ie := rfl
@[simp] theorem resetEvent_args (s : State) : (resetEvent s).args = (State.resetOf s.params).args := rfl
@[simp] theorem resetEvent_coefTap (s : State) : (resetEvent s).coefTap = (State.resetOf s.params).coefTap := rfl
@[simp] theorem resetEvent_coefStage (s : State) : (resetEvent s).coefStage = (State.resetOf s.params).coefStage := rfl
@[simp] theorem resetEvent_cas (s : State) : (resetEvent s).cas = (State.resetOf s.params).cas := rfl
@[simp] theorem resetEvent_larg (s : State) : (resetEvent s).larg = (State.resetOf s.params).larg := rfl
@[simp] theorem resetEvent_lcmd (s : State) : (resetEvent s).lcmd = (State.resetOf s.params).lcmd := rfl
@[simp] theorem resetEvent_result (s : State) : (resetEvent s).result = (State.resetOf s.params).result := rfl
@[simp] theorem resetEvent_fz (s : State) : (resetEvent s).fz = (State.resetOf s.params).fz := rfl
@[simp] theorem resetEvent_host (s : State) : (resetEvent s).host = s.host := rfl
@[simp] theorem resetEvent_replies (s : State) : (resetEvent s).replies = s.replies := rfl
@[simp] theorem resetEvent_windows (s : State) : (resetEvent s).windows = (State.resetOf s.params).windows := rfl
@[simp] theorem resetEvent_lost (s : State) : (resetEvent s).lost = (State.resetOf s.params).lost := rfl

end Sys2Proof.Machine
end

