-- ==== Sys2Proof/Laws/Memory.lean ====
section
/-!
SUPPORT. The laws of sample memory: what a load reads after a store, that every store keeps the canonical form, and what the
shared multi-byte operations do to one byte.
-/

namespace Sys2Proof.Machine

/-! ### The canonical form -/

theorem wfAbove_cons (lo : Option Nat) (a : Nat) (b : Byte) (rest : Memory) :
    Memory.wfAbove lo ((a, b) :: rest) = true ↔
      (∀ l ∈ lo, l < a) ∧ a < addrSpace ∧ b ≠ Memory.unlisted ∧ Memory.wfAbove (some a) rest = true := by
  cases lo <;> simp [Memory.wfAbove, addrSpace, and_assoc]

theorem wfAbove_weaken {lo lo' : Option Nat} {m : Memory} (h : Memory.wfAbove lo m = true)
    (hl : ∀ l' ∈ lo', ∀ a, (∀ l ∈ lo, l < a) → l' < a) : Memory.wfAbove lo' m = true := by
  cases m with
  | nil => rfl
  | cons c rest =>
    obtain ⟨a, b⟩ := c
    rw [wfAbove_cons] at h ⊢
    exact ⟨fun l' hl' => hl l' hl' a h.1, h.2⟩

/-- Nothing stands at or below the bound. -/
theorem loadByte_of_le {l : Nat} {m : Memory} (h : Memory.wfAbove (some l) m = true) {a : Nat} (ha : a ≤ l) :
    loadByte m a = Memory.unlisted := by
  induction m generalizing l with
  | nil => rfl
  | cons c rest ih =>
    obtain ⟨k, v⟩ := c
    obtain ⟨hk, -, -, hr⟩ := (wfAbove_cons _ _ _ _).1 h
    have hk' : l < k := hk l rfl
    rw [loadByte, if_neg (by omega)]
    exact ih hr (by omega)

theorem wfAbove_storeByte {lo : Option Nat} {m : Memory} (h : Memory.wfAbove lo m = true) {a : Nat} (ha : a < addrSpace)
    (hlo : ∀ l ∈ lo, l < a) (b : Byte) : Memory.wfAbove lo (storeByte m a b) = true := by
  induction m generalizing lo with
  | nil =>
    unfold storeByte
    split
    · rfl
    · rename_i hb
      exact (wfAbove_cons _ _ _ _).2 ⟨hlo, ha, hb, rfl⟩
  | cons c rest ih =>
    obtain ⟨k, v⟩ := c
    obtain ⟨hk, hk', hv, hr⟩ := (wfAbove_cons _ _ _ _).1 h
    unfold storeByte
    split
    · split
      · exact h
      · rename_i hak hb
        exact (wfAbove_cons _ _ _ _).2 ⟨hlo, ha, hb, (wfAbove_cons _ _ _ _).2 ⟨by simpa using hak, hk', hv, hr⟩⟩
    · split
      · rename_i hak
        subst hak
        split
        · exact wfAbove_weaken hr fun l' hl' x hx => lt_trans (hk l' hl') (hx a rfl)
        · rename_i hb
          exact (wfAbove_cons _ _ _ _).2 ⟨hlo, ha, hb, hr⟩
      · rename_i h1 h2
        exact (wfAbove_cons _ _ _ _).2 ⟨hk, hk', hv, ih hr (by intro l hl; cases hl; omega)⟩

theorem wf_storeByte {m : Memory} (h : m.wf = true) {a : Nat} (ha : a < addrSpace) (b : Byte) :
    (storeByte m a b).wf = true :=
  wfAbove_storeByte h ha (by simp) b

/-! ### Loads after stores -/

theorem loadByte_storeByte_same {m : Memory} (h : m.wf = true) (a : Nat) (b : Byte) :
    loadByte (storeByte m a b) a = b := by
  suffices ∀ lo, Memory.wfAbove lo m = true → loadByte (storeByte m a b) a = b from this none h
  clear h
  intro lo h
  induction m generalizing lo with
  | nil =>
    unfold storeByte
    split
    · rename_i hb; simp [loadByte, hb]
    · simp [loadByte]
  | cons c rest ih =>
    obtain ⟨k, v⟩ := c
    obtain ⟨-, -, -, hr⟩ := (wfAbove_cons _ _ _ _).1 h
    unfold storeByte
    split
    · split
      · rename_i hak hb
        rw [loadByte, if_neg (by omega), hb]
        exact loadByte_of_le hr (by omega)
      · simp [loadByte]
    · split
      · rename_i hak
        subst hak
        split
        · rename_i hb
          rw [hb]
          exact loadByte_of_le hr le_rfl
        · simp [loadByte]
      · rename_i h1 h2
        rw [loadByte, if_neg h2]
        exact ih _ hr

theorem loadByte_storeByte_other (m : Memory) {a c : Nat} (h : c ≠ a) (b : Byte) :
    loadByte (storeByte m a b) c = loadByte m c := by
  induction m with
  | nil =>
    unfold storeByte
    split
    · rfl
    · simp [loadByte, h]
  | cons e rest ih =>
    obtain ⟨k, v⟩ := e
    unfold storeByte
    split
    · split
      · rfl
      · simp [loadByte, h]
    · split
      · rename_i hak
        subst hak
        split
        · simp [loadByte, h]
        · simp [loadByte, h]
      · simp only [loadByte]
        rw [ih]

/-! ### Little-endian values -/

theorem wf_memStore {m : Memory} (h : m.wf = true) {a : Nat} (n v : Nat) (ha : n = 0 ∨ a + n ≤ addrSpace) :
    (memStore m a n v).wf = true := by
  induction n generalizing m a v with
  | zero => exact h
  | succ n ih => exact ih (wf_storeByte h (by omega) _) _ (by omega)

theorem loadByte_memStore_other (m : Memory) {a n c : Nat} (v : Nat) (h : c < a ∨ a + n ≤ c) :
    loadByte (memStore m a n v) c = loadByte m c := by
  induction n generalizing m a v with
  | zero => rfl
  | succ n ih =>
    rw [memStore, ih _ _ (by omega), loadByte_storeByte_other _ (by omega)]

theorem memLoad_congr {m m' : Memory} {a n : Nat} (h : ∀ c, a ≤ c → c < a + n → loadByte m c = loadByte m' c) :
    memLoad m a n = memLoad m' a n := by
  induction n generalizing a with
  | zero => rfl
  | succ n ih =>
    rw [memLoad, memLoad, h a le_rfl (by omega), ih fun c h1 h2 => h c (by omega) (by omega)]

theorem memLoad_memStore_other (m : Memory) {a n c k : Nat} (v : Nat) (h : c + k ≤ a ∨ a + n ≤ c) :
    memLoad (memStore m a n v) c k = memLoad m c k :=
  memLoad_congr fun _ _ _ => loadByte_memStore_other m v (by omega)

theorem memLoad_memStore {m : Memory} (h : m.wf = true) {a : Nat} (n v : Nat) (ha : n = 0 ∨ a + n ≤ addrSpace) :
    memLoad (memStore m a n v) a n = v % 256 ^ n := by
  induction n generalizing m a v with
  | zero => simp [memLoad, Nat.mod_one]
  | succ n ih =>
    have h' : (storeByte m a (BitVec.ofNat 8 v)).wf = true := wf_storeByte h (by omega) _
    have hv : v % 256 ^ (n + 1) = v % 256 + 256 * (v / 256 % 256 ^ n) := by rw [pow_succ', Nat.mod_mul]
    rw [memLoad, memStore, loadByte_memStore_other _ _ (by omega), loadByte_storeByte_same h, ih h' _ (by omega),
      BitVec.toNat_ofNat, hv]

theorem memLoad_lt (m : Memory) (a n : Nat) : memLoad m a n < 256 ^ n := by
  induction n generalizing a with
  | zero => simp [memLoad]
  | succ n ih =>
    have h1 := ih (a + 1)
    have h2 := (loadByte m a).isLt
    rw [memLoad, pow_succ']
    omega

/-- A byte of a little-endian load. -/
theorem memLoad_byte (m : Memory) (a : Nat) {n i : Nat} (hi : i < n) :
    memLoad m a n / 256 ^ i % 256 = (loadByte m (a + i)).toNat := by
  induction n generalizing a i with
  | zero => omega
  | succ n ih =>
    have h2 := (loadByte m a).isLt
    rw [memLoad]
    cases i with
    | zero => rw [pow_zero, Nat.div_one, Nat.add_mul_mod_self_left, Nat.add_zero]; exact Nat.mod_eq_of_lt h2
    | succ i =>
      rw [pow_succ', ← Nat.div_div_eq_div_mul, Nat.add_mul_div_left _ _ (by norm_num), Nat.div_eq_of_lt h2, Nat.zero_add,
        ih (a + 1) (by omega)]
      congr 2
      omega

/-! ### Lists of bytes and free bytes -/

theorem wf_storeBytes {m : Memory} (h : m.wf = true) {a : Nat} (bs : List Byte) (ha : bs = [] ∨ a + bs.length ≤ addrSpace) :
    (storeBytes m a bs).wf = true := by
  induction bs generalizing m a with
  | nil => exact h
  | cons b rest ih =>
    simp only [List.length_cons, reduceCtorEq, false_or] at ha
    exact ih (wf_storeByte h (by omega) _) (by right; omega)

theorem loadByte_storeBytes_other (m : Memory) {a c : Nat} (bs : List Byte) (h : c < a ∨ a + bs.length ≤ c) :
    loadByte (storeBytes m a bs) c = loadByte m c := by
  induction bs generalizing m a with
  | nil => rfl
  | cons b rest ih =>
    simp only [List.length_cons] at h
    rw [storeBytes, ih _ (by omega), loadByte_storeByte_other _ (by omega)]

theorem loadByte_storeBytes {m : Memory} (h : m.wf = true) {a : Nat} (bs : List Byte) (ha : a + bs.length ≤ addrSpace) {i : Nat}
    {b : Byte} (hb : bs[i]? = some b) : loadByte (storeBytes m a bs) (a + i) = b := by
  induction bs generalizing m a i with
  | nil => simp at hb
  | cons x rest ih =>
    simp only [List.length_cons] at ha
    cases i with
    | zero =>
      cases hb
      rw [storeBytes, loadByte_storeBytes_other _ rest (by omega)]
      exact loadByte_storeByte_same h a _
    | succ j =>
      rw [storeBytes, show a + (j + 1) = a + 1 + j by omega]
      exact ih (wf_storeByte h (by omega) x) (by omega) (by simpa using hb)

theorem wf_drawBytes {m : Memory} (h : m.wf = true) {a : Nat} (i n : Nat) (ha : n = 0 ∨ a + n ≤ addrSpace) :
    (drawBytes m a i n).wf = true := by
  induction n generalizing m a i with
  | zero => exact h
  | succ n ih => exact ih (wf_storeByte h (by omega) _) _ (by omega)

theorem loadByte_drawBytes_other (m : Memory) {a c : Nat} (i n : Nat) (h : c < a ∨ a + n ≤ c) :
    loadByte (drawBytes m a i n) c = loadByte m c := by
  induction n generalizing m a i with
  | zero => rfl
  | succ n ih =>
    rw [drawBytes, ih _ _ (by omega), loadByte_storeByte_other _ (by omega)]

theorem loadByte_drawBytes {m : Memory} (h : m.wf = true) {a : Nat} (i n k : Nat) (ha : a + n ≤ addrSpace) (hk : k < n) :
    loadByte (drawBytes m a i n) (a + k) = Config.freeByte (i + k) := by
  induction n generalizing m a i k with
  | zero => omega
  | succ n ih =>
    have h' : (storeByte m a (Config.freeByte i)).wf = true := wf_storeByte h (by omega) _
    rw [drawBytes]
    cases k with
    | zero => rw [loadByte_drawBytes_other _ _ _ (by omega), Nat.add_zero, loadByte_storeByte_same h, Nat.add_zero]
    | succ k =>
      have := ih h' (i + 1) k (by omega) (by omega) (a := a + 1)
      rwa [show a + 1 + k = a + (k + 1) by omega, show i + 1 + k = i + (k + 1) by omega] at this

/-! ### Samples -/

theorem partBytes_pos (F : Fmt) : 0 < partBytes F := by cases F <;> decide

theorem wf_writeSample {F : Fmt} {m : Memory} (h : m.wf = true) {a : Nat} (z : Sample) (ha : a + sampleBytes F ≤ addrSpace) :
    (writeSample F m a z).wf = true := by
  unfold sampleBytes at ha
  exact wf_memStore (wf_memStore h _ _ (by omega)) _ _ (by omega)

theorem loadByte_writeSample_other (F : Fmt) (m : Memory) {a c : Nat} (z : Sample) (h : c < a ∨ a + sampleBytes F ≤ c) :
    loadByte (writeSample F m a z) c = loadByte m c := by
  unfold sampleBytes at h
  rw [writeSample, loadByte_memStore_other _ _ (by omega), loadByte_memStore_other _ _ (by omega)]

theorem readSample_congr {F : Fmt} {m m' : Memory} {a : Nat}
    (h : ∀ c, a ≤ c → c < a + sampleBytes F → loadByte m c = loadByte m' c) : readSample F m a = readSample F m' a := by
  unfold sampleBytes at h
  rw [readSample, readSample, memLoad_congr fun c h1 h2 => h c h1 (by omega),
    memLoad_congr (a := a + partBytes F) fun c h1 h2 => h c (by omega) (by omega)]

theorem readSample_fits (F : Fmt) (m : Memory) (a : Nat) : (readSample F m a).fits F := by
  constructor <;>
  · simp only [readSample, BitVec.toNat_ofNat]
    exact lt_of_le_of_lt (Nat.mod_le _ _) (memLoad_lt _ _ _)

theorem readSample_writeSample {F : Fmt} {m : Memory} (h : m.wf = true) {a : Nat} (ha : a + sampleBytes F ≤ addrSpace)
    {z : Sample} (hz : z.fits F) : readSample F (writeSample F m a z) a = z := by
  unfold sampleBytes at ha
  have h1 := wf_memStore h (partBytes F) z.re.toNat (a := a) (by omega)
  rw [readSample, writeSample, memLoad_memStore_other _ _ (by omega), memLoad_memStore h _ _ (by omega),
    memLoad_memStore h1 _ _ (by omega), Nat.mod_eq_of_lt hz.1, Nat.mod_eq_of_lt hz.2]
  simp

theorem wf_writeSamples {F : Fmt} {m : Memory} (h : m.wf = true) {b : Nat} (zs : List Sample)
    (hb : zs = [] ∨ b + zs.length * sampleBytes F ≤ addrSpace) : (writeSamples F m b zs).wf = true := by
  induction zs generalizing m b with
  | nil => exact h
  | cons z rest ih =>
    simp only [List.length_cons, reduceCtorEq, false_or, Nat.add_mul, Nat.one_mul] at hb
    exact ih (wf_writeSample h _ (by omega)) (by right; omega)

theorem loadByte_writeSamples_other (F : Fmt) (m : Memory) {b c : Nat} (zs : List Sample)
    (h : c < b ∨ b + zs.length * sampleBytes F ≤ c) : loadByte (writeSamples F m b zs) c = loadByte m c := by
  induction zs generalizing m b with
  | nil => rfl
  | cons z rest ih =>
    simp only [List.length_cons, Nat.add_mul, Nat.one_mul] at h
    rw [writeSamples, ih _ (by omega), loadByte_writeSample_other _ _ _ (by omega)]

/-- Each sample written reads back (20_memory.md R66, R67). -/
theorem readSample_writeSamples {F : Fmt} {m : Memory} (h : m.wf = true) {b : Nat} {zs : List Sample}
    (hb : b + zs.length * sampleBytes F ≤ addrSpace) (hz : ∀ z ∈ zs, z.fits F) {j : Nat} (hj : j < zs.length) :
    readSample F (writeSamples F m b zs) (b + j * sampleBytes F) = zs[j] := by
  induction zs generalizing m b j with
  | nil => simp at hj
  | cons z rest ih =>
    simp only [List.length_cons, Nat.add_mul, Nat.one_mul] at hb hj
    have hw : (writeSample F m b z).wf = true := wf_writeSample h _ (by omega)
    rw [writeSamples]
    cases j with
    | zero =>
      rw [Nat.zero_mul, Nat.add_zero]
      refine (readSample_congr fun c h1 h2 => loadByte_writeSamples_other F _ rest (by omega)).trans ?_
      exact readSample_writeSample h (by omega) (hz z (by simp))
    | succ j =>
      have := ih hw (by omega) (fun z hz' => hz z (by simp [hz'])) (j := j) (by omega) (b := b + sampleBytes F)
      rw [show b + (j + 1) * sampleBytes F = b + sampleBytes F + j * sampleBytes F by ring, this]
      rfl

/-! ### The range of free bytes -/

theorem wf_drawRange {r : Option Range} {s : State} (h : s.mem.wf = true) (hr : ∀ x ∈ r, x.inSpace) :
    (drawRange r s).mem.wf = true := by
  cases r with
  | none => exact h
  | some r => exact wf_drawBytes h _ _ (hr r rfl)

theorem loadByte_drawRange_other (r : Option Range) (s : State) {c : Nat} (h : ∀ x ∈ r, c < x.base ∨ x.base + x.len ≤ c) :
    loadByte (drawRange r s).mem c = loadByte s.mem c := by
  cases r with
  | none => rfl
  | some r => exact loadByte_drawBytes_other _ _ _ (h r rfl)

theorem loadByte_drawRange {r : Range} {s : State} (h : s.mem.wf = true) (hr : r.inSpace) {k : Nat} (hk : k < r.len) :
    loadByte (drawRange (some r) s).mem (r.base + k) = Config.freeByte (s.draws + k) :=
  loadByte_drawBytes h _ _ _ (by rcases hr with h | h <;> omega) hk

/-- Equal samples are equal bytes. -/
theorem readSample_bytes {F : Fmt} {m m' : Memory} {a a' : Nat} (h : readSample F m a = readSample F m' a') {r : Nat}
    (hr : r < sampleBytes F) : loadByte m (a + r) = loadByte m' (a' + r) := by
  have inj : ∀ {x y : Nat}, x < 256 ^ partBytes F → y < 256 ^ partBytes F → BitVec.ofNat 64 x = BitVec.ofNat 64 y → x = y := by
    intro x y hx hy e
    have h64 : 256 ^ partBytes F ≤ 2 ^ 64 := by cases F <;> decide
    have := congrArg BitVec.toNat e
    rwa [BitVec.toNat_ofNat, BitVec.toNat_ofNat, Nat.mod_eq_of_lt (by omega), Nat.mod_eq_of_lt (by omega)] at this
  simp only [readSample, Sample.mk.injEq] at h
  have h1 := inj (memLoad_lt _ _ _) (memLoad_lt _ _ _) h.1
  have h2 := inj (memLoad_lt _ _ _) (memLoad_lt _ _ _) h.2
  unfold sampleBytes at hr
  apply BitVec.eq_of_toNat_eq
  by_cases hp : r < partBytes F
  · rw [← memLoad_byte m a hp, ← memLoad_byte m' a' hp, h1]
  · obtain ⟨q, rfl⟩ : ∃ q, r = partBytes F + q := ⟨r - partBytes F, by omega⟩
    rw [← Nat.add_assoc, ← Nat.add_assoc, ← memLoad_byte m (a + partBytes F) (show q < partBytes F by omega),
      ← memLoad_byte m' (a' + partBytes F) (show q < partBytes F by omega), h2]

end Sys2Proof.Machine
end

