-- ==== Sys2Proof/Laws/Operands.lean ====
section
/-!
SUPPORT. The laws of the operand checks: the tap count, lengths, what passing the checks of a PROCESS says, and that every range
the engine may write lies in sample memory.
-/

namespace Sys2Proof.Machine

theorem taps_odd (p : Params) : taps p % 2 = 1 := by unfold taps; split <;> omega

theorem taps_pos (p : Params) : 0 < taps p := by have := taps_odd p; omega

theorem taps_lt (p : Params) : taps p < 2 ^ 16 := by
  have := p.tapsCfg_le
  unfold taps; split <;> omega

theorem ceilDiv_zero (b : Nat) : ceilDiv 0 b = 0 := by
  unfold ceilDiv
  rcases Nat.eq_zero_or_pos b with rfl | h
  · rfl
  · exact Nat.div_eq_of_lt (by omega)

theorem keptLen_zero (S : Nat) (fs : List Nat) : keptLen S fs 0 = 0 := by
  unfold keptLen
  induction fs with
  | nil => rfl
  | cons f fs ih => rw [List.foldl_cons, ceilDiv_zero, Nat.zero_min]; exact ih

theorem producedLen_le (c : Cascade) (n maxOut : Nat) : producedLen c n maxOut ≤ maxOut := Nat.min_le_right _ _

/-- A buffer passes its check exactly when it is empty, or aligned and in range (43_cascade.md R175). -/
theorem checkBuffer_none (p : Params) (b m : Nat) :
    checkBuffer p b m = none ↔ m = 0 ∨ (b % partBytes p.sampleFmt = 0 ∧ inRange p b m = true) := by
  unfold checkBuffer
  by_cases hm : m = 0
  · simp [hm]
  · by_cases hb : b % partBytes p.sampleFmt = 0 <;> by_cases hr : inRange p b m = true <;> simp [hm, hb, hr]

/-- A PROCESS passes its checks exactly when the block is configured and both buffers do (43_cascade.md R167, R175). -/
theorem processCheck_none (p : Params) (c : Cascade) (o : ProcessOperands) :
    processCheck p c o = none ↔
      c.cfg = true ∧ checkBuffer p o.inB o.n = none ∧ checkBuffer p o.outB (producedLen c o.n o.maxOut) = none := by
  unfold processCheck checkBuffers
  cases h : c.cfg <;> simp [Option.or_eq_none_iff]

theorem inRange_le {p : Params} {b m : Nat} (h : inRange p b m = true) : b + m * sampleBytes p.sampleFmt ≤ addrSpace := by
  unfold inRange at h
  simp only [Bool.and_eq_true, decide_eq_true_eq] at h
  exact h.1

/-- The bytes a checked PROCESS writes exist (20_memory.md R65). -/
theorem processOutput_inSpace {p : Params} {c : Cascade} {o : ProcessOperands} (h : processCheck p c o = none) :
    (processOutput p c o).inSpace := by
  obtain ⟨-, -, h⟩ := (processCheck_none p c o).1 h
  rcases (checkBuffer_none _ _ _).1 h with h | h
  · left; simp [processOutput, h]
  · right; exact inRange_le h.2

theorem existing_inSpace (r : Range) : r.existing.inSpace := by
  simp only [Range.inSpace, Range.existing]
  omega

theorem existing_of_inSpace {r : Range} (h : r.inSpace) : r.existing = r := by
  cases r with
  | mk base len =>
    simp only [Range.inSpace] at h
    simp only [Range.existing, Range.mk.injEq, true_and]
    omega

theorem racedRange_inSpace (s : State) : (racedRange s).inSpace := existing_inSpace _

/-- Where the checks pass, a race frees exactly the output range (70_reset_and_hazards.md R266 (b)). -/
theorem racedRange_of_passes {s : State} (h : processCheck s.params s.cas (processOperands s.larg) = none) :
    racedRange s = processOutput s.params s.cas (processOperands s.larg) :=
  existing_of_inSpace (processOutput_inSpace h)

theorem inFlightRange_inSpace (s : State) : ∀ r ∈ inFlightRange s, r.inSpace := by
  intro r hr
  unfold inFlightRange at hr
  split at hr
  · split at hr
    · rename_i h
      simp only [Option.mem_def, Option.some.injEq] at hr
      exact hr ▸ processOutput_inSpace h
    · simp at hr
  · simp at hr

@[simp] theorem readSamples_length (F : Fmt) (m : Memory) (b n : Nat) : (readSamples F m b n).length = n := by
  simp [readSamples]

theorem readSamples_fits (F : Fmt) (m : Memory) (b n : Nat) : ∀ z ∈ readSamples F m b n, z.fits F := by
  intro z hz
  simp only [readSamples, List.mem_map] at hz
  obtain ⟨i, -, rfl⟩ := hz
  exact readSample_fits F m _

/-! ### Lengths -/

theorem ceilDiv_ceilDiv (n : Nat) {a b : Nat} (ha : 0 < a) (hb : 0 < b) : ceilDiv (ceilDiv n a) b = ceilDiv n (a * b) := by
  have hx : ∀ n c, 0 < c → ∀ q, ceilDiv n c ≤ q ↔ n ≤ q * c := by
    intro n c hc q
    unfold ceilDiv
    rw [Nat.div_le_iff_le_mul_add_pred hc]
    rw [Nat.mul_comm c q]; omega
  apply le_antisymm
  · rw [hx _ _ hb, hx _ _ ha]
    have := (hx n (a*b) (by positivity) _).1 le_rfl
    calc _ ≤ _ := this
      _ = _ := by ring
  · rw [hx _ _ (by positivity)]
    have h1 := (hx _ _ hb _).1 (le_refl (ceilDiv (ceilDiv n a) b))
    have h2 := (hx _ _ ha _).1 (le_refl (ceilDiv n a))
    calc n ≤ _ := h2
      _ ≤ _ := Nat.mul_le_mul_right a h1
      _ = _ := by ring

theorem ceilDiv_le (n : Nat) {a : Nat} (ha : 0 < a) : ceilDiv n a ≤ n := by
  unfold ceilDiv
  rw [Nat.div_le_iff_le_mul_add_pred ha]
  have : n ≤ a * n := Nat.le_mul_of_pos_left _ ha
  omega

/-- Where the first stage is not cut at the scratch size, no stage is (43_cascade.md R168). -/
theorem keptLen_untruncated {S : Nat} {fs : List Nat} (hp : ∀ f ∈ fs, 0 < f) {n : Nat} (h : ∀ f ∈ fs.head?, ceilDiv n f ≤ S) :
    keptLen S fs n = ceilDiv n fs.prod := by
  induction fs generalizing n with
  | nil => simp [keptLen, ceilDiv]
  | cons f fs ih =>
    have h1 : ceilDiv n f ≤ S := h f rfl
    have : keptLen S (f :: fs) n = keptLen S fs (min (ceilDiv n f) S) := rfl
    rw [this, Nat.min_eq_left h1, ih (fun f hf => hp f (by simp [hf])), List.prod_cons, ceilDiv_ceilDiv n (hp f (by simp))
      (List.prod_pos fun f hf => hp f (by simp [hf]))]
    intro g hg
    exact le_trans (ceilDiv_le _ (hp g (by simp [List.mem_of_mem_head? hg]))) h1

end Sys2Proof.Machine
end

