-- ==== Sys2Proof/Laws/Designer.lean ====
section
/-!
SUPPORT. The laws of the filter designer and of CREATE: the length of a designed set, and that a configuration which CREATE
commits meets the invariant.
-/

namespace Sys2Proof.Machine

theorem rawTaps_length (sin cos : Word → Word) (f : Nat) {T : Nat} (hT : T % 2 = 1) :
    (rawTaps sin cos f T).length = T := by
  simp [rawTaps, centreTap]
  omega

theorem design_some {sin cos : Word → Word} {F : Fmt} {f T : Nat} {c : List Word} (h : design sin cos F f T = some c) :
    c = ((rawTaps sin cos f T).map (storedTap F (tapSum (rawTaps sin cos f T)))).map (pack F 0#64) ∧
    ∀ v ∈ (rawTaps sin cos f T).map (storedTap F (tapSum (rawTaps sin cos f T))), isNonFinite v = false := by
  unfold design at h
  dsimp only at h
  split at h
  · simp at h
  · split at h
    · simp at h
    · rename_i hf
      exact ⟨by simpa using h.symm, by simpa using hf⟩

theorem design_length {sin cos : Word → Word} {F : Fmt} {f T : Nat} {c : List Word} (hT : T % 2 = 1)
    (h : design sin cos F f T = some c) : c.length = T := by
  rw [(design_some h).1, List.length_map, List.length_map, rawTaps_length sin cos f hT]

/-- What `designStages` answers, stage by stage (43_cascade.md R161). -/
theorem designStages_some {sin cos : Word → Word} {F : Fmt} {T : Nat} {fs : List Nat} {sts : List Stage}
    (h : designStages sin cos F T fs = some sts) :
    sts.map Stage.factor = fs ∧
    ∀ st ∈ sts, design sin cos F st.factor T = some st.coef ∧ st.delay = List.replicate T Sample.zero ∧ st.cursor = 0 := by
  induction fs generalizing sts with
  | nil => simp [designStages] at h; subst h; simp
  | cons f fs ih =>
    unfold designStages at h
    split at h
    · simp at h
    · rename_i coef hc
      split at h
      · simp at h
      · rename_i rest hr
        obtain ⟨h1, h2⟩ := ih hr
        simp only [Option.some.injEq] at h
        subst h
        refine ⟨by simp [freshStage, h1], ?_⟩
        intro st hst
        rcases List.mem_cons.1 hst with rfl | hst
        · exact ⟨hc, rfl, rfl⟩
        · exact h2 st hst

theorem designStages_none {sin cos : Word → Word} {F : Fmt} {T : Nat} {fs : List Nat} :
    designStages sin cos F T fs = none ↔ ∃ f ∈ fs, design sin cos F f T = none := by
  induction fs with
  | nil => simp [designStages]
  | cons f fs ih =>
    unfold designStages
    split
    · rename_i h; simp [h]
    · rename_i coef h
      split
      · rename_i h'
        simp [h, ih.1 h']
      · rename_i rest h'
        have : ¬ ∃ f ∈ fs, design sin cos F f T = none := by rw [← ih, h']; simp
        simp [h]
        simpa using this

theorem ratioOf_some {ties : Ties} {x y : Fp} {r : Nat} (h : ratioOf ties x y = some r) : 1 ≤ r ∧ r ≤ ratioMax := by
  unfold ratioOf at h
  split at h
  · split at h
    · simp at h
    · rename_i hr
      simp only [Option.some.injEq] at h
      subst h
      exact ⟨Nat.le_max_right _ _, by omega⟩
  · simp at h

/-- Every way in which CREATE's configuration comes about (43_cascade.md R161). -/
theorem createCascade_ok {p : Params} {o : CreateOperands} {c : Cascade} (h : createCascade p o = .ok c) :
    ratesValid o = true ∧
    ∃ r stages, ratioOf p.ratioTies o.inRate o.outRate = some r ∧ scratchSize p o.maxLen ≤ p.scratchCap ∧
      designStages Config.sin Config.cos p.sampleFmt (taps p) (factorize r) = some stages ∧
      c = { cfg := true, ratio := r, stages := stages, scratch := scratchSize p o.maxLen,
            achieved := achievedRate o.inRate r } := by
  unfold createCascade at h
  split at h
  · simp at h
  · rename_i hv
    split at h
    · simp at h
    · rename_i r hr
      split at h
      · simp at h
      · rename_i hS
        split at h
        · simp at h
        · rename_i stages hd
          simp only [Except.ok.injEq] at h
          exact ⟨by simpa using hv, r, stages, hr, by omega, hd, h.symm⟩

theorem minScratch_le_scratchSize (p : Params) (n : Int) : p.minScratch ≤ scratchSize p n := by
  unfold scratchSize; omega

/-- A committed configuration is one the invariant allows (43_cascade.md R165). -/
theorem createCascade_cascadeOk {p : Params} {o : CreateOperands} {c : Cascade} (h : createCascade p o = .ok c) :
    cascadeOk p c := by
  obtain ⟨-, r, stages, hr, hS, hd, rfl⟩ := createCascade_ok h
  obtain ⟨h1, h2⟩ := ratioOf_some hr
  obtain ⟨h3, h4⟩ := designStages_some hd
  unfold cascadeOk
  rw [if_pos rfl]
  refine ⟨h1, h2, h3, ?_, minScratch_le_scratchSize p _, hS⟩
  intro st hst
  obtain ⟨g1, g2, g3⟩ := h4 st hst
  exact ⟨g1, by simp [g2], by rw [g3]; exact taps_pos p⟩

/-- The scale of the sinc is finite for every factor (41_filter_design.md R123). -/
theorem cutoffScale_finite {f : Nat} (hf : 1 ≤ f) : ∃ m, cutoffScale f = .fin false m := by
  obtain ⟨c, h45, hc⟩ : ∃ c, ofRat .binary64 false 45 100 = .fin false c ∧ c ≤ 2 ^ unitExp .binary64 :=
    ⟨8106479329266893 * 2 ^ 1020, by decide +kernel, by decide +kernel⟩
  have h2 : f64Nat 2 = .fin false (2 * 2 ^ unitExp .binary64) := by decide +kernel
  have ho : 8 * 2 ^ unitExp .binary64 < overflowMag .binary64 := by decide +kernel
  have hu : 0 < 2 ^ unitExp .binary64 := by positivity
  unfold cutoffScale
  rw [h45, h2]
  have key : ∃ m, fdiv .binary64 (.fin false c) (f64Nat f) = .fin false m ∧ m ≤ 2 * 2 ^ unitExp .binary64 + 1 := by
    unfold f64Nat ofRat
    rw [roundTo]
    split
    · have hge : 2 ^ unitExp .binary64 ≤ roundMag (precision .binary64) (f * 2 ^ unitExp .binary64) 1 :=
        roundMag_ge (by decide) one_pos (by rw [Nat.mul_one]; exact Nat.le_mul_of_pos_left _ hf)
      generalize roundMag (precision .binary64) (f * 2 ^ unitExp .binary64) 1 = n at hge
      have hn : 0 < n := by omega
      have hq : c * 2 ^ unitExp .binary64 / n ≤ 2 ^ unitExp .binary64 := by
        refine Nat.div_le_of_le_mul ?_
        exact Nat.mul_le_mul (by omega) le_rfl
      rw [fdiv, if_neg hn.ne', roundTo_small (by omega)]
      exact ⟨_, rfl, le_trans (roundMag_le (by decide)) (by omega)⟩
    · exact ⟨0, rfl, Nat.zero_le _⟩
  obtain ⟨m, h, hm⟩ := key
  rw [h, fmul]
  have : 2 * 2 ^ unitExp .binary64 * m / 2 ^ unitExp .binary64 = 2 * m := by
    rw [show 2 * 2 ^ unitExp .binary64 * m = 2 * m * 2 ^ unitExp .binary64 by ring, Nat.mul_div_cancel _ hu]
  have h16 : 16 * 2 ^ unitExp .binary64 < overflowMag .binary64 := by decide +kernel
  rw [roundTo_small (by rw [this]; omega)]
  exact ⟨_, rfl⟩

end Sys2Proof.Machine
end

