-- ==== Sys2Proof/Laws/Fir.lean ====
section
/-!
SUPPORT. The laws of the FIR step, of one stage's pass and of the chain of stages: what they keep, how many samples they make,
how two passes join, and the delay line as the history of the last `T` inputs.
-/

namespace Sys2Proof.Machine

/-! ### One step -/

@[simp] theorem storeSample_factor (T : Nat) (st : Stage) (x : Sample) : (storeSample T st x).factor = st.factor := rfl
@[simp] theorem storeSample_coef (T : Nat) (st : Stage) (x : Sample) : (storeSample T st x).coef = st.coef := rfl
@[simp] theorem storeSample_delay (T : Nat) (st : Stage) (x : Sample) : (storeSample T st x).delay = storedLine st x := rfl
@[simp] theorem storeSample_cursor (T : Nat) (st : Stage) (x : Sample) :
    (storeSample T st x).cursor = (st.cursor + 1) % T := rfl
@[simp] theorem storedLine_length (st : Stage) (x : Sample) : (storedLine st x).length = st.delay.length := by
  simp [storedLine]

theorem laneSum_ofFormat (F : Fmt) (T : Nat) (coef lane : List Word) (p : Nat) : (laneSum F T coef lane p).ofFormat F := by
  unfold laneSum
  generalize List.range T = l
  suffices ∀ acc : Fp, acc.ofFormat F → (l.foldl (fun acc j => fadd F acc
      (fmul F (unpack F (coef.getD j 0#64)) (unpack F (lane.getD ((p + T - j) % T) 0#64)))) acc).ofFormat F from
    this _ (ofFormat_zero F _)
  induction l with
  | nil => exact fun acc h => h
  | cons j l ih => exact fun acc h => ih _ (fadd_ofFormat F _ _ h (fmul_ofFormat F _ _))

theorem laneSum_ne_negZero (F : Fmt) (T : Nat) (coef lane : List Word) (p : Nat) :
    laneSum F T coef lane p ≠ .fin true 0 := by
  unfold laneSum
  generalize List.range T = l
  suffices ∀ acc : Fp, acc ≠ .fin true 0 → l.foldl (fun acc j => fadd F acc
      (fmul F (unpack F (coef.getD j 0#64)) (unpack F (lane.getD ((p + T - j) % T) 0#64)))) acc ≠ .fin true 0 from
    this _ (by simp)
  induction l with
  | nil => exact fun acc h => h
  | cons j l ih => exact fun acc h => ih _ (fadd_ne_negZero F _ h)

theorem firOutput_fits (F : Fmt) (T dr : Nat) (st : Stage) (x : Sample) : (firOutput F T dr st x).fits F :=
  ⟨pack_fits (laneSum_ofFormat F T _ _ _) _, pack_fits (laneSum_ofFormat F T _ _ _) _⟩

/-! ### One stage -/

@[simp] theorem runStage_nil (F : Fmt) (T dr i : Nat) (st : Stage) : runStage F T dr i st [] = ([], st) := rfl

theorem runStage_cons (F : Fmt) (T dr i : Nat) (st : Stage) (x : Sample) (xs : List Sample) :
    runStage F T dr i st (x :: xs) =
      (if i % st.factor = 0 then firOutput F T dr st x :: (runStage F T (dr + 2) (i + 1) (storeSample T st x) xs).1
       else (runStage F T (dr + 2) (i + 1) (storeSample T st x) xs).1,
       (runStage F T (dr + 2) (i + 1) (storeSample T st x) xs).2) := rfl

/-- The stage after a pass: every sample stored in order (43_cascade.md R169, R176). -/
theorem runStage_stage (F : Fmt) (T dr i : Nat) (st : Stage) (xs : List Sample) :
    (runStage F T dr i st xs).2 = xs.foldl (storeSample T) st := by
  induction xs generalizing dr i st with
  | nil => rfl
  | cons x xs ih => rw [runStage_cons, List.foldl_cons]; exact ih _ _ _

@[simp] theorem storeAll_factor (T : Nat) (st : Stage) (xs : List Sample) :
    (xs.foldl (storeSample T) st).factor = st.factor := by
  induction xs generalizing st with
  | nil => rfl
  | cons x xs ih => rw [List.foldl_cons, ih]; rfl

@[simp] theorem storeAll_coef (T : Nat) (st : Stage) (xs : List Sample) :
    (xs.foldl (storeSample T) st).coef = st.coef := by
  induction xs generalizing st with
  | nil => rfl
  | cons x xs ih => rw [List.foldl_cons, ih]; rfl

@[simp] theorem storeAll_delay_length (T : Nat) (st : Stage) (xs : List Sample) :
    (xs.foldl (storeSample T) st).delay.length = st.delay.length := by
  induction xs generalizing st with
  | nil => rfl
  | cons x xs ih => rw [List.foldl_cons, ih]; simp

theorem storeAll_cursor {T : Nat} {st : Stage} (h : st.cursor < T) (xs : List Sample) :
    (xs.foldl (storeSample T) st).cursor = (st.cursor + xs.length) % T := by
  induction xs generalizing st with
  | nil => simp [Nat.mod_eq_of_lt h]
  | cons x xs ih =>
    rw [List.foldl_cons, ih (Nat.mod_lt _ (by omega))]
    simp only [storeSample_cursor, List.length_cons]
    rw [Nat.mod_add_mod]
    congr 1
    omega

/-- How many samples a stage keeps (43_cascade.md R169). -/
theorem runStage_length (F : Fmt) (T dr i : Nat) (st : Stage) (hf : 0 < st.factor) (xs : List Sample) :
    (runStage F T dr i st xs).1.length + ceilDiv i st.factor = ceilDiv (i + xs.length) st.factor := by
  induction xs generalizing dr i st with
  | nil => simp
  | cons x xs ih =>
    rw [runStage_cons]
    have h := ih (dr + 2) (i + 1) (storeSample T st x) hf
    rw [storeSample_factor] at h
    have hstep : ceilDiv (i + 1) st.factor = ceilDiv i st.factor + (if i % st.factor = 0 then 1 else 0) := by
      unfold ceilDiv
      rw [show i + 1 + st.factor - 1 = i + st.factor by omega, Nat.add_div_right _ hf]
      split
      · rename_i h0
        obtain ⟨k, rfl⟩ := Nat.dvd_of_mod_eq_zero h0
        rw [Nat.mul_div_cancel_left _ hf, show st.factor * k + st.factor - 1 = st.factor * k + (st.factor - 1) by omega,
          Nat.mul_add_div hf, Nat.div_eq_of_lt (by omega)]
      · rename_i h0
        have h1 := Nat.div_add_mod i st.factor
        have h2 := Nat.mod_lt i hf
        generalize i % st.factor = m at h0 h1 h2
        generalize hp : st.factor * (i / st.factor) = q at h1
        rw [show i + st.factor - 1 = q + (m - 1 + st.factor) by omega, ← hp, Nat.mul_add_div hf, Nat.add_div_right _ hf,
          Nat.div_eq_of_lt (show m - 1 < st.factor by omega)]
    rw [show i + (x :: xs).length = i + 1 + xs.length by simp; omega, ← h, hstep]
    split
    · simp; omega
    · simp

theorem runStage_fits (F : Fmt) (T dr i : Nat) (st : Stage) (xs : List Sample) :
    ∀ z ∈ (runStage F T dr i st xs).1, z.fits F := by
  induction xs generalizing dr i st with
  | nil => simp
  | cons x xs ih =>
    rw [runStage_cons]
    intro z hz
    dsimp only at hz
    split at hz
    · rcases List.mem_cons.1 hz with rfl | hz
      · exact firOutput_fits F T dr st x
      · exact ih _ _ _ z hz
    · exact ih _ _ _ z hz

/-- Two passes of one stage join (42_fir.md R140, 43_cascade.md R176). -/
theorem runStage_append (F : Fmt) (T dr i : Nat) (st : Stage) (xs ys : List Sample) :
    runStage F T dr i st (xs ++ ys) =
      ((runStage F T dr i st xs).1 ++ (runStage F T (dr + 2 * xs.length) (i + xs.length) (xs.foldl (storeSample T) st) ys).1,
       ys.foldl (storeSample T) (xs.foldl (storeSample T) st)) := by
  induction xs generalizing dr i st with
  | nil =>
    ext1
    · simp
    · simp [runStage_stage]
  | cons x xs ih =>
    rw [List.cons_append, runStage_cons, ih, runStage_cons, List.foldl_cons]
    have e1 : dr + 2 + 2 * xs.length = dr + 2 * (x :: xs).length := by simp; omega
    have e2 : i + 1 + xs.length = i + (x :: xs).length := by simp; omega
    rw [e1, e2]
    ext1
    · dsimp only
      split <;> rfl
    · rfl

/-- The keep index counts modulo the factor (43_cascade.md R170). -/
theorem runStage_phase (F : Fmt) (T dr : Nat) {i j : Nat} (st : Stage) (h : i % st.factor = j % st.factor)
    (xs : List Sample) : runStage F T dr i st xs = runStage F T dr j st xs := by
  induction xs generalizing dr i j st with
  | nil => rfl
  | cons x xs ih =>
    have h' : (i + 1) % (storeSample T st x).factor = (j + 1) % (storeSample T st x).factor := by
      rw [storeSample_factor, Nat.add_mod, h, ← Nat.add_mod]
    rw [runStage_cons, runStage_cons, ih _ _ h', h]

/-! ### The chain of stages -/

@[simp] theorem runStages_nil (F : Fmt) (T S dr : Nat) (seq : List Sample) : runStages F T S dr [] seq = (seq, [], dr) := rfl

theorem runStages_cons (F : Fmt) (T S dr : Nat) (st : Stage) (rest : List Stage) (seq : List Sample) :
    runStages F T S dr (st :: rest) seq =
      ((runStages F T S (dr + 2 * seq.length) rest ((runStage F T dr 0 st seq).1.take S)).1,
       (runStage F T dr 0 st seq).2 ::
         (runStages F T S (dr + 2 * seq.length) rest ((runStage F T dr 0 st seq).1.take S)).2.1,
       (runStages F T S (dr + 2 * seq.length) rest ((runStage F T dr 0 st seq).1.take S)).2.2) := rfl

/-- Nothing to filter, nothing changed (43_cascade.md R174). -/
theorem runStages_empty (F : Fmt) (T S dr : Nat) (sts : List Stage) : runStages F T S dr sts [] = ([], sts, dr) := by
  induction sts generalizing dr with
  | nil => rfl
  | cons st rest ih => rw [runStages_cons]; simp [ih]

@[simp] theorem runStages_factors (F : Fmt) (T S dr : Nat) (sts : List Stage) (seq : List Sample) :
    (runStages F T S dr sts seq).2.1.map (fun st => (st.factor, st.coef)) = sts.map (fun st => (st.factor, st.coef)) := by
  induction sts generalizing dr seq with
  | nil => rfl
  | cons st rest ih =>
    rw [runStages_cons, List.map_cons, List.map_cons, ih, runStage_stage]
    simp

/-- Every stage keeps its shape (42_fir.md R144). -/
theorem runStages_stageOk (p : Params) (S dr : Nat) (hT : 0 < taps p) (sts : List Stage) (seq : List Sample)
    (h : ∀ st ∈ sts, stageOk p st) : ∀ st ∈ (runStages p.sampleFmt (taps p) S dr sts seq).2.1, stageOk p st := by
  induction sts generalizing dr seq with
  | nil => simp
  | cons st rest ih =>
    rw [runStages_cons]
    intro t ht
    rcases List.mem_cons.1 ht with rfl | ht
    · obtain ⟨h1, h2, h3⟩ := h st (by simp)
      rw [runStage_stage]
      exact ⟨by simpa using h1, by simpa using h2, by rw [storeAll_cursor h3]; exact Nat.mod_lt _ hT⟩
    · exact ih _ _ (fun st hst => h st (by simp [hst])) t ht

/-- The length that 43_cascade.md R168 computes is the length that the chain makes. -/
theorem runStages_length (F : Fmt) (T S dr : Nat) (sts : List Stage) (hf : ∀ st ∈ sts, 0 < st.factor) (seq : List Sample) :
    (runStages F T S dr sts seq).1.length = keptLen S (sts.map Stage.factor) seq.length := by
  induction sts generalizing dr seq with
  | nil => rfl
  | cons st rest ih =>
    rw [runStages_cons, ih _ fun st hst => hf st (by simp [hst])]
    have h := runStage_length F T dr 0 st (hf st (by simp)) seq
    have h0 : ceilDiv 0 st.factor = 0 := by
      have := hf st (by simp)
      unfold ceilDiv
      exact Nat.div_eq_of_lt (by omega)
    rw [h0, Nat.add_zero, Nat.zero_add] at h
    rw [List.length_take, h, Nat.min_comm]
    rfl

theorem runStages_fits (F : Fmt) (T S dr : Nat) (sts : List Stage) (seq : List Sample) (h : ∀ z ∈ seq, z.fits F) :
    ∀ z ∈ (runStages F T S dr sts seq).1, z.fits F := by
  induction sts generalizing dr seq with
  | nil => exact h
  | cons st rest ih =>
    rw [runStages_cons]
    exact ih _ _ fun z hz => runStage_fits F T dr 0 st seq z (List.mem_of_mem_take hz)

/-! ### The delay line as a history -/

@[simp] theorem history_length (T : Nat) (st : Stage) : (history T st).length = T := by simp [history]

theorem storedLine_getD (st : Stage) (x : Sample) {k : Nat} (hk : k < st.delay.length) :
    (storedLine st x).getD k Sample.zero = if k = st.cursor then x else st.delay.getD k Sample.zero := by
  unfold storedLine
  simp only [List.getD_eq_getElem?_getD, List.getElem?_set]
  split
  · rename_i h
    subst h
    simp [hk]
  · rename_i h
    rw [if_neg (fun h' => h h'.symm)]

/-- A step pushes its input in front of the history and forgets the oldest (42_fir.md R144). -/
theorem history_storeSample {T : Nat} {st : Stage} (hd : st.delay.length = T) (hc : st.cursor < T) (x : Sample) :
    history T (storeSample T st x) = x :: (history T st).take (T - 1) := by
  apply List.ext_getElem
  · simp; omega
  · intro j h1 h2
    simp only [history_length] at h1
    have hpos : 0 < T := by omega
    have e : ∀ j, j < T → ((st.cursor + 1) % T + T - 1 - j) % T = (st.cursor + T - j) % T := by
      intro j hj
      rcases Nat.lt_or_ge (st.cursor + 1) T with h | h
      · rw [Nat.mod_eq_of_lt h]; congr 1; omega
      · have : st.cursor + 1 = T := by omega
        rw [this, Nat.mod_self, show st.cursor + T - j = 0 + T - 1 - j + T by omega, Nat.add_mod_right]
    have hleft : (history T (storeSample T st x))[j]'(by simpa using h1) =
        (storedLine st x).getD ((st.cursor + T - j) % T) Sample.zero := by
      simp only [history, List.getElem_map, List.getElem_range, storeSample_cursor, storeSample_delay]
      rw [e j h1]
    rw [hleft, storedLine_getD st x (by rw [hd]; exact Nat.mod_lt _ hpos)]
    cases j with
    | zero =>
      rw [if_pos (by rw [Nat.sub_zero, Nat.add_mod_right, Nat.mod_eq_of_lt hc])]
      rfl
    | succ j =>
      rw [if_neg, List.getElem_cons_succ, List.getElem_take]
      · simp only [history, List.getElem_map, List.getElem_range]
        congr 2
        omega
      · rcases Nat.lt_or_ge (st.cursor) (j + 1) with h | h
        · rw [Nat.mod_eq_of_lt (by omega)]; omega
        · rw [show st.cursor + T - (j + 1) = st.cursor - (j + 1) + T by omega, Nat.add_mod_right, Nat.mod_eq_of_lt (by omega)]
          omega

/-- The line sum over slots is the sum over the history, newest first (42_fir.md R141, R143). -/
theorem laneSum_history (F : Fmt) {T : Nat} {st : Stage} (hd : st.delay.length = T) (hc : st.cursor < T)
    (hk : st.coef.length = T) (x : Sample) (part : Sample → Word) :
    laneSum F T st.coef ((storedLine st x).map part) st.cursor =
      convolve F st.coef ((x :: (history T st).take (T - 1)).map part) := by
  have hpos : 0 < T := by omega
  rw [← history_storeSample hd hc]
  unfold laneSum convolve
  have hzip : st.coef.zip ((history T (storeSample T st x)).map part) =
      (List.range T).map fun j => (st.coef.getD j 0#64, ((storedLine st x).map part).getD ((st.cursor + T - j) % T) 0#64) := by
    apply List.ext_getElem
    · simp [hk]
    · intro j h1 h2
      have hj : j < T := by simpa using h2
      simp only [List.getElem_zip, List.getElem_map, List.getElem_range]
      refine Prod.ext ?_ ?_
      · simp [List.getD_eq_getElem?_getD, hk, hj]
      · dsimp only
        simp only [history, List.getElem_map, List.getElem_range, storeSample_cursor, storeSample_delay]
        have e : ((st.cursor + 1) % T + T - 1 - j) % T = (st.cursor + T - j) % T := by
          rcases Nat.lt_or_ge (st.cursor + 1) T with h | h
          · rw [Nat.mod_eq_of_lt h]; congr 1; omega
          · have : st.cursor + 1 = T := by omega
            rw [this, Nat.mod_self, show st.cursor + T - j = 0 + T - 1 - j + T by omega, Nat.add_mod_right]
        rw [e]
        have hl : (st.cursor + T - j) % T < (storedLine st x).length := by
          rw [storedLine_length, hd]; exact Nat.mod_lt _ hpos
        simp [List.getD_eq_getElem?_getD, List.getElem?_eq_getElem hl]
  rw [hzip, List.foldl_map]

/-- A pass pushes all its inputs in front of the history (42_fir.md R144). -/
theorem history_storeAll {T : Nat} {st : Stage} (hd : st.delay.length = T) (hc : st.cursor < T) (xs : List Sample) :
    history T (xs.foldl (storeSample T) st) = (xs.reverse ++ history T st).take T := by
  induction xs generalizing st with
  | nil => simp [List.take_of_length_le]
  | cons x xs ih =>
    rw [List.foldl_cons, ih (by simpa using hd) (Nat.mod_lt _ (by omega)), history_storeSample hd hc]
    have hT : T = T - 1 + 1 := by omega
    simp only [List.reverse_cons, List.append_assoc, List.singleton_append]
    rw [List.take_append, List.take_append]
    congr 1
    generalize hn : T - xs.reverse.length = n
    cases n with
    | zero => rfl
    | succ n =>
      rw [List.take_succ_cons, List.take_succ_cons, List.take_take, Nat.min_eq_left (by omega)]

end Sys2Proof.Machine
end

