-- ==== Sys2Proof/Laws/Invariant.lean ====
section
/-!
SUPPORT. What the shared operations do to the invariant: free values, windows, completion, and the four commands. Each lemma
speaks of the part of the invariant that STATUS does not enter (`Sound`), so that the commands and the host's transactions share
them.
-/

namespace Sys2Proof.Machine

/-- The invariant but for STATUS. -/
structure State.Sound (s : State) : Prop where
  mem     : s.mem.wf = true
  cascade : s.ovr = false → cascadeOk s.params s.cas
  factors : s.ovr = false → factorsOk s.fz
  lost    : ∀ r ∈ s.lost, r.inSpace
  windows : ∀ w ∈ s.windows, ∀ r ∈ w.exposed, r.inSpace

theorem State.Inv.sound {s : State} (h : s.Inv) : s.Sound := ⟨h.mem, h.cascade, h.factors, h.lost, h.windows⟩

theorem State.Sound.inv {s : State} (h : s.Sound) (hs : statusOk s) : s.Inv :=
  ⟨h.mem, hs, h.cascade, h.factors, h.lost, h.windows⟩

/-! ### Free values -/

theorem drawStages_map {α : Type} (F : Fmt) (T i : Nat) (sts : List Stage) (g : Nat → List Word → α) :
    (drawStages F T i sts).map (fun st => g st.factor st.coef) = sts.map (fun st => g st.factor st.coef) := by
  induction sts generalizing i with
  | nil => rfl
  | cons st rest ih => rw [drawStages, List.map_cons, List.map_cons, ih]; rfl

theorem drawStages_stageOk {p : Params} (i : Nat) {sts : List Stage} (h : ∀ st ∈ sts, stageOk p st) :
    ∀ st ∈ drawStages p.sampleFmt (taps p) i sts, stageOk p st := by
  induction sts generalizing i with
  | nil => simp [drawStages]
  | cons st rest ih =>
    intro t ht
    rcases List.mem_cons.1 ht with rfl | ht
    · exact ⟨(h st (by simp)).1, by simp [drawStage], Nat.mod_lt _ (taps_pos p)⟩
    · exact ih _ (fun st hst => h st (by simp [hst])) t ht

/-- A change of the stages that keeps factors and shape keeps the configuration legal. -/
theorem cascadeOk_withStages {p : Params} {c : Cascade} {sts : List Stage} (h : cascadeOk p c)
    (hf : sts.map Stage.factor = c.stages.map Stage.factor)
    (hs : (∀ st ∈ c.stages, stageOk p st) → ∀ st ∈ sts, stageOk p st) : cascadeOk p { c with stages := sts } := by
  unfold cascadeOk at h ⊢
  cases hc : c.cfg with
  | true =>
    simp only [hc, if_true] at h ⊢
    obtain ⟨h1, h2, h3, h4, h5⟩ := h
    exact ⟨h1, h2, hf.trans h3, hs h4, h5⟩
  | false =>
    simp only [hc, Bool.false_eq_true, if_false] at h ⊢
    subst h
    simp only [Cascade.unconfigured, List.map_nil, List.map_eq_nil_iff] at hf
    subst hf
    rfl

theorem Sound_drawFilters {s : State} (h : s.Sound) : (drawFilters s).Sound where
  mem := h.mem
  cascade := fun ho => by
    refine cascadeOk_withStages (h.cascade ho) ?_ (drawStages_stageOk _)
    exact drawStages_map s.params.sampleFmt (taps s.params) s.draws s.cas.stages fun f _ => f
  factors := h.factors
  lost := h.lost
  windows := h.windows

theorem fixedPart_drawFilters (s : State) : fixedPart (drawFilters s).cas = fixedPart s.cas := by
  unfold fixedPart
  rw [drawFilters_cas]
  dsimp only
  rw [drawStages_map s.params.sampleFmt (taps s.params) s.draws s.cas.stages fun f c => (f, c)]

theorem Sound_drawRange {s : State} (h : s.Sound) {r : Option Range} (hr : ∀ x ∈ r, x.inSpace) : (drawRange r s).Sound where
  mem := wf_drawRange h.mem hr
  cascade := by simpa using h.cascade
  factors := by simpa using h.factors
  lost := by simpa using h.lost
  windows := by simpa using h.windows

/-! ### Windows -/

theorem Sound_withWindows {s : State} (h : s.Sound) {ws : List Window} (hw : ∀ w ∈ ws, ∀ r ∈ w.exposed, r.inSpace) :
    ({ s with windows := ws } : State).Sound :=
  ⟨h.mem, h.cascade, h.factors, h.lost, hw⟩

theorem Sound_settleWindow {s : State} (h : s.Sound) {r : Range} (hr : r.inSpace) :
    (settleWindow r s).Sound := by
  unfold settleWindow
  split
  · exact h
  · rename_i w rest hw
    split
    · exact h
    · have ht : ({ s with windows := { w with ran := true, exposed := some r } :: rest } : State).Sound := by
        refine Sound_withWindows h fun x hx => ?_
        rcases List.mem_cons.1 hx with rfl | hx
        · exact fun y hy => Option.mem_some.1 hy ▸ hr
        · exact h.windows x (by rw [hw]; simp [hx])
      dsimp only
      split
      · exact Sound_drawFilters (Sound_drawRange ht fun y hy => Option.mem_some.1 hy ▸ hr)
      · exact ht

theorem fixedPart_settleWindow (r : Range) (s : State) : fixedPart (settleWindow r s).cas = fixedPart s.cas := by
  unfold settleWindow
  split
  · rfl
  · split
    · rfl
    · dsimp only
      split
      · rw [fixedPart_drawFilters]; simp
      · rfl

/-- The end of a PROCESS in its window touches windows, filter state and memory alone. -/
theorem settleWindow_frame (r : Range) (s : State) :
    ∃ ws m sts d, settleWindow r s = { s with windows := ws, mem := m, cas := { s.cas with stages := sts }, draws := d } ∧
      fixedPart { s.cas with stages := sts } = fixedPart s.cas := by
  unfold settleWindow
  split
  · exact ⟨s.windows, s.mem, s.cas.stages, s.draws, rfl, rfl⟩
  · rename_i w rest hw
    split
    · exact ⟨s.windows, s.mem, s.cas.stages, s.draws, rfl, rfl⟩
    · dsimp only
      split
      · exact ⟨_, _, _, _, rfl, fixedPart_drawFilters { s with
          windows := { w with ran := true, exposed := some r } :: rest
          mem := drawBytes s.mem r.base s.draws r.len
          draws := s.draws + r.len }⟩
      · exact ⟨_, s.mem, s.cas.stages, s.draws, rfl, rfl⟩

/-- Without a race a PROCESS changes nothing of its window but that it has run. -/
theorem settleWindow_unraced {s : State} (h : s.unraced) (r : Range) :
    ∃ ws, settleWindow r s = { s with windows := ws } := by
  unfold settleWindow
  split
  · exact ⟨s.windows, rfl⟩
  · rename_i w rest hw
    split
    · exact ⟨s.windows, rfl⟩
    · rename_i hr
      dsimp only
      rw [if_neg]
      · exact ⟨_, rfl⟩
      · have := h w (by rw [hw]; simp) (by simpa using hr)
        simp [this]

theorem Sound_drawExposed {l : List Window} (hl : ∀ w ∈ l, ∀ r ∈ w.exposed, r.inSpace) {s : State} (h : s.Sound) :
    (drawExposed l s).Sound := by
  induction l generalizing s with
  | nil => exact h
  | cons w l ih => exact ih (fun w' hw' => hl w' (by simp [hw'])) (Sound_drawRange h (hl w (by simp)))

/-- Freeing the output bytes of windows touches memory alone. -/
theorem drawExposed_frame (l : List Window) (s : State) : ∃ m d, drawExposed l s = { s with mem := m, draws := d } := by
  induction l generalizing s with
  | nil => exact ⟨s.mem, s.draws, rfl⟩
  | cons w l ih =>
    obtain ⟨m, d, h⟩ := ih (drawRange w.exposed s)
    refine ⟨m, d, ?_⟩
    rw [drawExposed, List.foldl_cons, ← drawExposed, h]
    cases w.exposed <;> rfl

theorem loadByte_drawExposed_other (l : List Window) (s : State) {c : Nat}
    (h : ∀ w ∈ l, ∀ r ∈ w.exposed, c < r.base ∨ r.base + r.len ≤ c) :
    loadByte (drawExposed l s).mem c = loadByte s.mem c := by
  induction l generalizing s with
  | nil => rfl
  | cons w l ih =>
    exact (ih (drawRange w.exposed s) fun w' hw' => h w' (by simp [hw'])).trans
      (loadByte_drawRange_other _ _ (h w (by simp)))

/-- A byte that is free stays free: it keeps its draw, or takes one of this operation. -/
theorem drawExposed_keepsFree {l : List Window} (hl : ∀ w ∈ l, ∀ r ∈ w.exposed, r.inSpace) {s : State} (hm : s.mem.wf = true)
    {lo c : Nat} (h : ∃ i, lo ≤ i ∧ i < s.draws ∧ loadByte s.mem c = Config.freeByte i) (hlo : lo ≤ s.draws) :
    ∃ i, lo ≤ i ∧ i < (drawExposed l s).draws ∧ loadByte (drawExposed l s).mem c = Config.freeByte i := by
  induction l generalizing s with
  | nil => exact h
  | cons w l ih =>
    have hw := hl w (by simp)
    refine ih (s := drawRange w.exposed s) (fun w' hw' => hl w' (by simp [hw'])) (wf_drawRange hm hw) ?_ ?_
    · cases hx : w.exposed with
      | none => exact h
      | some r =>
        by_cases hc : r.base ≤ c ∧ c < r.base + r.len
        · have := loadByte_drawRange (s := s) hm (hw r hx) (k := c - r.base) (by omega)
          rw [show r.base + (c - r.base) = c by omega] at this
          exact ⟨s.draws + (c - r.base), by omega, by simp only [drawRange]; omega, this⟩
        · obtain ⟨i, h1, h2, h3⟩ := h
          refine ⟨i, h1, by simp only [drawRange]; omega, ?_⟩
          rw [loadByte_drawRange_other (some r) s (by intro y hy; cases hy; omega), h3]
    · cases w.exposed with
      | none => exact hlo
      | some r => simp only [drawRange]; omega

/-- Every output byte of every window of the list ends with a free value drawn by this operation. -/
theorem loadByte_drawExposed {l : List Window} (hl : ∀ w ∈ l, ∀ r ∈ w.exposed, r.inSpace) {s : State} (hm : s.mem.wf = true)
    {w : Window} (hw : w ∈ l) {r : Range} (hr : r ∈ w.exposed) {k : Nat} (hk : k < r.len) :
    ∃ i, s.draws ≤ i ∧ i < (drawExposed l s).draws ∧ loadByte (drawExposed l s).mem (r.base + k) = Config.freeByte i := by
  induction l generalizing s with
  | nil => cases hw
  | cons x l ih =>
    have hx := hl x (by simp)
    have hl' : ∀ w ∈ l, ∀ r ∈ w.exposed, r.inSpace := fun w' hw' => hl w' (by simp [hw'])
    have hm' := wf_drawRange (s := s) hm hx
    have hd : s.draws ≤ (drawRange x.exposed s).draws := by cases x.exposed <;> simp [drawRange]
    rcases List.mem_cons.1 hw with rfl | hw
    · rw [Option.mem_def] at hr
      rw [drawExposed, List.foldl_cons, ← drawExposed]
      refine drawExposed_keepsFree hl' hm' ?_ hd
      rw [hr]
      exact ⟨s.draws + k, by omega, by simp only [drawRange]; omega, loadByte_drawRange hm (hx r hr) hk⟩
    · obtain ⟨i, h1, h2⟩ := ih hl' hm' hw
      exact ⟨i, le_trans hd h1, h2⟩

theorem Sound_noteWrite {s : State} (h : s.Sound) (a len : Nat) : (noteWrite a len s).Sound := by
  unfold noteWrite
  dsimp only
  have ht : ({ s with windows := racedWindows a len s.windows } : State).Sound := by
    refine Sound_withWindows h fun x hx => ?_
    obtain ⟨w, hw, rfl⟩ := List.mem_map.1 hx
    split
    · exact h.windows w hw
    · exact h.windows w hw
  split
  · exact ht
  · refine Sound_drawFilters ?_
    have hl : ∀ w ∈ (s.windows.filter fun w => w.meets a len).filter Window.ran, ∀ r ∈ w.exposed, r.inSpace :=
      fun w hw => h.windows w (List.mem_of_mem_filter (List.mem_of_mem_filter hw))
    exact Sound_drawExposed hl ht

/-- A write by the host touches windows, filter state and memory alone. -/
theorem noteWrite_frame (a len : Nat) (s : State) :
    ∃ m sts d, noteWrite a len s =
        { s with windows := racedWindows a len s.windows, mem := m, cas := { s.cas with stages := sts }, draws := d } ∧
      fixedPart { s.cas with stages := sts } = fixedPart s.cas := by
  unfold noteWrite
  dsimp only
  split
  · exact ⟨s.mem, s.cas.stages, s.draws, rfl, rfl⟩
  · generalize (s.windows.filter fun w => w.meets a len).filter Window.ran = l
    generalize racedWindows a len s.windows = ws
    obtain ⟨m, d, h⟩ := drawExposed_frame l { s with windows := ws }
    rw [h]
    refine ⟨m, _, _, rfl, ?_⟩
    exact fixedPart_drawFilters { s with windows := ws, mem := m, draws := d }

/-! ### Completion -/

theorem statusOk_completeOk {s : State} (h : s.ovr = false) : statusOk (completeOk s) := by simp [statusOk, h]

theorem statusOk_raiseError (e : Err) {s : State} (h : s.ovr = false) : statusOk (raiseError e s) := by
  cases e <;> simp [statusOk, h, errCodeOf]

theorem Inv_completeOk {s : State} (h : s.Sound) (ho : s.ovr = false) : (completeOk s).Inv :=
  State.Sound.inv ⟨h.mem, h.cascade, h.factors, h.lost, h.windows⟩ (statusOk_completeOk ho)

theorem Inv_raiseError (e : Err) {s : State} (h : s.Sound) (ho : s.ovr = false) : (raiseError e s).Inv :=
  State.Sound.inv ⟨h.mem, h.cascade, h.factors, h.lost, h.windows⟩ (statusOk_raiseError e ho)

theorem Inv_finish {failed : State} {body : Except Err State} (hf : failed.Sound) (hfo : failed.ovr = false)
    (hb : ∀ t, body = .ok t → t.Sound ∧ t.ovr = false) : (finish failed body).Inv := by
  cases body with
  | error e => exact Inv_raiseError e hf hfo
  | ok t => exact Inv_completeOk (hb t rfl).1 (hb t rfl).2

/-! ### The four commands -/

theorem factorsOk_factorize {r : Nat} (h1 : 1 ≤ r) (h2 : r ≤ ratioMax) : factorsOk (factorize r) := by
  unfold factorsOk
  rw [factorize_prod h1]
  exact ⟨h1, h2, rfl⟩

theorem cascadeOk_unconfigured (p : Params) : cascadeOk p Cascade.unconfigured := by
  unfold cascadeOk; simp [Cascade.unconfigured]

theorem Inv_create {s : State} (h : s.Sound) (ho : s.ovr = false) :
    (finish { s with cas := Cascade.unconfigured } (createBody s)).Inv := by
  refine Inv_finish ⟨h.mem, fun _ => cascadeOk_unconfigured _, h.factors, h.lost, h.windows⟩ ho fun t ht => ?_
  unfold createBody at ht
  split at ht
  · simp at ht
  · rename_i c hc
    simp only [Except.ok.injEq] at ht
    subst ht
    exact ⟨⟨h.mem, fun _ => createCascade_cascadeOk hc, h.factors, h.lost, h.windows⟩, ho⟩

theorem wf_processWork {s : State} (h : s.mem.wf = true) {o : ProcessOperands} (ho : processCheck s.params s.cas o = none) :
    (processWork o s).mem.wf = true := by
  refine wf_writeSamples h _ ?_
  rcases processOutput_inSpace ho with h0 | h0
  · simp only [processOutput, Nat.mul_eq_zero] at h0
    left
    rcases h0 with h0 | h0
    · rw [h0, List.take_zero]
    · exact absurd h0 (by cases s.params.sampleFmt <;> decide)
  · right
    exact le_trans (Nat.add_le_add_left (Nat.mul_le_mul_right _ (List.length_take_le _ _)) _) h0

theorem Sound_processWork {s : State} (h : s.Sound) {o : ProcessOperands} (ho : processCheck s.params s.cas o = none) :
    (processWork o s).Sound := by
  refine ⟨wf_processWork h.mem ho, fun hv => ?_, h.factors, h.lost, h.windows⟩
  refine cascadeOk_withStages (h.cascade hv) ?_ ?_
  · have := runStages_factors s.params.sampleFmt (taps s.params) s.cas.scratch s.draws s.cas.stages
      (readSamples s.params.sampleFmt s.mem o.inB o.n)
    have h2 := congrArg (List.map Prod.fst) this
    rw [List.map_map, List.map_map] at h2
    exact h2
  · exact runStages_stageOk s.params _ _ (taps_pos _) _ _

theorem Inv_process {s : State} (h : s.Sound) (ho : s.ovr = false) : (finish (settleWindow (racedRange s) s) (processBody s)).Inv := by
  refine Inv_finish (Sound_settleWindow h (racedRange_inSpace s)) (by simpa using ho) fun t ht => ?_
  unfold processBody at ht
  dsimp only at ht
  split at ht
  · simp at ht
  · rename_i hc
    simp only [Except.ok.injEq] at ht
    subst ht
    exact ⟨Sound_settleWindow (Sound_processWork h hc) (racedRange_inSpace s), by simpa using ho⟩

theorem Inv_clear {s : State} (h : s.Sound) (ho : s.ovr = false) : (finish s (clearBody s)).Inv := by
  refine Inv_finish h ho fun t ht => ?_
  unfold clearBody at ht
  split at ht
  · simp at ht
  · simp only [Except.ok.injEq] at ht
    subst ht
    refine ⟨⟨h.mem, fun hv => ?_, h.factors, h.lost, h.windows⟩, ho⟩
    refine cascadeOk_withStages (h.cascade hv) (by simp [clearStage]) fun hs st hst => ?_
    obtain ⟨st', hst', rfl⟩ := List.mem_map.1 hst
    exact ⟨(hs st' hst').1, by simp [clearStage], taps_pos _⟩

theorem Inv_factorize {s : State} (h : s.Sound) (ho : s.ovr = false) : (finish s (factorizeBody s)).Inv := by
  refine Inv_finish h ho fun t ht => ?_
  unfold factorizeBody at ht
  dsimp only at ht
  split at ht
  · simp at ht
  · split at ht
    · simp at ht
    · rename_i h1 h2
      simp only [Except.ok.injEq] at ht
      subst ht
      exact ⟨⟨h.mem, h.cascade, fun _ => factorsOk_factorize (by omega) (by omega), h.lost, h.windows⟩, ho⟩

/-- Whatever the latched word, the engine step keeps the invariant (44_host_bus.md R209). -/
theorem Inv_engineStep {s t : State} (h : s.Inv) (ho : s.ovr = false) (ht : engineStep s = .next t) : t.Inv := by
  unfold engineStep at ht
  split at ht
  · rename_i i _
    cases i <;> simp only [exec, execCreate, execProcess, execClear, execFactorize, Host.Outcome.next.injEq] at ht <;> subst ht
    · exact Inv_create h.sound ho
    · exact Inv_process h.sound ho
    · exact Inv_clear h.sound ho
    · exact Inv_factorize h.sound ho
  · simp only [Host.Outcome.next.injEq] at ht
    subst ht
    exact Inv_raiseError _ h.sound ho

end Sys2Proof.Machine
end

