-- ==== Sys2Proof/Laws/Host.lean ====
section
/-!
SUPPORT. What the host's operations do: each keeps the invariant, and each says in one lemma which parts of the state it can
change.
-/

namespace Sys2Proof.Machine

/-! ### The register map -/

theorem regAt_offset (r : Reg) : regAt r.offset = some r := by
  cases r with
  | arg i => revert i; decide
  | factor i => revert i; decide
  | fz i => revert i; decide
  | _ => rfl

theorem offset_of_regAt {off : Nat} {r : Reg} (h : regAt off = some r) : r.offset = off := by
  unfold regAt at h
  split at h
  · simp at h
  · rename_i h8
    have hd : off = 8 * (off / 8) := by omega
    split at h
    all_goals first
      | (rename_i hk
         simp only [Option.some.injEq] at h
         subst h
         rw [hd, hk]
         rfl)
      | (split at h
         · rename_i hr
           simp only [Option.some.injEq] at h
           subst h
           simp only [Reg.offset]
           omega
         · split at h
           · rename_i hr
             simp only [Option.some.injEq] at h
             subst h
             simp only [Reg.offset]
             omega
           · simp at h)

theorem regAt_eq_cmd {off : Nat} : regAt off = some .cmd ↔ off = 0x008 :=
  ⟨fun h => (offset_of_regAt h).symm, fun h => by subst h; rfl⟩

theorem busOffset_some {base : Nat} {a : BusAccess} (h : a.wf base = true) : busOffset base a = some (a.addr - base) := by
  rw [busOffset, if_pos h]

/-! ### Register reads -/

/-- Every read of a register: the value the host receives, and the three fields of the MODEL that it may touch (44 R207). -/
theorem readReg_frame (r : Option Reg) (s : State) :
    ∃ v ws d, readReg r s = { s with replies := .reg v :: s.replies, windows := ws, draws := d } ∧
      ∀ w ∈ ws, w ∈ s.windows := by
  cases r with
  | none => exact ⟨_, s.windows, s.draws, rfl, fun w hw => hw⟩
  | some r =>
    simp only [readReg]
    split
    · exact ⟨_, s.windows, s.draws + 1, rfl, fun w hw => hw⟩
    · split
      · exact ⟨_, _, s.draws, rfl, fun w hw => List.mem_of_mem_filter hw⟩
      · exact ⟨_, s.windows, s.draws, rfl, fun w hw => hw⟩

theorem Inv_readReg (r : Option Reg) {s : State} (h : s.Inv) : (readReg r s).Inv := by
  obtain ⟨v, ws, d, e, hw⟩ := readReg_frame r s
  rw [e]
  exact ⟨h.mem, h.status, h.cascade, h.factors, h.lost, fun w hw' => h.windows w (hw w hw')⟩

/-! ### Register writes -/

/-- An overrun touches nothing but what 60 R225 names. -/
theorem overrun_frame (s : State) :
    ∃ m c fz res w l d, overrun s =
      { s with ovr := true, lost := inFlightRange s, mem := m, cas := c, fz := fz, result := res, lcmd := w, larg := l,
               draws := d } := by
  unfold overrun
  cases inFlightRange s with
  | none => exact ⟨s.mem, _, _, _, _, _, _, rfl⟩
  | some r => exact ⟨_, _, _, _, _, _, _, rfl⟩

theorem Inv_overrun {s : State} (h : s.Inv) (hb : s.busy = true) : (overrun s).Inv := by
  have hm : (drawRange (inFlightRange s) s).mem.wf = true := wf_drawRange h.mem (inFlightRange_inSpace s)
  refine ⟨hm, ⟨fun hb' => ?_, fun _ => ?_, ?_, ?_, ?_⟩, fun ho => ?_, fun ho => ?_, ?_, ?_⟩
  · simpa [overrun] using h.status.1 hb
  · simpa [overrun] using hb
  · simpa [overrun] using h.status.2.2.1
  · simpa [overrun] using h.status.2.2.2.1
  · simpa [overrun] using h.status.2.2.2.2
  · simp [overrun] at ho
  · simp [overrun] at ho
  · exact inFlightRange_inSpace s
  · simpa [overrun] using h.windows

theorem windowsAtStart_mem {v : Word} {s : State} {w : Window} (h : w ∈ windowsAtStart v s) :
    w = openWindow s.params s.args ∨ ∃ x ∈ s.windows, w = { x with missed := true } := by
  have hm : w ∈ missWindows s.windows → ∃ x ∈ s.windows, w = { x with missed := true } := fun h => by
    obtain ⟨x, hx, rfl⟩ := List.mem_map.1 h
    exact ⟨x, hx, rfl⟩
  unfold windowsAtStart at h
  split at h
  · exact (List.mem_cons.1 h).imp_right hm
  · exact Or.inr (hm h)

theorem Inv_startCommand {s : State} (h : s.Inv) (ho : s.ovr = false) (v : Word) : (startCommand v s).Inv := by
  refine ⟨h.mem, ?_, h.cascade, h.factors, h.lost, ?_⟩
  · simp [statusOk, ho]
  · intro w hw r hr
    rcases windowsAtStart_mem hw with rfl | ⟨x, hx, rfl⟩
    · simp [openWindow] at hr
    · exact h.windows x hx r hr

/-- The three outcomes of a CMD write (44_host_bus.md R201). -/
theorem writeCmd_stuck {s : State} (h : s.ovr = true) (v : Word) : writeCmd v s = { s with cmd := v } := by
  simp [writeCmd, h]

theorem writeCmd_busy {s : State} (ho : s.ovr = false) (hb : s.busy = true) (v : Word) :
    writeCmd v s = overrun { s with cmd := v } := by
  simp [writeCmd, ho, hb]

theorem writeCmd_idle {s : State} (ho : s.ovr = false) (hb : s.busy = false) (v : Word) :
    writeCmd v s = startCommand v { s with cmd := v } := by
  simp [writeCmd, ho, hb]

theorem Inv_writeCmd {s : State} (h : s.Inv) (v : Word) : (writeCmd v s).Inv := by
  have hc : ({ s with cmd := v } : State).Inv := ⟨h.mem, h.status, h.cascade, h.factors, h.lost, h.windows⟩
  unfold writeCmd
  dsimp only
  split
  · exact hc
  · rename_i ho
    split
    · rename_i hb
      exact Inv_overrun hc hb
    · exact Inv_startCommand hc (by simpa using ho) v

theorem Inv_writeReg {s : State} (h : s.Inv) (r : Option Reg) (v : Word) : (writeReg r v s).Inv := by
  obtain ⟨h1, h2, h3, h4, h5, h6⟩ := h
  unfold writeReg
  split
  · exact Inv_writeCmd ⟨h1, h2, h3, h4, h5, h6⟩ v
  · split
    · exact ⟨h1, ⟨fun hb => ⟨rfl, (h2.1 hb).2⟩, h2.2⟩, h3, h4, h5, h6⟩
    · exact ⟨h1, h2, h3, h4, h5, h6⟩
  all_goals exact ⟨h1, h2, h3, h4, h5, h6⟩

/-- A write to a register other than CMD starts nothing and stops nothing (44 R202 to R206). -/
theorem writeReg_frame {r : Option Reg} (hr : r ≠ some .cmd) (v : Word) (s : State) :
    ∃ dn ie l tap stage, writeReg r v s =
      { s with done := dn, ie := ie, args := l, coefTap := tap, coefStage := stage } ∧ (s.done = false → dn = false) := by
  unfold writeReg
  split
  · exact absurd rfl hr
  · split
    · exact ⟨false, s.ie, s.args, s.coefTap, s.coefStage, rfl, fun _ => rfl⟩
    · exact ⟨s.done, s.ie, s.args, s.coefTap, s.coefStage, rfl, id⟩
  · exact ⟨s.done, _, s.args, s.coefTap, s.coefStage, rfl, id⟩
  · exact ⟨s.done, s.ie, _, s.coefTap, s.coefStage, rfl, id⟩
  · exact ⟨s.done, s.ie, s.args, _, _, rfl, id⟩
  all_goals exact ⟨s.done, s.ie, s.args, s.coefTap, s.coefStage, rfl, id⟩

/-! ### Sample memory by the host, polls and resets -/

theorem hostReaches_le {p : Params} {a len : Nat} (h : hostReaches p a len = true) : a + len ≤ addrSpace := by
  unfold hostReaches at h
  simp only [Bool.and_eq_true, decide_eq_true_eq] at h
  exact h.1

theorem Inv_hostLoad {s : State} (h : s.Inv) (a n : Nat) : (hostLoad a n s).Inv :=
  ⟨h.mem, h.status, h.cascade, h.factors, h.lost, h.windows⟩

/-- A write by the host touches memory, the record of handed-over buffers and, after a race, filter state (70 R266). -/
theorem hostStore_frame (a : Nat) (bytes : List Byte) (s : State) :
    ∃ m sts d, hostStore a bytes s =
        { s with windows := racedWindows a bytes.length s.windows, mem := m, cas := { s.cas with stages := sts },
                 draws := d } ∧
      fixedPart { s.cas with stages := sts } = fixedPart s.cas :=
  noteWrite_frame a bytes.length { s with mem := storeBytes s.mem a bytes }

theorem Inv_hostStore {s : State} (h : s.Inv) {a : Nat} {bytes : List Byte} (ha : a + bytes.length ≤ addrSpace) :
    (hostStore a bytes s).Inv := by
  have hm : ({ s with mem := storeBytes s.mem a bytes } : State).Sound :=
    ⟨wf_storeBytes h.mem bytes (Or.inr ha), h.cascade, h.factors, h.lost, h.windows⟩
  have hs : (hostStore a bytes s).Sound := Sound_noteWrite hm a bytes.length
  obtain ⟨m, sts, d, e, -⟩ := hostStore_frame a bytes s
  exact hs.inv (by rw [e]; exact h.status)

/-- A poll reads STATUS and may put the engine's turn and the next poll in front. -/
theorem pollStatus_frame (s : State) :
    ∃ v ws ops, pollStatus s = { s with replies := .reg v :: s.replies, windows := ws, host := ops } ∧
      (∀ w ∈ ws, w ∈ s.windows) ∧ (ops = s.host ∨ (ops = .engine :: .wait :: s.host ∧ s.ovr = false)) := by
  have e : readReg (some .status) s = { s with
      replies := .reg (regValue s .status) :: s.replies,
      windows := if s.done = true then s.windows.filter (fun w => !w.ran || w.missed) else s.windows } := by
    cases hd : s.done <;> simp [readReg, isResultReg, closeWindows, reply, hd]
  have hsub : ∀ w ∈ (if s.done = true then s.windows.filter (fun w => !w.ran || w.missed) else s.windows), w ∈ s.windows := by
    split
    · exact fun w hw => List.mem_of_mem_filter hw
    · exact fun w hw => hw
  unfold pollStatus
  dsimp only
  rw [e]
  split
  · exact ⟨_, _, s.host, rfl, hsub, Or.inl rfl⟩
  · rename_i h
    refine ⟨_, _, _, rfl, hsub, Or.inr ⟨rfl, ?_⟩⟩
    cases ho : s.ovr with
    | false => rfl
    | true => simp [ho] at h

theorem Inv_pollStatus {s : State} (h : s.Inv) : (pollStatus s).Inv := by
  obtain ⟨v, ws, ops, e, hw, -⟩ := pollStatus_frame s
  rw [e]
  exact ⟨h.mem, h.status, h.cascade, h.factors, h.lost, fun w hw' => h.windows w (hw w hw')⟩

theorem abandonedRange_inSpace {s : State} (h : s.Inv) : ∀ r ∈ abandonedRange s, r.inSpace := by
  intro r hr
  unfold abandonedRange at hr
  split at hr
  · split at hr
    · exact h.lost r hr
    · exact inFlightRange_inSpace s r hr
  · simp at hr

theorem factorsOk_nil : factorsOk [] := by decide

theorem Inv_resetOf (p : Params) : (State.resetOf p).Inv :=
  ⟨rfl, by simp [statusOk, State.resetOf], fun _ => cascadeOk_unconfigured p, fun _ => factorsOk_nil,
    by simp [State.resetOf], by simp [State.resetOf]⟩

theorem Inv_resetEvent {s : State} (h : s.Inv) : (resetEvent s).Inv := by
  have hm : (drawRange (abandonedRange s) s).mem.wf = true := wf_drawRange h.mem (abandonedRange_inSpace h)
  have hr := Inv_resetOf s.params
  exact ⟨hm, hr.status, hr.cascade, hr.factors, hr.lost, hr.windows⟩

/-- Every operation of the host and its platform keeps the invariant. -/
theorem Inv_hostAct {s t : State} (h : s.Inv) {op : HostOp} (ht : hostAct op s = .next t) : t.Inv := by
  cases op with
  | regRead a =>
    simp only [hostAct] at ht
    split at ht
    · cases ht; exact Inv_readReg _ h
    · cases ht
  | regWrite a v =>
    simp only [hostAct] at ht
    split at ht
    · cases ht; exact Inv_writeReg h _ _
    · cases ht
  | wait => cases ht; exact Inv_pollStatus h
  | memRead a n =>
    simp only [hostAct] at ht
    split at ht
    · cases ht; exact Inv_hostLoad h _ _
    · cases ht
  | memWrite a bytes =>
    simp only [hostAct] at ht
    split at ht
    · rename_i hr
      cases ht
      exact Inv_hostStore h (hostReaches_le hr)
    · cases ht
  | engine => cases ht; exact h
  | reset => cases ht; exact Inv_resetEvent h

/-- Every next state comes from the engine's step, from one operation of the host, or from rest (44 R200, R209). -/
theorem step_cases {s t : State} (h : step s = .next t) :
    (s.busy = true ∧ s.ovr = false ∧ ((s.host = [] ∧ engineStep s = .next t) ∨
      ∃ rest, s.host = .engine :: rest ∧ engineStep { s with host := rest } = .next t)) ∨
    (∃ op rest, s.host = op :: rest ∧ hostAct op { s with host := rest } = .next t ∧
      (op = .engine → engineEnabled s = false)) ∨
    (s.host = [] ∧ s.busy = false ∧ t = s) := by
  unfold step nextTurn at h
  split at h
  · rename_i u hu
    left
    split at hu
    · rename_i hh
      split at hu
      · rename_i he
        cases hu
        simp only [engineEnabled, Bool.and_eq_true, Bool.not_eq_true'] at he
        exact ⟨he.1, he.2, Or.inl ⟨hh, h⟩⟩
      · split at hu <;> cases hu
    · rename_i rest hh
      split at hu
      · rename_i he
        cases hu
        simp only [engineEnabled, Bool.and_eq_true, Bool.not_eq_true'] at he
        exact ⟨he.1, he.2, Or.inr ⟨rest, hh, h⟩⟩
      · cases hu
    · cases hu
  · rename_i op u hu
    right; left
    split at hu
    · split at hu
      · cases hu
      · split at hu <;> cases hu
    · rename_i rest hh
      split at hu
      · cases hu
      · rename_i he
        cases hu
        exact ⟨_, rest, hh, h, fun _ => by simpa using he⟩
    · rename_i op' rest hne hh
      cases hu
      exact ⟨_, rest, hh, h, fun he => absurd he hne⟩
  · rename_i hu
    right; right
    cases h
    split at hu
    · rename_i hh
      split at hu
      · cases hu
      · rename_i he
        split at hu
        · cases hu
        · rename_i ho
          refine ⟨hh, ?_, rfl⟩
          cases hb : s.busy with
          | false => rfl
          | true => simp [engineEnabled, hb, ho] at he
    · split at hu <;> cases hu
    · cases hu
  · cases h

/-- A run takes one step and runs on. -/
theorem run_next {s t : State} (h : step s = .next t) (k : Nat) :
    Sys2Proof.core.run (k + 1) s = Sys2Proof.core.run k t := by
  have h' : Sys2Proof.core.step s = .next t := h
  simp only [Host.Core.run, h']

end Sys2Proof.Machine
end

