-- ==== Sys2Proof/Laws/Commands.lean ====
section
/-!
SUPPORT. The command decoder as a table over numbers, and each command's meaning case by case: one equation for every way in
which it can end.
-/

namespace Sys2Proof.Machine

/-! ### Words -/

theorem commandFields_toNat (w : Word) :
    (commandFields w).rsvd.toNat = w.toNat / 256 ∧ (commandFields w).opc.toNat = w.toNat % 256 := by
  constructor <;> simp [commandFields, Nat.shiftRight_eq_div_pow]
  omega

/-- The decoder in terms of the word's value (30_encoding.md R81). -/
theorem decode_value (w : Word) :
    decode w = if 256 ≤ w.toNat then .error .reservedBits else if w.toNat = 1 then .ok .create
      else if w.toNat = 2 then .ok .process else if w.toNat = 3 then .ok .clear else if w.toNat = 4 then .ok .factorize
      else .error .unknownOpcode := by
  obtain ⟨h1, h2⟩ := commandFields_toNat w
  unfold decode
  simp only [ne_eq, ← BitVec.toNat_inj, h1, h2, BitVec.toNat_ofNat]
  have hw := w.isLt
  split_ifs <;> first | rfl | (exfalso; omega)

theorem encode_toNat (i : Instr) :
    (encode i).toNat = match i with | .create => 1 | .process => 2 | .clear => 3 | .factorize => 4 := by
  cases i <;> rfl

/-! ### FACTORIZE -/

theorem factorizeBody_zero {s : State} (h : factorizeOperand s.larg = 0) : factorizeBody s = .error .invalidOperand := by
  simp [factorizeBody, h]

theorem factorizeBody_above {s : State} (h : ratioMax < factorizeOperand s.larg) :
    factorizeBody s = .error .ratioOutOfRange := by
  unfold factorizeBody
  dsimp only
  rw [if_neg (by omega), if_pos h]

theorem factorizeBody_ok {s : State} (h1 : 1 ≤ factorizeOperand s.larg) (h2 : factorizeOperand s.larg ≤ ratioMax) :
    factorizeBody s = .ok { s with fz := factorize (factorizeOperand s.larg),
                                   result := BitVec.ofNat 64 (factorize (factorizeOperand s.larg)).length } := by
  unfold factorizeBody
  dsimp only
  rw [if_neg (by omega), if_neg (by omega)]

/-! ### CLEAR -/

theorem clearBody_unconfigured {s : State} (h : s.cas.cfg = false) : clearBody s = .error .notConfigured := by
  simp [clearBody, h]

theorem clearBody_ok {s : State} (h : s.cas.cfg = true) :
    clearBody s = .ok { s with cas := { s.cas with stages := s.cas.stages.map (clearStage (taps s.params)) },
                               result := 0#64 } := by
  simp [clearBody, h]

/-! ### CREATE -/

/-- The rates that CREATE accepts are the patterns of positive finite numbers (43_cascade.md R163). -/
theorem accepted_rate (w : Word) :
    (isPositive (unpack .binary64 w) = true ∧ unpack .binary64 w ≠ .inf false) ↔
      0 < w.toNat ∧ w.toNat < 0x7FF0000000000000 := by
  have hw := w.isLt
  have hd : w.toNat = w.toNat / 2 ^ 63 % 2 * 2 ^ 63 + w.toNat / 2 ^ 52 % 2 ^ 11 * 2 ^ 52 + w.toNat % 2 ^ 52 := by omega
  have h1 : w.toNat / 2 ^ 63 % 2 < 2 := Nat.mod_lt _ (by norm_num)
  have h2 : w.toNat / 2 ^ 52 % 2 ^ 11 < 2 ^ 11 := Nat.mod_lt _ (by norm_num)
  have h3 : w.toNat % 2 ^ 52 < 2 ^ 52 := Nat.mod_lt _ (by norm_num)
  simp only [unpack, fracBits, expBits, expOnes, show 52 + 11 = 63 from rfl]
  generalize w.toNat / 2 ^ 63 % 2 = b at hd h1
  generalize w.toNat / 2 ^ 52 % 2 ^ 11 = e at hd h2
  generalize w.toNat % 2 ^ 52 = m at hd h3
  rw [hd]
  clear hd hw
  have hp : 0 < 2 ^ (e - 1) := by positivity
  have hb : b = 0 ∨ b = 1 := by omega
  rcases hb with rfl | rfl
  · by_cases he : e = 2 ^ 11 - 1
    · rw [if_pos he]
      by_cases hm : m = 0
      · rw [if_pos hm]; simp; omega
      · rw [if_neg hm]; simp [isPositive]; omega
    · rw [if_neg he]
      by_cases h0 : e = 0
      · rw [if_pos h0]; simp [isPositive]; omega
      · rw [if_neg h0]; simp [isPositive]; omega
  · by_cases he : e = 2 ^ 11 - 1
    · rw [if_pos he]
      by_cases hm : m = 0
      · rw [if_pos hm]; simp [isPositive]; omega
      · rw [if_neg hm]; simp [isPositive]; omega
    · rw [if_neg he]
      by_cases h0 : e = 0
      · rw [if_pos h0]; simp [isPositive]; omega
      · rw [if_neg h0]; simp [isPositive]; omega

theorem ratesValid_iff (l : Args) :
    ratesValid (createOperands l) = true ↔
      (0 < l.a0.toNat ∧ l.a0.toNat < 0x7FF0000000000000) ∧ 0 < l.a1.toNat ∧ l.a1.toNat < 0x7FF0000000000000 := by
  rw [← accepted_rate, ← accepted_rate]
  simp only [ratesValid, createOperands, Bool.and_eq_true, bne_iff_ne]
  tauto

theorem createBody_error {s : State} {e : Err} (h : createCascade s.params (createOperands s.larg) = .error e) :
    createBody s = .error e := by
  simp [createBody, h]

theorem createBody_ok {s : State} {c : Cascade} (h : createCascade s.params (createOperands s.larg) = .ok c) :
    createBody s = .ok { s with cas := c, result := BitVec.ofNat 64 c.stages.length } := by
  simp [createBody, h]

theorem createCascade_badRates {p : Params} {o : CreateOperands} (h : ratesValid o = false) :
    createCascade p o = .error .invalidConfiguration := by
  simp [createCascade, h]

theorem createCascade_badRatio {p : Params} {o : CreateOperands} (h : ratesValid o = true)
    (hr : ratioOf p.ratioTies o.inRate o.outRate = none) : createCascade p o = .error .ratioOutOfRange := by
  simp [createCascade, h, hr]

theorem createCascade_bigScratch {p : Params} {o : CreateOperands} (h : ratesValid o = true) {r : Nat}
    (hr : ratioOf p.ratioTies o.inRate o.outRate = some r) (hS : p.scratchCap < scratchSize p o.maxLen) :
    createCascade p o = .error .scratchTooLarge := by
  simp [createCascade, h, hr, hS]

theorem createCascade_badDesign {p : Params} {o : CreateOperands} (h : ratesValid o = true) {r : Nat}
    (hr : ratioOf p.ratioTies o.inRate o.outRate = some r) (hS : scratchSize p o.maxLen ≤ p.scratchCap)
    (hd : designStages Config.sin Config.cos p.sampleFmt (taps p) (factorize r) = none) :
    createCascade p o = .error .designFault := by
  simp [createCascade, h, hr, hd, Nat.not_lt.2 hS]

theorem createCascade_commits {p : Params} {o : CreateOperands} (h : ratesValid o = true) {r : Nat}
    (hr : ratioOf p.ratioTies o.inRate o.outRate = some r) (hS : scratchSize p o.maxLen ≤ p.scratchCap)
    {stages : List Stage} (hd : designStages Config.sin Config.cos p.sampleFmt (taps p) (factorize r) = some stages) :
    createCascade p o = .ok { cfg := true, ratio := r, stages := stages, scratch := scratchSize p o.maxLen,
                              achieved := achievedRate o.inRate r } := by
  simp [createCascade, h, hr, hd, Nat.not_lt.2 hS]

theorem scratchSize_int (p : Params) (n : Int) : (scratchSize p n : Int) = max n (p.minScratch : Int) := by
  unfold scratchSize; omega

/-! ### PROCESS -/

theorem processBody_error {s : State} {e : Err} (h : processCheck s.params s.cas (processOperands s.larg) = some e) :
    processBody s = .error e := by
  simp [processBody, h]

theorem processBody_ok {s : State} (h : processCheck s.params s.cas (processOperands s.larg) = none) :
    processBody s = .ok (settleWindow (racedRange s)
      (processWork (processOperands s.larg) s)) := by
  simp [processBody, h]

theorem processWork_unraced {s : State} (h : s.unraced) (o : ProcessOperands) : (processWork o s).unraced := h

/-- A PROCESS without a race that fails a check (60_exceptions.md R223). -/
theorem process_fails {s : State} (h : s.unraced) {e : Err}
    (hc : processCheck s.params s.cas (processOperands s.larg) = some e) :
    ∃ ws, exec .process s =
      .next { s with windows := ws, err := true, errCode := errCodeOf e, result := 0#64, busy := false, done := true } := by
  obtain ⟨ws, hw⟩ := settleWindow_unraced h (racedRange s)
  refine ⟨ws, ?_⟩
  simp only [exec, execProcess, processBody_error hc, finish, hw]
  rfl

/-- A PROCESS without a race that passes its checks (43_cascade.md R167). -/
theorem process_runs {s : State} (h : s.unraced)
    (hc : processCheck s.params s.cas (processOperands s.larg) = none) :
    ∃ ws, exec .process s = .next (completeOk { processWork (processOperands s.larg) s with windows := ws }) := by
  obtain ⟨ws, hw⟩ := settleWindow_unraced (processWork_unraced h (processOperands s.larg)) (racedRange s)
  refine ⟨ws, ?_⟩
  simp only [exec, execProcess, processBody_ok hc, finish, hw]

/-- Everything a PROCESS can touch, however it ends (43_cascade.md R167, 60 R223, 70 R266). -/
theorem process_frame (s : State) :
    ∃ ws m sts d res, ∃ e : Option Err, execProcess s = .next (match e with
      | none => completeOk { s with windows := ws, mem := m, cas := { s.cas with stages := sts }, draws := d, result := res }
      | some e => raiseError e { s with windows := ws, mem := m, cas := { s.cas with stages := sts }, draws := d, result := res }) ∧
      fixedPart { s.cas with stages := sts } = fixedPart s.cas := by
  unfold execProcess
  cases hc : processCheck s.params s.cas (processOperands s.larg) with
  | some e =>
    rw [processBody_error hc]
    obtain ⟨ws, m, sts, d, h, hf⟩ := settleWindow_frame (racedRange s) s
    exact ⟨ws, m, sts, d, s.result, some e, by rw [h]; rfl, hf⟩
  | none =>
    rw [processBody_ok hc]
    obtain ⟨ws, m, sts, d, h, hf⟩ := settleWindow_frame (racedRange s) (processWork (processOperands s.larg) s)
    refine ⟨ws, m, sts, d, _, none, by rw [h]; rfl, ?_⟩
    refine Eq.trans hf ?_
    unfold fixedPart processWork
    dsimp only
    rw [runStages_factors]

end Sys2Proof.Machine
end

