-- ==== Sys2Proof/Laws/PerInstr.lean ====
section
/-!
SUPPORT. The family of statements about every command as syntax: its word is well formed, its OPC is its own, and the decoder
reads the command back from it (30_encoding.md R80 to R82).
-/

namespace Sys2Proof.Laws.Encoding

/-- The word of the command is well formed, has no reserved bit, and decodes to the command, also as a table word. -/
def Statement (i : Instr) : Prop :=
  (commandFields (encode i)).wf = true ∧ (commandFields (encode i)).opc = opcodeOf i ∧
  decode (encode i) = .ok i ∧ decodeTableWord 64 (encode i).toNat = some i

theorem create : Statement .create := by unfold Statement; decide

theorem process : Statement .process := by unfold Statement; decide

theorem clear : Statement .clear := by unfold Statement; decide

theorem factorize : Statement .factorize := by unfold Statement; decide

end Sys2Proof.Laws.Encoding
end

