-- ==== Sys2Proof/Laws/Registers.lean ====
section
/-!
SUPPORT. The register words made of fields as numbers (10_state.md R26, R27, R35).
-/

namespace Sys2Proof.Machine

theorem statusWord_toNat (s : State) : (statusWord s).toNat =
    s.errCode.toNat * 256 + s.ovr.toNat * 16 + s.cas.cfg.toNat * 8 + s.err.toNat * 4 + s.done.toNat * 2 + s.busy.toNat := by
  simp only [statusWord, BitVec.toNat_append, BitVec.toNat_ofBool, BitVec.toNat_ofNat]
  rw [← Nat.shiftLeft_add_eq_or_of_lt (Bool.toNat_lt _), ← Nat.shiftLeft_add_eq_or_of_lt (Bool.toNat_lt _),
    ← Nat.shiftLeft_add_eq_or_of_lt (Bool.toNat_lt _), ← Nat.shiftLeft_add_eq_or_of_lt (Bool.toNat_lt _),
    ← Nat.shiftLeft_add_eq_or_of_lt (Bool.toNat_lt _)]
  simp only [Nat.shiftLeft_eq]
  simp
  omega

theorem ctrlWord_toNat (s : State) : (ctrlWord s).toNat = s.ie.toNat := by
  simp only [ctrlWord, BitVec.toNat_append, BitVec.toNat_ofBool, BitVec.toNat_ofNat]
  rw [← Nat.shiftLeft_add_eq_or_of_lt (Bool.toNat_lt _)]
  simp

theorem coefSelWord_toNat (s : State) : (coefSelWord s).toNat = s.coefStage.toNat * 65536 + s.coefTap.toNat := by
  simp only [coefSelWord, BitVec.toNat_append, BitVec.toNat_ofNat]
  rw [← Nat.shiftLeft_add_eq_or_of_lt s.coefTap.isLt]
  simp only [Nat.shiftLeft_eq]
  simp

theorem bit_of_toNat {w : Nat} (x : BitVec w) (i : Nat) : x.getLsbD i = decide (x.toNat / 2 ^ i % 2 = 1) := by
  rw [BitVec.getLsbD, Nat.testBit_eq_decide_div_mod_eq]

end Sys2Proof.Machine
end

