-- ==== Sys2Proof/Laws/Same.lean ====
section
/-!
SUPPORT. Samples and stages that are equal but for the bits of a NaN: the FIR step and a stage's pass keep them so (42_fir.md
R145 (c), 43_cascade.md R179).
-/

namespace Sys2Proof.Machine

theorem samePart_unpack {F : Fmt} {a b : Word} (h : samePart F a b) : unpack F a = unpack F b := by
  rcases h with rfl | ⟨h1, h2⟩
  · rfl
  · rw [h1, h2]

theorem samePart_pack {F : Fmt} {v : Fp} (x y : Word) : samePart F (pack F x v) (pack F y v) := by
  cases v with
  | nan => exact Or.inr ⟨unpack_nanPattern F x, unpack_nanPattern F y⟩
  | _ => exact Or.inl rfl

theorem sameSample_refl {F : Fmt} (x : Sample) : sameSample F x x := ⟨Or.inl rfl, Or.inl rfl⟩

theorem sameStage_refl {F : Fmt} (a : Stage) : sameStage F a a :=
  ⟨rfl, rfl, rfl, List.forall₂_same.2 fun x _ => sameSample_refl x⟩

theorem storeSample_same {F : Fmt} {T : Nat} {a b : Stage} {x y : Sample} (h : sameStage F a b) (hx : sameSample F x y) :
    sameStage F (storeSample T a x) (storeSample T b y) := by
  obtain ⟨h1, h2, h3, h4⟩ := h
  refine ⟨h1, h2, by simp [h3], ?_⟩
  simp only [storeSample_delay, storedLine, h3]
  generalize b.cursor = c
  generalize a.delay = l at h4
  generalize b.delay = l' at h4
  clear h1 h2 h3
  induction h4 generalizing c with
  | nil => exact .nil
  | cons h t ih =>
    cases c with
    | zero => exact .cons hx t
    | succ c => exact .cons h (ih c)

theorem laneSum_same {F : Fmt} (T : Nat) (coef : List Word) {l l' : List Word} (h : List.Forall₂ (samePart F) l l') (p : Nat) :
    laneSum F T coef l p = laneSum F T coef l' p := by
  have hg : ∀ k, unpack F (l.getD k 0#64) = unpack F (l'.getD k 0#64) := by
    intro k
    induction h generalizing k with
    | nil => rfl
    | cons h t ih =>
      cases k with
      | zero => exact samePart_unpack h
      | succ k => exact ih k
  unfold laneSum
  simp only [hg]

theorem firOutput_same {F : Fmt} {T dr dr' : Nat} {a b : Stage} {x y : Sample} (h : sameStage F a b) (hx : sameSample F x y) :
    sameSample F (firOutput F T dr a x) (firOutput F T dr' b y) := by
  obtain ⟨h1, h2, h3, h4⟩ := storeSample_same (T := T) h hx
  simp only [storeSample_delay] at h4
  have hre : List.Forall₂ (samePart F) ((storedLine a x).map Sample.re) ((storedLine b y).map Sample.re) := by
    rw [List.forall₂_map_left_iff, List.forall₂_map_right_iff]; exact h4.imp fun _ _ h => h.1
  have him : List.Forall₂ (samePart F) ((storedLine a x).map Sample.im) ((storedLine b y).map Sample.im) := by
    rw [List.forall₂_map_left_iff, List.forall₂_map_right_iff]; exact h4.imp fun _ _ h => h.2
  simp only [firOutput]
  rw [h.2.1, h.2.2.1, laneSum_same T _ hre, laneSum_same T _ him]
  exact ⟨samePart_pack _ _, samePart_pack _ _⟩

theorem runStage_same {F : Fmt} {T dr dr' i : Nat} {a b : Stage} {xs ys : List Sample} (h : sameStage F a b)
    (hx : List.Forall₂ (sameSample F) xs ys) :
    List.Forall₂ (sameSample F) (runStage F T dr i a xs).1 (runStage F T dr' i b ys).1 ∧
    sameStage F (xs.foldl (storeSample T) a) (ys.foldl (storeSample T) b) := by
  induction hx generalizing dr dr' i a b with
  | nil => exact ⟨.nil, h⟩
  | cons hx ht ih =>
    obtain ⟨g1, g2⟩ := ih (dr := dr + 2) (dr' := dr' + 2) (i := i + 1) (storeSample_same (T := T) h hx)
    refine ⟨?_, g2⟩
    rw [runStage_cons, runStage_cons]
    dsimp only
    rw [h.1]
    split
    · exact .cons (firOutput_same h hx) g1
    · exact g1

end Sys2Proof.Machine
end

