-- ==== Sys2Proof/Machine/Script.lean ====
section
/-!
DEFINITION. The host's script lines and pseudo-instructions and the operations they stand for (30_encoding.md R89, R90).
-/

namespace Sys2Proof.Machine

/-- A decimal of the script: `digits · 10^scale` with a sign (30_encoding.md R89; log 29). -/
structure Decimal where
  neg    : Bool
  digits : Nat
  scale  : Int
  deriving DecidableEq, Repr

/-- `f64(x)`: the pattern of the binary64 nearest to the decimal `x` (30_encoding.md R89). -/
def Decimal.f64 (x : Decimal) : Word :=
  pack .binary64 0#64 (ofRat .binary64 x.neg (x.digits * 10 ^ x.scale.toNat) (10 ^ (-x.scale).toNat))

/-- The two's complement word of an integer (30_encoding.md R90). -/
def twosComplement (n : Int) : Word := BitVec.ofInt 64 n

/-- A number of the script: its 64 bits, or `f64(x)` of a decimal (30_encoding.md R89). -/
inductive Number where
  | bits (v : Word)
  | f64 (x : Decimal)
  deriving DecidableEq, Repr

/-- The 64 bits a number stands for. -/
def Number.word : Number → Word
  | .bits v => v
  | .f64 x => x.f64

/-- One line of a script (30_encoding.md R89). -/
inductive Line where
  | wr (r : Reg) (v : Number)
  | rd (r : Reg)
  | cmd (i : Instr)
  | wait
  /-- `mem.wr a, z`: one complex sample (log 32). -/
  | memWr (a : Word) (z : Sample)
  /-- `mem.rd a`: R89 gives no size; in the model it reads one complex sample (DESIGN CHOICE, log 32). -/
  | memRd (a : Word)
  | comment (text : String)
  deriving DecidableEq, Repr

/-- The aligned 64-bit access to a register of a block placed at REG_BASE (44_host_bus.md R200). -/
def accessOf (p : Params) (r : Reg) : BusAccess := { addr := p.regBase + r.offset, width := 8 }

/-- The `n` bytes of a number, little-endian (20_memory.md R62). -/
def bytesLE (v : Nat) : Nat → List Byte
  | 0 => []
  | n + 1 => BitVec.ofNat 8 v :: bytesLE (v / 256) n

/-- The bytes of a sample as they stand in sample memory (20_memory.md R61, R62). -/
def sampleImage (F : Fmt) (z : Sample) : List Byte :=
  bytesLE z.re.toNat (partBytes F) ++ bytesLE z.im.toNat (partBytes F)

/-- The operations a line stands for (30_encoding.md R89). That `mem.rd a` reads the SZ bytes of one sample is a DESIGN CHOICE: the
spec gives it no size (log 32). -/
def Line.ops (p : Params) : Line → List HostOp
  | .wr r v => [.regWrite (accessOf p r) v.word]
  | .rd r => [.regRead (accessOf p r)]
  | .cmd i => [.regWrite (accessOf p .cmd) (encode i)]
  | .wait => [.wait]
  | .memWr a z => [.memWrite a (sampleImage p.sampleFmt z)]
  | .memRd a => [.memRead a (sampleBytes p.sampleFmt)]
  | .comment _ => []

/-- The operations of a whole script. -/
def scriptOps (p : Params) (ls : List Line) : List HostOp := ls.flatMap (Line.ops p)

/-- `create IN, OUT, MAXLEN` (30_encoding.md R90): the rates as `f64` of their decimals, the length in two's complement. -/
def pseudoCreate (inRate outRate : Decimal) (maxLen : Int) : List Line :=
  [.wr (.arg 0) (.f64 inRate), .wr (.arg 1) (.f64 outRate), .wr (.arg 2) (.bits (twosComplement maxLen)), .cmd .create, .wait]

/-- `process INB, N, OUTB, CAP` (30_encoding.md R90). -/
def pseudoProcess (inB n outB cap : Number) : List Line :=
  [.wr (.arg 0) inB, .wr (.arg 1) n, .wr (.arg 2) outB, .wr (.arg 3) cap, .cmd .process, .wait]

/-- `clear` (30_encoding.md R90). -/
def pseudoClear : List Line := [.cmd .clear, .wait]

/-- `factorize R` (30_encoding.md R90). -/
def pseudoFactorize (ratio : Number) : List Line := [.wr (.arg 0) ratio, .cmd .factorize, .wait]

/-- `ack` (30_encoding.md R90): DONE is cleared, so IRQ falls. -/
def pseudoAck : List Line := [.wr .status (.bits 2#64)]

end Sys2Proof.Machine
end

