-- ==== Sys2Proof/Tests/Slice0.lean ====
section
/-!
SUPPORT. Tests of the model against values worked out outside it (95_test_vectors.md, unless a comment says otherwise), the smoke
tests of WellFormed, and for each statement with hypotheses a theorem that shows data meeting them. The witnesses of a statement
`Obligations.X` are named `test_witness_X`.
-/

namespace Sys2Proof.Tests

open Sys2Proof Sys2Proof.Machine

-- The kernel evaluations below run one after another: each waiting one would hold a thread with a stack of its own.
set_option Elab.async false

/-! ### Small states -/

/-- The assumptions shared by the vectors, with one tap, so that no coefficient depends on SIN or COS. -/
def oneTap : Params :=
  { tapsCfg := 1, minScratch := 4096, scratchCap := 1048576, mapped := .regions [⟨0x10000, 0x20000⟩], regBase := 0x40000000 }

/-- The same with `TAPS_CFG = 5` (P2). -/
def fiveTaps : Params :=
  { tapsCfg := 5, minScratch := 4096, scratchCap := 1048576, mapped := .regions [⟨0x10000, 0x20000⟩], regBase := 0x40000000 }

/-- The ratio-2 configuration of `oneTap`, with one sample in its line. -/
def cascade1 : Cascade :=
  { cfg := true, ratio := 2, scratch := 4096, achieved := 0x3FF0000000000000#64
    stages := [{ factor := 2, coef := [0x3F800000#64], delay := [⟨0x3F800000#64, 0#64⟩], cursor := 0 }] }

/-- The ratio-1 configuration: no stage. -/
def cascade0 : Cascade := { cfg := true, ratio := 1, scratch := 4096, achieved := 0x40E7700000000000#64, stages := [] }

/-- A ratio-2 stage with the taps of V-DES-2 for `T = 5`. -/
def stage5 (delay : List Sample) (cursor : Nat) : Stage :=
  { factor := 2, coef := [0x00000000#64, 0x3E529564#64, 0x3F16B54E#64, 0x3E529564#64, 0x00000000#64],
    delay := delay, cursor := cursor }

/-- A fresh line of five slots. -/
def line5 : List Sample := List.replicate 5 Sample.zero

/-- The configuration of P2. -/
def cascade5 (delay : List Sample) (cursor : Nat) : Cascade :=
  { cfg := true, ratio := 2, scratch := 4096, achieved := 0x3FF0000000000000#64, stages := [stage5 delay cursor] }

/-- A state in which the command word `w` runs on the operands given, and the host has nothing left to do. -/
def running (p : Params) (c : Cascade) (w a0 a1 a2 a3 : Word) : State :=
  { State.resetOf p with cas := c, larg := ⟨a0, a1, a2, a3⟩, lcmd := w, busy := true }

/-- The same state with no command running. -/
def idle (p : Params) (c : Cascade) : State := { State.resetOf p with cas := c }

/-- A view of the next state, where there is one. -/
def after {α : Type} (r : Result) (view : State → α) : Option α :=
  match r with
  | .next t => some (view t)
  | _ => none

/-- The reason of a refusal, where there is one. -/
def refusal (r : Result) : Option Refusal :=
  match r with
  | .refused e => some e
  | _ => none

/-- The values 200000, 25000, 2.0, 1.0, 1e300 and 1e-300 as binary64 patterns. -/
def f200000 : Word := 0x41086A0000000000#64
def f25000 : Word := 0x40D86A0000000000#64
def two : Word := 0x4000000000000000#64
def one : Word := 0x3FF0000000000000#64
def huge : Word := 0x7E37E43C8800759C#64
def tiny : Word := 0x01A56E1FC2F8F359#64

/-! ### WellFormed and Decode -/

/-- 30_encoding.md R80, R83: each check of a command word refuses a term of its own. -/
theorem test_commandWord_wf :
    CommandWord.wf ⟨0#56, 0x02#8⟩ = true ∧ CommandWord.wf ⟨1#56, 0x02#8⟩ = false ∧ CommandWord.wf ⟨0#56, 0x00#8⟩ = false ∧
      CommandWord.wf ⟨0#56, 0x05#8⟩ = false ∧ CommandWord.wf ⟨0#56, 0xFF#8⟩ = false := by decide

/-- 44_host_bus.md R200, R208: each check of a bus access refuses a term of its own. -/
theorem test_busAccess_wf :
    BusAccess.wf 0x1000 ⟨0x1000, 8⟩ = true ∧ BusAccess.wf 0x1000 ⟨0x1FF8, 8⟩ = true ∧
      BusAccess.wf 0x1000 ⟨0x1000, 4⟩ = false ∧ BusAccess.wf 0x1000 ⟨0x0FF8, 8⟩ = false ∧
      BusAccess.wf 0x1000 ⟨0x1004, 8⟩ = false ∧ BusAccess.wf 0x1000 ⟨0x2000, 8⟩ = false := by decide

/-- 30_encoding.md R80, R82: the word of CREATE, its RSVD and OPC written out bit by bit. -/
theorem test_decode_create :
    decode (0b00000000000000000000000000000000000000000000000000000000#56 ++ 0b00000001#8) = .ok .create := by decide

theorem test_decode_process :
    decode (0b00000000000000000000000000000000000000000000000000000000#56 ++ 0b00000010#8) = .ok .process := by decide

theorem test_decode_clear :
    decode (0b00000000000000000000000000000000000000000000000000000000#56 ++ 0b00000011#8) = .ok .clear := by decide

theorem test_decode_factorize :
    decode (0b00000000000000000000000000000000000000000000000000000000#56 ++ 0b00000100#8) = .ok .factorize := by decide

/-- 30_encoding.md R83: bits above OPC, OPC 0 and the first and last codes without a command. -/
theorem test_decode_illegal :
    decode 0x0000000000000102#64 = .error .reservedBits ∧ decode 0x8000000000000001#64 = .error .reservedBits ∧
      decode 0x0000000000000105#64 = .error .reservedBits ∧ decode 0#64 = .error .unknownOpcode ∧
      decode 0x05#64 = .error .unknownOpcode ∧ decode 0xFF#64 = .error .unknownOpcode := by decide

/-- The opcode table's numbering, on the word of PROCESS and on one with a reserved bit. -/
theorem test_decodeTableWord :
    decodeTableWord 64 2 = some .process ∧ decodeTableWord 64 258 = none := by decide

/-- 10_state.md R23: some offsets of the register map, its ends and a reserved one. -/
theorem test_register_map :
    regAt 0x008 = some .cmd ∧ regAt 0x038 = some (.arg 3) ∧ regAt 0x080 = some .fzN ∧ regAt 0x100 = some (.factor 0) ∧
      regAt 0x1F8 = some (.factor 31) ∧ regAt 0x200 = some (.fz 0) ∧ regAt 0x2F8 = some (.fz 31) ∧ regAt 0x088 = none ∧
      regAt 0x300 = none := by decide

/-! ### The factorizer, the designer and the FIR step -/

/-- V-FAC-1, rows that a swapped preference or a lost residual would break. -/
theorem test_factorize_lists :
    factorize 12 = [6, 2] ∧ factorize 14 = [2, 7] ∧ factorize 32 = [8, 4] ∧ factorize 49 = [49] ∧
      factorize 1000 = [8, 5, 5, 5] ∧ factorize 2310 = [6, 5, 77] ∧ factorize 1549681956 = 6 :: 6 :: List.replicate 16 3 := by
  decide +kernel

/-- The C library's `sin` at the two arguments that `T = 5`, `f = 2` needs (computed outside the model). -/
def sinTable (w : Word) : Word :=
  if w = 0xC0069E9565708EFC#64 then 0xBFD3C6EF372FE951#64
  else if w = 0xBFF69E9565708EFC#64 then 0xBFEF9B24942FE45C#64
  else 0#64

/-- The C library's `cos` at 0, PI/2 and PI (computed outside the model). -/
def cosTable (w : Word) : Word :=
  if w = 0#64 then 0x3FF0000000000000#64
  else if w = 0x3FF921FB54442D18#64 then 0x3C91A62633145C07#64
  else 0xBFF0000000000000#64

/-- V-DES-2: the taps of `T = 5`, `f = 2`, in binary32 and in binary64. -/
theorem test_design_five_taps :
    design sinTable cosTable .binary32 2 5 =
        some [0x00000000#64, 0x3E529564#64, 0x3F16B54E#64, 0x3E529564#64, 0x00000000#64] ∧
      design sinTable cosTable .binary64 2 5 =
        some [0x0000000000000000#64, 0x3FCA52AC8E08451C#64, 0x3FE2D6A9B8FBDD72#64, 0x3FCA52AC8E08451C#64,
          0x0000000000000000#64] := by decide +kernel

/-- V-DES-5: a SIN that returns NaN makes a DESIGN_FAULT for `T = 3`, and is not called for `T = 1`. -/
theorem test_design_fault :
    design (fun _ => 0x7FF8000000000000#64) cosTable .binary32 8 3 = none ∧
      design (fun _ => 0x7FF8000000000000#64) cosTable .binary32 8 1 = some [0x3F800000#64] := by decide +kernel

/-- V-DES-1: the tap count is the next odd number. -/
theorem test_taps : taps oneTap = 1 ∧ taps fiveTaps = 5 ∧ taps { tapsCfg := 4 } = 5 ∧ taps { tapsCfg := 0 } = 1 ∧
    taps { tapsCfg := 62 } = 63 := by decide

/-- V-RAT-1: the two ties of the table under each rule, the clamp and the two ways out of range. -/
theorem test_ratio_ties :
    (ratioOf .even (f64Nat 5) (f64Nat 2) = some 2 ∧ ratioOf .away (f64Nat 5) (f64Nat 2) = some 3) ∧
      (ratioOf .even (f64Nat 7) (f64Nat 2) = some 4 ∧ ratioOf .away (f64Nat 7) (f64Nat 2) = some 4) ∧
      ratioOf .even (f64Nat 1000) (f64Nat 3000) = some 1 ∧ ratioOf .even (f64Nat 2147483648) (f64Nat 1) = none ∧
      ratioOf .even (unpack .binary64 huge) (unpack .binary64 tiny) = none := by decide +kernel

/-- V-FIR-1: the impulse reads the taps out in order and then leaves the line. -/
theorem test_impulse_response :
    (runStage .binary32 5 0 0 { stage5 line5 0 with factor := 1 } (⟨0x3F800000#64, 0#64⟩ :: line5)).1.map Sample.re =
      [0x00000000#64, 0x3E529564#64, 0x3F16B54E#64, 0x3E529564#64, 0x00000000#64, 0x00000000#64] := by decide +kernel

/-- V-FIR-2, V-FIR-4: -0.0 never comes out, and the lanes do not mix. -/
theorem test_lanes_and_zero :
    (runStage .binary32 5 0 0 (stage5 line5 0) (⟨0x3F800000#64, 0x3F000000#64⟩ :: line5.take 3)).1 =
        [⟨0#64, 0#64⟩, ⟨0x3F16B54E#64, 0x3E96B54E#64⟩] ∧
      (firStep .binary32 5 0 (stage5 line5 0) ⟨0x80000000#64, 0x80000000#64⟩).1 = ⟨0#64, 0#64⟩ := by decide +kernel

/-- V-CAS-1: lengths with truncation at the capacity and at the scratch size. -/
theorem test_produced_lengths :
    min (keptLen 4096 [3] 10) 100 = 4 ∧ min (keptLen 4096 [6, 6] 3600) 50 = 50 ∧ min (keptLen 4096 [8, 2] 40000) 100000 = 2048 ∧
      min (keptLen 4096 [6, 6] 1000000) 100000 = 683 ∧ min (keptLen 4096 [] 10000) 10000 = 10000 := by decide

/-! ### The commands -/

/-- V-RAT-4 (2.0 over 1.0) and P2: a CREATE at ratio 2. -/
theorem test_create_configures :
    after (exec .create (running oneTap Cascade.unconfigured 1#64 two one 16#64 0#64))
        (fun t => [regValue t .status, regValue t .result, regValue t .ratio, regValue t .nstages, regValue t (.factor 0),
          regValue t (.factor 1), regValue t .scratch, regValue t .achieved, regValue t .coefData]) =
      some [0xA#64, 1#64, 2#64, 1#64, 2#64, 0#64, 4096#64, 0x3FF0000000000000#64, 0x3FF0000000000000#64] := by decide +kernel

/-- V-RAT-2, V-RAT-3, V-RAT-5: STATUS after CREATEs that fail, on a block that was configured. -/
theorem test_create_errors :
    let status := fun a0 a1 a2 => after (exec .create (running oneTap cascade1 1#64 a0 a1 a2 0#64)) (regValue · .status)
    status 0x8000000000000000#64 f25000 1024#64 = some 0x306#64 ∧ status f200000 0x7FF0000000000000#64 1024#64 = some 0x306#64 ∧
      status 0x7FF8000000000000#64 f25000 1024#64 = some 0x306#64 ∧ status 0xBFF0000000000000#64 tiny (1#64 <<< 40) = some 0x306#64 ∧
      status huge tiny (1#64 <<< 40) = some 0x406#64 ∧ status f200000 f25000 1048577#64 = some 0x506#64 ∧
      status f200000 f25000 (-1#64) = some 0xA#64 := by decide +kernel

/-- The input A of P2 in sample memory. -/
def inputA : Memory := writeSamples .binary32 [] 0x10000 (⟨0x3F800000#64, 0#64⟩ :: line5)

/-- P2, first PROCESS: result, outputs, cursor and STATUS. -/
theorem test_process_impulse :
    after (exec .process { running fiveTaps (cascade5 line5 0) 2#64 0x10000#64 6#64 0x20000#64 8#64 with mem := inputA })
        (fun t => (regValue t .status, regValue t .result, readSamples .binary32 t.mem 0x20000 3, t.cas.stages.map Stage.cursor)) =
      some (0xA#64, 3#64, [⟨0#64, 0#64⟩, ⟨0x3F16B54E#64, 0#64⟩, ⟨0#64, 0#64⟩], [1]) := by decide +kernel

/-- V-ERR: STATUS after PROCESS commands that fail or look as if they would. -/
theorem test_process_errors :
    let status := fun c a0 a1 a2 a3 => after (exec .process (running oneTap c 2#64 a0 a1 a2 a3)) (regValue · .status)
    status Cascade.unconfigured 0x10002#64 4#64 0xFFFFFFFFFFFFFFF8#64 4#64 = some 0x206#64 ∧
      status cascade1 0x10002#64 4#64 0xFFFFFFFFFFFFFFF8#64 4#64 = some 0x70E#64 ∧
      status cascade1 0x10000#64 8#64 0x20001#64 8#64 = some 0x70E#64 ∧ status cascade1 0x2FFF8#64 2#64 0x20000#64 4#64 = some 0x80E#64 ∧
      status cascade1 0xFFFFFFFFFFFFFFF8#64 2#64 0x20000#64 4#64 = some 0x80E#64 ∧
      status cascade1 0x10002#64 0#64 0x20000#64 4#64 = some 0xA#64 ∧
      status cascade1 0x10000#64 8#64 0x20001#64 0#64 = some 0xA#64 := by decide +kernel

/-- P2, the CLEAR: the line and the cursor, from a history of nine samples. -/
theorem test_clear_zeroes :
    after (exec .clear (running fiveTaps (cascade5 (⟨0#64, 0x40000000#64⟩ :: line5.take 4) 4) 3#64 0#64 0#64 0#64 0#64))
        (fun t => (t.cas, regValue t .result, regValue t .status)) =
      some (cascade5 line5 0, 0#64, 0xA#64) := by decide +kernel

/-- V-ERR: CLEAR on an unconfigured block. -/
theorem test_clear_unconfigured :
    after (exec .clear (running fiveTaps Cascade.unconfigured 3#64 0#64 0#64 0#64 0#64)) (regValue · .status) =
      some 0x206#64 := by decide +kernel

/-- V-FAC-2: the rows for 36, 1 and 3^19. -/
theorem test_factorize_results :
    let view := fun a0 => after (exec .factorize (running oneTap Cascade.unconfigured 4#64 a0 0#64 0#64 0#64))
      fun t => [regValue t .status, regValue t .result, regValue t .fzN, regValue t (.fz 0), regValue t (.fz 1), regValue t (.fz 18),
        regValue t (.fz 19)]
    view 36#64 = some [2#64, 2#64, 2#64, 6#64, 6#64, 0#64, 0#64] ∧ view 1#64 = some [2#64, 0#64, 0#64, 0#64, 0#64, 0#64, 0#64] ∧
      view 1162261467#64 = some [2#64, 19#64, 19#64, 3#64, 3#64, 3#64, 0#64] := by decide +kernel

/-- V-FAC-2: the two errors; the list of an earlier FACTORIZE stays. -/
theorem test_factorize_errors :
    let view := fun a0 => after (exec .factorize { running oneTap cascade1 4#64 a0 0#64 0#64 0#64 with fz := [6, 6] })
      fun t => [regValue t .status, regValue t .result, regValue t .fzN]
    view 0#64 = some [0x60E#64, 0#64, 2#64] ∧ view 0x80000000#64 = some [0x40E#64, 0#64, 2#64] ∧
      view (-1#64) = some [0x40E#64, 0#64, 2#64] := by decide +kernel

/-- V-ERR: three words that are no command, on a configured block. -/
theorem test_illegal_words :
    let status := fun w => after (engineStep (running oneTap cascade1 w 0#64 0#64 0#64 0#64)) (regValue · .status)
    status 5#64 = some 0x10E#64 ∧ status 0#64 = some 0x10E#64 ∧ status 0x102#64 = some 0x10E#64 := by decide +kernel

/-- A command placed where the engine takes its next one is what the next step runs, from reset (here PROCESS, with code 2). -/
theorem test_placed_command_runs :
    after (step (State.reset.withFetchWord 64 2)) (fun t => (t.errCode, t.done)) = some (2#8, true) := by decide +kernel

/-! ### Registers, overrun and reset -/

/-- V-REG: writes to STATUS, CTRL and COEF_SEL, and a write that is ignored. -/
theorem test_register_writes :
    regValue (writeReg (some .status) (-1#64) { idle oneTap cascade1 with done := true }) .status = 8#64 ∧
      regValue (writeReg (some .status) 2#64 { idle oneTap cascade1 with done := true, err := true, errCode := 7#8 }) .status =
        0x70C#64 ∧
      regValue (writeReg (some .ctrl) (-1#64) (idle oneTap cascade1)) .ctrl = 1#64 ∧
      regValue (writeReg (some .coefSel) (-1#64) (idle oneTap cascade1)) .coefSel = 0x1FFFFF#64 ∧
      regValue (writeReg (some .result) 5#64 (idle oneTap cascade1)) .result = 0#64 := by decide +kernel

/-- V-DES-2, V-REG: COEF_DATA widened from binary32, and 0 outside the set. -/
theorem test_coefficient_reads :
    let at' := fun tap stage => regValue { idle fiveTaps (cascade5 line5 0) with coefTap := tap, coefStage := stage } .coefData
    at' 1#16 0#5 = 0x3FCA52AC80000000#64 ∧ at' 2#16 0#5 = 0x3FE2D6A9C0000000#64 ∧ at' 5#16 0#5 = 0#64 ∧ at' 2#16 1#5 = 0#64 := by
  decide +kernel

/-- V-REG: reads that the host makes on the bus, and two accesses that are refused. -/
theorem test_bus_accesses :
    let read := fun a => after (step { State.resetOf oneTap with host := [.regRead a] }) State.replies
    read ⟨0x40000000, 8⟩ = some [.reg 0x4644430000000001#64] ∧ read ⟨0x40000060, 8⟩ = some [.reg 1#64] ∧
      read ⟨0x40000088, 8⟩ = some [.reg 0#64] ∧ read ⟨0x40000FF8, 8⟩ = some [.reg 0#64] ∧
      refusal (step { State.resetOf oneTap with host := [.regRead ⟨0x40000000, 4⟩] }) = some .unsupportedAccess ∧
      refusal (step { State.resetOf oneTap with host := [.regRead ⟨0x40000004, 8⟩] }) = some .unsupportedAccess := by decide +kernel

/-- P6: a CMD write before the engine step of a PROCESS. -/
theorem test_overrun :
    let t := writeReg (some .cmd) 3#64 (running oneTap cascade1 2#64 0x10000#64 2#64 0x20000#64 1#64)
    (t.busy, t.done, t.ovr, t.cmd, t.lost) = (true, false, true, 3#64, some ⟨0x20000, 8⟩) := by decide +kernel

/-- P5: IRQ rises with DONE when enabled, and falls at the acknowledgement. -/
theorem test_interrupt :
    after (exec .clear { running oneTap cascade1 3#64 0#64 0#64 0#64 0#64 with ie := true })
        (fun t => (irq t, irq (writeReg (some .status) 2#64 t))) = some (true, false) := by decide +kernel

/-- 70_reset_and_hazards.md R266: a window opens at the CMD write of a PROCESS, closes at the read of DONE = 1 for it, and stays when
that read comes only after a later command has started. -/
theorem test_windows :
    let s := idle oneTap cascade1
    let opened := (startCommand 2#64 { s with args := ⟨0x10000#64, 2#64, 0x20000#64, 4#64⟩ }).windows
    let ran := opened.map fun w => { w with ran := true }
    opened.map (fun w => (w.input, w.output)) = [(⟨0x10000, 16⟩, ⟨0x20000, 32⟩)] ∧ (startCommand 3#64 s).windows = [] ∧
      (readReg (some .status) { s with windows := ran, done := true }).windows = [] ∧
      (readReg (some .status) { s with windows := (startCommand 3#64 { s with windows := ran }).windows, done := true }).windows.length
        = 1 := by decide +kernel

/-- 70_reset_and_hazards.md R260: a reset of a configured block with an error. -/
theorem test_reset :
    after (step { idle oneTap cascade1 with host := [.reset], done := true, err := true, errCode := 7#8, ie := true,
                                            fz := [6, 6], result := 3#64, mem := [(0x10000, 1#8)] })
        (fun t => ([regValue t .status, regValue t .ctrl, regValue t .fzN, regValue t .result, regValue t .ratio],
          loadByte t.mem 0x10000)) =
      some ([0#64, 0#64, 0#64, 0#64, 0#64], 1#8) := by decide +kernel

/-- 30_encoding.md R90, 95_test_vectors.md (the table of encodings): `create 1e300, 1e-300, -1`, and `create 2.0, 1.0, 16` of P2. -/
theorem test_script_create :
    (scriptOps oneTap (pseudoCreate ⟨false, 1, 300⟩ ⟨false, 1, -300⟩ (-1))).take 3 =
        [.regWrite ⟨0x40000020, 8⟩ huge, .regWrite ⟨0x40000028, 8⟩ tiny, .regWrite ⟨0x40000030, 8⟩ 0xFFFFFFFFFFFFFFFF#64] ∧
      scriptOps oneTap (pseudoCreate ⟨false, 20, -1⟩ ⟨false, 1, 0⟩ 16) =
        [.regWrite ⟨0x40000020, 8⟩ two, .regWrite ⟨0x40000028, 8⟩ one, .regWrite ⟨0x40000030, 8⟩ 16#64,
          .regWrite ⟨0x40000008, 8⟩ 1#64, .wait] := by decide +kernel

/-- 30_encoding.md R90: the operations of the pseudo-instruction `clear`, and the bytes of a sample line (20_memory.md R62). -/
theorem test_script_lines :
    scriptOps oneTap pseudoClear = [.regWrite ⟨0x40000008, 8⟩ 3#64, .wait] ∧
      Line.ops oneTap (.memWr 0x10000#64 ⟨0x3F800000#64, 0#64⟩) =
        [.memWrite 0x10000#64 [0x00#8, 0x00#8, 0x80#8, 0x3F#8, 0#8, 0#8, 0#8, 0#8]] ∧
      (Number.f64 ⟨false, 2, 5⟩).word = f200000 := by decide +kernel

/-! ### Witnesses: data that meet the hypotheses of each statement -/

/-- A configured block meets the invariant with any command running on it. -/
theorem configured_inv (w a0 a1 a2 a3 : Word) : (running oneTap cascade1 w a0 a1 a2 a3).Inv where
  mem := rfl
  status := by simp [running, State.resetOf, statusOk]
  cascade _ := by
    show cascadeOk oneTap cascade1
    decide +kernel
  factors _ := by
    show factorsOk []
    decide
  lost := fun _ h => by cases h
  windows := fun _ h => by cases h

/-- Nobody has raced it. -/
theorem configured_unraced (w a0 a1 a2 a3 : Word) : (running oneTap cascade1 w a0 a1 a2 a3).unraced :=
  fun _ h => by cases h

theorem test_witness_RegisterMapRoundTrip : regAt 0x100 = some (.factor 0) ∧ 0x088 ≤ 0x088 ∧ 0x0F8 < 0x100 ∧ 0x300 ≤ 0x300 := by
  decide

/-- The lowest word above the codes, word 0 and one with a reserved bit. -/
theorem test_witness_IllegalWordCompletesWithCodeOne :
    ∀ w ∈ [0, 5, 0x102, 2 ^ 64 - 1], ¬ (1 ≤ (BitVec.ofNat 64 w).toNat ∧ (BitVec.ofNat 64 w).toNat ≤ 4) := by decide

theorem test_witness_StepRunsDecodedCommand :
    (let s := running oneTap cascade1 3#64 0#64 0#64 0#64 0#64
     s.busy = true ∧ s.ovr = false ∧ decode s.lcmd = .ok .clear ∧ s.host = []) ∧
      (let s := { running oneTap cascade1 3#64 0#64 0#64 0#64 0#64 with host := [.engine, .wait] }
       s.busy = true ∧ s.ovr = false ∧ decode s.lcmd = .ok .clear ∧ s.host = .engine :: [.wait]) := by decide

theorem test_witness_HostOperationTakesItsTurn :
    ({ idle oneTap cascade1 with host := [.wait] }.host = .wait :: [] ∧ HostOp.wait ≠ .engine) ∧
      (let s := { idle oneTap cascade1 with host := [.engine] }
       s.host = .engine :: [] ∧ s.busy = false) ∧
      (let s := idle oneTap cascade1
       s.host = [] ∧ s.busy = false ∧ s.ovr = false) := by decide

/-- The operands where the three clauses meet. -/
theorem test_witness_FactorizeResult :
    let r := fun a0 => (running oneTap Cascade.unconfigured 4#64 a0 0#64 0#64 0#64).larg.a0.toNat
    r 0#64 = 0 ∧ (1 ≤ r 1#64 ∧ r 1#64 ≤ 2 ^ 31 - 1) ∧ (1 ≤ r 0x7FFFFFFF#64 ∧ r 0x7FFFFFFF#64 ≤ 2 ^ 31 - 1) ∧
      2 ^ 31 - 1 < r 0x80000000#64 ∧ 2 ^ 31 - 1 < r (-1#64) := by decide

theorem test_witness_FactorListProperties :
    1 ≤ 1 ∧ 1 ≤ 2147483647 ∧ 2147483647 ≤ 2 ^ 31 - 1 ∧ 3 ∈ (factorize 3).getLast? ∧ 6 ∈ (factorize 36).dropLast := by
  decide +kernel

/-- Rates that pass, at both ends of their range, with a ratio, a scratch size and a design that pass too. -/
theorem test_witness_CreateConfigures :
    (let s := running oneTap cascade1 1#64 two one 16#64 0#64
     0 < s.larg.a0.toNat ∧ s.larg.a0.toNat < 0x7FF0000000000000 ∧ 0 < s.larg.a1.toNat ∧ s.larg.a1.toNat < 0x7FF0000000000000 ∧
       ratioOf s.params.ratioTies (unpack .binary64 s.larg.a0) (unpack .binary64 s.larg.a1) = some 2 ∧
       max s.larg.a2.toInt (s.params.minScratch : Int) ≤ (s.params.scratchCap : Int) ∧
       ∀ f ∈ factorize 2, design Config.sin Config.cos s.params.sampleFmt f (taps s.params) ≠ none) ∧
      (let s := running oneTap cascade1 1#64 1#64 0x7FEFFFFFFFFFFFFF#64 1048576#64 0#64
       0 < s.larg.a0.toNat ∧ s.larg.a0.toNat < 0x7FF0000000000000 ∧ 0 < s.larg.a1.toNat ∧ s.larg.a1.toNat < 0x7FF0000000000000 ∧
         ratioOf s.params.ratioTies (unpack .binary64 s.larg.a0) (unpack .binary64 s.larg.a1) = some 1 ∧
         max s.larg.a2.toInt (s.params.minScratch : Int) ≤ (s.params.scratchCap : Int) ∧
         ∀ f ∈ factorize 1, design Config.sin Config.cos s.params.sampleFmt f (taps s.params) ≠ none) := by decide +kernel

/-- Patterns just outside the accepted ones, and the two ends of these. -/
theorem test_witness_CreateRejectsRates :
    (∀ w ∈ [0, 0x7FF0000000000000, 0x7FF8000000000000, 0x8000000000000000, 0xFFFFFFFFFFFFFFFF],
      ¬ (0 < (BitVec.ofNat 64 w).toNat ∧ (BitVec.ofNat 64 w).toNat < 0x7FF0000000000000)) ∧
      (∀ w ∈ [1, 0x7FEFFFFFFFFFFFFF], 0 < (BitVec.ofNat 64 w).toNat ∧ (BitVec.ofNat 64 w).toNat < 0x7FF0000000000000) ∧
      (∃ t, exec .create (running oneTap cascade1 1#64 1#64 0x7FEFFFFFFFFFFFFF#64 0#64 0#64) = .next t) ∧
      ∃ t, exec .process (idle oneTap cascade1) = .next t :=
  ⟨by decide, by decide, ⟨_, rfl⟩, ⟨_, rfl⟩⟩

theorem test_witness_RatioRoundsToNearest :
    (let s := running oneTap cascade1 1#64 two one 16#64 0#64
     0 < s.larg.a0.toNat ∧ s.larg.a0.toNat < 0x7FF0000000000000 ∧ 0 < s.larg.a1.toNat ∧ s.larg.a1.toNat < 0x7FF0000000000000 ∧
       after (exec .create s) State.err = some false) ∧
      fdiv .binary64 (unpack .binary64 huge) (unpack .binary64 tiny) = .inf false ∧
      fdiv .binary64 (f64Nat 5) (f64Nat 2) = .fin false ((2 * 2 + 1) * 2 ^ 1074 / 2) ∧
      fdiv .binary64 (f64Nat 7) (f64Nat 2) = .fin false ((2 * 3 + 1) * 2 ^ 1074 / 2) := by decide +kernel

/-- A CREATE that succeeds at the cap and below the minimum, and one that is one above the cap. -/
theorem test_witness_ScratchSizeClampsUp :
    after (exec .create (running oneTap cascade1 1#64 two one 1048576#64 0#64)) State.err = some false ∧
      after (exec .create (running oneTap cascade1 1#64 two one (-1#64) 0#64)) State.err = some false ∧
      (let s := running oneTap cascade1 1#64 two one 1048577#64 0#64
       0 < s.larg.a0.toNat ∧ s.larg.a0.toNat < 0x7FF0000000000000 ∧ 0 < s.larg.a1.toNat ∧ s.larg.a1.toNat < 0x7FF0000000000000 ∧
         ratioOf s.params.ratioTies (unpack .binary64 s.larg.a0) (unpack .binary64 s.larg.a1) ≠ none ∧
         (s.params.scratchCap : Int) < max s.larg.a2.toInt (s.params.minScratch : Int)) := by decide +kernel

/-- Rates that pass, for each of the outcomes 4, 5 and 0. (Code 10 depends on SIN and COS, which are OPEN.) -/
theorem test_witness_CreateReportsFirstError :
    let ok := fun s : State =>
      0 < s.larg.a0.toNat ∧ s.larg.a0.toNat < 0x7FF0000000000000 ∧ 0 < s.larg.a1.toNat ∧ s.larg.a1.toNat < 0x7FF0000000000000
    let code := fun s => after (exec .create s) State.errCode
    let s4 := running oneTap cascade1 1#64 huge tiny (1#64 <<< 40) 0#64
    let s5 := running oneTap cascade1 1#64 two one 1048577#64 0#64
    let s0 := running oneTap cascade1 1#64 two one 1048576#64 0#64
    (ok s4 ∧ code s4 = some 4#8) ∧ (ok s5 ∧ code s5 = some 5#8) ∧ (ok s0 ∧ code s0 = some 0#8) := by decide +kernel

theorem test_witness_CreateDeterministic :
    let s := running oneTap Cascade.unconfigured 1#64 two one 16#64 0#64
    let s' := running oneTap cascade1 1#64 two one 16#64 7#64
    s.params = s'.params ∧ s.larg.a0 = s'.larg.a0 ∧ s.larg.a1 = s'.larg.a1 ∧ s.larg.a2 = s'.larg.a2 ∧
      (∃ t, exec .create s = .next t) ∧ ∃ t', exec .create s' = .next t' :=
  ⟨rfl, rfl, rfl, rfl, ⟨_, rfl⟩, ⟨_, rfl⟩⟩

theorem test_witness_DesignIsSymmetric :
    design sinTable cosTable fiveTaps.sampleFmt 2 (taps fiveTaps) =
      some [0x00000000#64, 0x3E529564#64, 0x3F16B54E#64, 0x3E529564#64, 0x00000000#64] := by decide +kernel

theorem test_witness_OneTapIsUnity : 1 ≤ 1 ∧ 1 ≤ 2147483647 := by decide

/-- One state per clause, the checks failing at the ends of the mapped region and of the address space. -/
theorem test_witness_ProcessRejectsInOrder :
    (let s := running oneTap Cascade.unconfigured 2#64 0x10002#64 4#64 0#64 4#64
     s.unraced ∧ s.cas.cfg = false) ∧
      (let s := running oneTap cascade1 2#64 0x10002#64 1#64 0#64 4#64
       s.cas.cfg = true ∧ 0 < s.larg.a1.toNat ∧ s.larg.a0.toNat % partBytes s.params.sampleFmt ≠ 0) ∧
      (∀ b ∈ [0x2FFFC, 0x0FFFC, 0xFFFFFFFFFFFFFFFC],
        let s := running oneTap cascade1 2#64 (BitVec.ofNat 64 b) 1#64 0#64 4#64
        s.cas.cfg = true ∧ 0 < s.larg.a1.toNat ∧ s.larg.a0.toNat % partBytes s.params.sampleFmt = 0 ∧
          inRange s.params s.larg.a0.toNat s.larg.a1.toNat = false) ∧
      (let s := running oneTap cascade1 2#64 0x2FFF8#64 1#64 0x20001#64 1#64
       s.cas.cfg = true ∧ s.larg.a0.toNat % partBytes s.params.sampleFmt = 0 ∧
         inRange s.params s.larg.a0.toNat s.larg.a1.toNat = true ∧
         0 < producedLen s.cas s.larg.a1.toNat s.larg.a3.toNat ∧ s.larg.a2.toNat % partBytes s.params.sampleFmt ≠ 0) ∧
      (let s := running oneTap cascade1 2#64 0x10000#64 2#64 0x2FFFC#64 1#64
       s.cas.cfg = true ∧ s.larg.a0.toNat % partBytes s.params.sampleFmt = 0 ∧
         inRange s.params s.larg.a0.toNat s.larg.a1.toNat = true ∧
         0 < producedLen s.cas s.larg.a1.toNat s.larg.a3.toNat ∧ s.larg.a2.toNat % partBytes s.params.sampleFmt = 0 ∧
         inRange s.params s.larg.a2.toNat (producedLen s.cas s.larg.a1.toNat s.larg.a3.toNat) = false) := by decide +kernel

/-- Buffers at the last places they fit, an empty input and an empty output. -/
theorem test_witness_ProcessCompletes :
    ∀ l ∈ [(0x2FFF0, 2, 0x2FFF8, 1), (0x3, 0, 0x5, 9), (0x10000, 2, 0x5, 0)],
      let w := BitVec.ofNat 64
      let s := running oneTap cascade1 2#64 (w l.1) (w l.2.1) (w l.2.2.1) (w l.2.2.2)
      let produced := producedLen s.cas s.larg.a1.toNat s.larg.a3.toNat
      s.Inv ∧ s.unraced ∧ s.ovr = false ∧ s.cas.cfg = true ∧
        (s.larg.a1.toNat = 0 ∨ (s.larg.a0.toNat % partBytes s.params.sampleFmt = 0 ∧
          inRange s.params s.larg.a0.toNat s.larg.a1.toNat = true)) ∧
        (produced = 0 ∨ (s.larg.a2.toNat % partBytes s.params.sampleFmt = 0 ∧ inRange s.params s.larg.a2.toNat produced = true)) := by
  intro l hl
  refine ⟨configured_inv _ _ _ _ _, configured_unraced _ _ _ _ _, rfl, rfl, ?_⟩
  revert l
  decide +kernel

/-- A length whose first stage fills the scratch size exactly. -/
theorem test_witness_ProducedLengthMatchesRatio :
    cascade1.cfg = true ∧ cascadeOk oneTap cascade1 ∧ ceilDiv 8192 2 = 4096 ∧
      ∀ f ∈ (cascade1.stages.map Stage.factor).head?, ceilDiv 8192 f ≤ cascade1.scratch := by decide +kernel

theorem test_witness_PassThroughCopiesBits :
    let s := running oneTap cascade0 2#64 0x10000#64 5#64 0x20000#64 3#64
    s.mem.wf = true ∧ s.unraced ∧ s.cas.cfg = true ∧ s.cas.stages = [] ∧
      (s.larg.a0.toNat % partBytes s.params.sampleFmt = 0 ∧ inRange s.params s.larg.a0.toNat s.larg.a1.toNat = true) ∧
      s.larg.a2.toNat % partBytes s.params.sampleFmt = 0 ∧
      inRange s.params s.larg.a2.toNat (min s.larg.a1.toNat s.larg.a3.toNat) = true := by decide +kernel

theorem test_witness_EmptyInputChangesNothing :
    (let s := running oneTap cascade1 2#64 0x10002#64 0#64 0x20001#64 4#64
     s.unraced ∧ s.larg.a1.toNat = 0 ∧ s.cas.cfg = true) ∧
      (let s := running oneTap Cascade.unconfigured 2#64 0x10002#64 0#64 0x20001#64 4#64
       s.unraced ∧ s.larg.a1.toNat = 0 ∧ s.cas.cfg = false) := by decide

theorem test_witness_KeptOutputsAreMultiples :
    0 < (stage5 line5 0).factor ∧ 2 < (runStage .binary32 5 0 0 (stage5 line5 0) line5).1.length := by decide +kernel

theorem test_witness_DelayLineHoldsLastInputs :
    (stage5 line5 4).delay.length = 5 ∧ (stage5 line5 4).cursor < 5 ∧ line5.length = 5 := by decide

theorem test_witness_FirStepIsConvolution :
    (stage5 line5 4).delay.length = 5 ∧ (stage5 line5 4).cursor < 5 ∧ (stage5 line5 4).coef.length = 5 := by decide

/-- The same history at two different cursors. -/
theorem test_witness_CursorUnobservable :
    let a := stage5 (⟨0x3F800000#64, 0#64⟩ :: line5.take 4) 1
    let b := stage5 (line5.take 4 ++ [⟨0x3F800000#64, 0#64⟩]) 0
    a.delay.length = 5 ∧ b.delay.length = 5 ∧ a.cursor < 5 ∧ b.cursor < 5 ∧ a.coef.length = 5 ∧ a.coef = b.coef ∧
      a.factor = b.factor ∧ history 5 a = history 5 b := by decide

/-- One pair of stages for each of the three clauses. -/
theorem test_witness_LanesIndependent :
    let a := stage5 [⟨1#64, 2#64⟩, ⟨3#64, 4#64⟩] 0
    let b := stage5 [⟨1#64, 5#64⟩, ⟨3#64, 6#64⟩] 0
    let c := stage5 [⟨7#64, 2#64⟩, ⟨8#64, 4#64⟩] 0
    let d := stage5 [⟨9#64, 1#64⟩, ⟨9#64, 3#64⟩] 0
    (a.coef = b.coef ∧ a.factor = b.factor ∧ a.cursor = b.cursor ∧ a.delay.map Sample.re = b.delay.map Sample.re ∧
        [(⟨1#64, 2#64⟩ : Sample)].map Sample.re = [(⟨1#64, 3#64⟩ : Sample)].map Sample.re) ∧
      (a.delay.map Sample.im = c.delay.map Sample.im ∧
        [(⟨1#64, 2#64⟩ : Sample)].map Sample.im = [(⟨7#64, 2#64⟩ : Sample)].map Sample.im) ∧
      a.delay.map Sample.re = d.delay.map Sample.im ∧
        [(⟨1#64, 2#64⟩ : Sample)].map Sample.re = [(⟨7#64, 1#64⟩ : Sample)].map Sample.im := by decide

/-- A NaN in each lane, as the new input and at the oldest place of the line. -/
theorem test_witness_NanSpreadsWhileItStays :
    let z : Sample := ⟨0x7FC00000#64, 0x7F800001#64⟩
    (stage5 line5 0).delay.length = 5 ∧ (stage5 line5 0).cursor < 5 ∧ (stage5 line5 0).coef.length = 5 ∧ 0 < 5 ∧ 4 < 5 ∧
      (z :: history 5 (stage5 line5 0))[0]? = some z ∧
      (Sample.zero :: history 5 (stage5 (line5.set 1 z) 0))[4]? = some z ∧
      unpack .binary32 z.re = .nan ∧ unpack .binary32 z.im = .nan := by decide +kernel

theorem test_witness_StreamContinuity :
    (∀ st ∈ [stage5 line5 0, stage5 line5 3], 0 < st.factor) ∧
      ([stage5 line5 0, stage5 line5 3].map Stage.factor).prod ∣ (line5.take 4).length ∧
      ∀ f ∈ ([stage5 line5 0, stage5 line5 3].map Stage.factor).head?, ceilDiv ((line5.take 4).length + line5.length) f ≤ 5 := by
  decide

/-- The third clause's states: right after a CREATE, and the same configuration with a history. -/
theorem test_witness_ClearZeroesHistory :
    (idle oneTap cascade1).cas.cfg = true ∧ (idle oneTap Cascade.unconfigured).cas.cfg = false ∧
      (let s := running oneTap Cascade.unconfigured 1#64 two one 16#64 0#64
       let u := idle oneTap cascade1
       after (exec .create s) (fun t => (t.err, decide (u.params = t.params), decide (fixedPart u.cas = fixedPart t.cas))) =
         some (false, true, true) ∧
       after (exec .clear u) State.done = some true) := by decide +kernel

/-- A CREATE and a PROCESS that end with an error. -/
theorem test_witness_ErrorEffects :
    (let s := running oneTap cascade1 1#64 0#64 0#64 0#64 0#64
     s.unraced ∧ after (engineStep s) State.err = some true ∧ decode s.lcmd = .ok .create) ∧
      (let s := running oneTap cascade1 2#64 0x10002#64 1#64 0#64 0#64
       s.unraced ∧ after (engineStep s) State.err = some true ∧ decode s.lcmd = .ok .process) := by decide +kernel

/-- An engine step for each command and for a word that is none. -/
theorem test_witness_EngineStepFrame :
    (∀ w ∈ [0, 1, 2, 3, 4],
      after (engineStep (running oneTap cascade1 (BitVec.ofNat 64 w) 0#64 0#64 0#64 0#64)) State.done = some true) ∧
      decode 3#64 ≠ .ok .process ∧ decode 3#64 ≠ .ok .factorize ∧ decode 3#64 ≠ .ok .create ∧ decode 4#64 ≠ .ok .clear ∧
      decode 4#64 ≠ .ok .create ∧ decode 4#64 ≠ .ok .process := by decide +kernel

theorem test_witness_CommandWriteStartsOrOverruns :
    { running oneTap cascade1 2#64 0#64 0#64 0#64 0#64 with ovr := true }.ovr = true ∧
      (let s := running oneTap cascade1 2#64 0#64 0#64 0#64 0#64
       s.ovr = false ∧ s.busy = true) ∧
      (let s := idle oneTap cascade1
       s.ovr = false ∧ s.busy = false) := by decide

/-- ID, a result register, a reserved offset, one that is no multiple of 8 and one above the register space. -/
theorem test_witness_ReadOnlyWritesIgnored :
    ∀ off ∈ [0x000, 0x040, 0x060, 0x088, 0x2F8, 0x300, 0x004, 0x1000],
      off ∉ [0x008, 0x010, 0x018, 0x020, 0x028, 0x030, 0x038, 0x070] := by decide

theorem test_witness_RegisterReadsHaveNoSideEffect :
    (idle oneTap cascade1).busy = false ∧ isResultReg .status = false ∧ { idle oneTap cascade1 with done := true }.done = true ∧
      ¬ (Reg.fz 0 = .status ∧ (idle oneTap cascade1).done = true) ∧
      (running oneTap cascade1 2#64 0#64 0#64 0#64 0#64).busy = true ∧ isResultReg (.fz 31) = true := by decide

theorem test_witness_ConfigurationRegisters :
    (idle oneTap Cascade.unconfigured).cas.cfg = false ∧ (idle oneTap cascade1).cas.cfg = true ∧
      cascadeOk (idle oneTap cascade1).params (idle oneTap cascade1).cas := by decide +kernel

/-- The last coefficient of a set, and the first places outside it. -/
theorem test_witness_CoefficientReadIsExact :
    (let s := { idle fiveTaps (cascade5 line5 0) with coefTap := 4#16 }
     s.cas.cfg = true ∧ s.cas.stages[s.coefStage.toNat]? = some (stage5 line5 0) ∧ s.coefTap.toNat < taps s.params ∧
       (stage5 line5 0).coef[s.coefTap.toNat]? = some 0#64 ∧ s.params.sampleFmt = .binary32 ∧
       unpack .binary32 0#64 = .fin false 0) ∧
      (let s := { idle { fiveTaps with sampleFmt := .binary64 } (cascade5 line5 0) with coefTap := 2#16 }
       s.cas.stages[s.coefStage.toNat]? = some (stage5 line5 0) ∧ s.coefTap.toNat < taps s.params ∧
         (stage5 line5 0).coef[s.coefTap.toNat]? = some 0x3F16B54E#64 ∧ s.params.sampleFmt = .binary64) ∧
      (idle fiveTaps Cascade.unconfigured).cas.cfg = false ∧ taps fiveTaps ≤ (5#16).toNat ∧
      (cascade5 line5 0).stages.length ≤ (1#5).toNat := by decide +kernel

/-- The edges of the register space. -/
theorem test_witness_UnsupportedAccessRefused :
    let outside := fun a : BusAccess => a.width ≠ 8 ∨ a.addr < oneTap.regBase ∨ (a.addr - oneTap.regBase) % 8 ≠ 0 ∨
      oneTap.regBase + 4096 ≤ a.addr
    outside ⟨0x40000000, 4⟩ ∧ outside ⟨0x3FFFFFF8, 8⟩ ∧ outside ⟨0x40000004, 8⟩ ∧ outside ⟨0x40001000, 8⟩ ∧
      ¬ outside ⟨0x40000000, 8⟩ ∧ ¬ outside ⟨0x40000FF8, 8⟩ ∧
      { State.resetOf oneTap with host := [.regRead ⟨0x40000000, 8⟩] }.host = .regRead ⟨0x40000000, 8⟩ :: [] ∧
      { State.resetOf oneTap with host := [.regWrite ⟨0x40000000, 8⟩ 1#64] }.host = .regWrite ⟨0x40000000, 8⟩ 1#64 :: [] := by
  decide

theorem test_witness_InterruptFollowsCompletion :
    (∃ t, engineStep (running oneTap cascade1 3#64 0#64 0#64 0#64 0#64) = .next t) ∧
      ((idle oneTap cascade1).ovr = false ∧ (idle oneTap cascade1).busy = false) ∧
      (let s := running oneTap cascade1 2#64 0#64 0#64 0#64 0#64
       s.busy = true ∧ s.done = false) :=
  ⟨⟨_, rfl⟩, ⟨rfl, rfl⟩, rfl, rfl⟩

/-- A PROCESS in flight whose output is the last sample of the mapped region. -/
theorem test_witness_OverrunFreesState :
    let s := running oneTap cascade1 2#64 0x10000#64 2#64 0x2FFF8#64 1#64
    s.mem.wf = true ∧ s.busy = true ∧ s.ovr = false ∧ inFlightRange s = some ⟨0x2FFF8, 8⟩ := by decide +kernel

theorem test_witness_OverrunStuckUntilReset :
    let s := { running oneTap cascade1 2#64 0x10000#64 2#64 0x20000#64 1#64 with
      ovr := true, host := [.wait, .regWrite ⟨0x40000008, 8⟩ 3#64] }
    s.ovr = true ∧ s.busy = true ∧ s.done = false ∧ HostOp.reset ∉ s.host ∧ ∃ t, Sys2Proof.core.run 2 s = .next t :=
  ⟨rfl, rfl, rfl, by decide, ⟨_, rfl⟩⟩

/-- A write into the last byte of a window; a PROCESS that runs after it and passes, and one that fails at the top of the address
space; and a finished PROCESS whose window is still open. -/
theorem test_witness_RaceFreesOutputs :
    let w : Window :=
      { input := ⟨0x10000, 16⟩, output := ⟨0x20000, 8⟩, exposed := none, ran := false, raced := true, missed := false }
    let s := { running oneTap cascade1 2#64 0x10000#64 2#64 0x20000#64 1#64 with windows := [w] }
    let f := { running oneTap cascade1 2#64 0x10000#64 4#64 0xFFFFFFFFFFFFFFF8#64 4#64 with windows := [w] }
    let done : Window := { w with ran := true, exposed := some ⟨0x20000, 8⟩ }
    (w ∈ [w] ∧ w.meets 0x20007 [(0xFF#8 : Byte)].length = true) ∧
      (s.mem.wf = true ∧ s.windows = w :: [] ∧ w.ran = false ∧ w.raced = true ∧
        processCheck s.params s.cas (processOperands s.larg) = none) ∧
      (f.mem.wf = true ∧ f.windows = w :: [] ∧
        processCheck f.params f.cas (processOperands f.larg) = some .memoryFault ∧ racedRange f = ⟨0xFFFFFFFFFFFFFFF8, 8⟩) ∧
      done.ran = true ∧ done.meets 0x10000 [(0xFF#8 : Byte)].length = true ∧ (⟨0x20000, 8⟩ : Range) ∈ done.exposed ∧
      Range.inSpace ⟨0x20000, 8⟩ := by decide +kernel

/-- The late write's premise: a state that meets the invariant with such a window. -/
theorem test_witness_RaceFreesOutputs_late :
    State.Inv { idle oneTap cascade1 with windows :=
      [{ input := ⟨0x10000, 16⟩, output := ⟨0x20000, 8⟩, exposed := some ⟨0x20000, 8⟩, ran := true, raced := false,
         missed := false }] } where
  mem := rfl
  status := by simp [idle, State.resetOf, statusOk]
  cascade _ := by
    show cascadeOk oneTap cascade1
    decide +kernel
  factors _ := by
    show factorsOk []
    decide
  lost := fun _ h => by cases h
  windows := fun w h r hr => by
    simp only [List.mem_singleton] at h
    subst h
    cases hr
    decide

/-- A byte inside a window and one just after it. -/
theorem test_witness_HostReadsOfSampleMemory :
    let w : Window := { input := ⟨0x10000, 16⟩, output := ⟨0x20000, 8⟩, exposed := none, ran := false, raced := false, missed := false }
    let s := { running oneTap cascade1 2#64 0x10000#64 2#64 0x20000#64 1#64 with windows := [w] }
    isHandedOver s (0x2000F - 8) = true ∧ isHandedOver s 0x20008 = false := by decide

/-- The last byte of the mapped region, inside no window, and the byte after it. -/
theorem test_witness_HostWritesStoreBytes :
    let w : Window := { input := ⟨0x10000, 16⟩, output := ⟨0x2FFF0, 8⟩, exposed := none, ran := false, raced := false, missed := false }
    let s := { idle oneTap cascade1 with windows := [w], host := [.memWrite 0x2FFFF#64 [1#8]] }
    s.host = .memWrite 0x2FFFF#64 [1#8] :: [] ∧ s.mem.wf = true ∧ hostReaches s.params 0x2FFFF 1 = true ∧
      (∀ x ∈ s.windows, x.meets 0x2FFFF 1 = false) ∧ hostReaches s.params 0x30000 1 = false ∧
      { s with host := [.memRead 0x2FFFF#64 1] }.host = .memRead 0x2FFFF#64 1 :: [] := by decide +kernel

theorem test_witness_ResetLeaves :
    let s := { idle oneTap cascade1 with host := [.reset] }
    s.host = .reset :: [] ∧ s.busy = false := by decide

/-- A running PROCESS, and one that an overrun stopped. -/
theorem test_witness_ResetAbandonsProcess :
    let s := running oneTap cascade1 2#64 0x10000#64 2#64 0x20000#64 1#64
    let u := { s with ovr := true, lost := some ⟨0x20000, 8⟩ }
    (s.Inv ∧ s.busy = true ∧ s.ovr = false ∧ inFlightRange s = some ⟨0x20000, 8⟩) ∧ (u.Inv ∧ u.ovr = true) := by
  refine ⟨⟨configured_inv _ _ _ _ _, rfl, rfl, by decide +kernel⟩, ⟨rfl, ?_, fun h => ?_, fun h => ?_, ?_, fun _ h => by cases h⟩, rfl⟩
  · simp [running, State.resetOf, statusOk]
  · cases h
  · cases h
  · intro r hr
    cases hr
    decide

theorem test_witness_StepKeepsInvariant :
    let s := running oneTap cascade1 3#64 0#64 0#64 0#64 0#64
    s.Inv ∧ ∃ t, step s = .next t :=
  ⟨configured_inv _ _ _ _ _, _, rfl⟩

/-- Steps that change the configuration, and steps that do not. -/
theorem test_witness_ConfigurationChangesOnlyBy :
    let changes := fun s => after (step s) fun t => decide (fixedPart t.cas ≠ fixedPart s.cas)
    changes (running oneTap Cascade.unconfigured 1#64 two one 16#64 0#64) = some true ∧
      changes { idle oneTap cascade1 with host := [.reset] } = some true ∧
      changes (running oneTap cascade1 3#64 0#64 0#64 0#64 0#64) = some false := by decide +kernel

/-- Steps that change sample memory, and one that does not. -/
theorem test_witness_SampleMemoryChangesOnlyBy :
    let changes := fun s => after (step s) fun t => decide (t.mem ≠ s.mem)
    changes { running oneTap cascade0 2#64 0x10000#64 1#64 0x20000#64 1#64 with mem := [(0x10000, 1#8)] } = some true ∧
      changes { idle oneTap cascade1 with host := [.memWrite 0x2FFFF#64 [1#8]] } = some true ∧
      changes (running oneTap cascade1 3#64 0#64 0#64 0#64 0#64) = some false := by decide +kernel

theorem test_witness_StepKeepsParameters : ∃ s t : State, step s = .next t :=
  ⟨running oneTap cascade1 3#64 0#64 0#64 0#64 0#64, _, rfl⟩

/-- A started command before each kind of host operation. -/
theorem test_witness_StartedCommandCompletes :
    let s := { running oneTap cascade1 3#64 0#64 0#64 0#64 0#64 with
      host := [.regRead ⟨0x40000000, 8⟩, .wait, .engine, .regWrite ⟨0x40000FF8, 8⟩ 1#64, .memRead 0x2FFFF#64 1,
        .memWrite 0x10000#64 [1#8]] }
    s.busy = true ∧ s.ovr = false ∧
      (.regRead ⟨0x40000000, 8⟩ ∈ s.host ∧ BusAccess.wf s.params.regBase ⟨0x40000000, 8⟩ = true) ∧ .wait ∈ s.host ∧
      .engine ∈ s.host ∧ (.regWrite ⟨0x40000FF8, 8⟩ 1#64 ∈ s.host ∧ BusAccess.wf s.params.regBase ⟨0x40000FF8, 8⟩ = true ∧
        0x40000FF8 ≠ s.params.regBase + 0x008) ∧
      (.memRead 0x2FFFF#64 1 ∈ s.host ∧ hostReaches s.params 0x2FFFF 1 = true) ∧
      (.memWrite 0x10000#64 [1#8] ∈ s.host ∧ hostReaches s.params 0x10000 1 = true) := by decide +kernel

/-- A quotient half way between two magnitudes of three bits, with both of them: 9 between 8 and 10. -/
theorem test_witness_RoundsToNearestEven :
    0 < 3 ∧ 0 < 1 ∧ representable 3 8 ∧ representable 3 10 ∧ 10 ≠ roundMag 3 9 1 ∧
      distanceFrom 9 1 10 = distanceFrom 9 1 (roundMag 3 9 1) :=
  ⟨by decide, by decide, ⟨4, 1, by decide, rfl⟩, ⟨5, 1, by decide, rfl⟩, by decide, by decide⟩

/-- The largest finite pattern, a NaN pattern, and a value of the format. -/
theorem test_witness_PatternsAndValuesInverse :
    ((0x7F7FFFFF#64).toNat < 256 ^ partBytes .binary32 ∧ unpack .binary32 0x7F7FFFFF#64 ≠ .nan) ∧
      ((0xFFFFFFFF#64).toNat < 256 ^ partBytes .binary32 ∧ unpack .binary32 0xFFFFFFFF#64 = .nan) ∧
      (Fp.fin true 1).ofFormat .binary32 :=
  ⟨by decide +kernel, by decide +kernel, by decide +kernel, 1, 0, by decide, rfl⟩

/-- The last bytes of the address space. -/
theorem test_witness_LoadsReadWhatStoresWrote :
    Memory.wf [] = true ∧ 0xFFFFFFFFFFFFFFF8 + 8 ≤ 2 ^ 64 ∧ 0xFFFFFFFFFFFFFFF8 + sampleBytes .binary32 ≤ 2 ^ 64 ∧
      Sample.fits .binary32 ⟨0xFFFFFFFF#64, 0x7FA00001#64⟩ := by decide

end Sys2Proof.Tests
end

section
/-!
PROOFS. The scope of the model (00_scope.md): what no step changes (R7), and the arithmetic and the patterns of both formats (R9).
-/

namespace Sys2Proof.Machine

/-! ### No step changes a parameter (00_scope.md R7) -/

theorem finish_params {p : Params} {failed : State} {body : Except Err State} (hf : failed.params = p)
    (hb : ∀ t, body = .ok t → t.params = p) : (finish failed body).params = p := by
  cases body with
  | error e => exact hf
  | ok t => exact hb t rfl

theorem createBody_params {s t : State} (h : createBody s = .ok t) : t.params = s.params := by
  unfold createBody at h
  split at h
  · cases h
  · cases h; rfl

theorem clearBody_params {s t : State} (h : clearBody s = .ok t) : t.params = s.params := by
  unfold clearBody at h
  split at h
  · cases h
  · cases h; rfl

theorem factorizeBody_params {s t : State} (h : factorizeBody s = .ok t) : t.params = s.params := by
  unfold factorizeBody at h
  dsimp only at h
  split at h
  · cases h
  · split at h
    · cases h
    · cases h; rfl

theorem execProcess_params {s t : State} (h : execProcess s = .next t) : t.params = s.params := by
  obtain ⟨ws, m, sts, d, res, e, he, -⟩ := process_frame s
  rw [he] at h
  cases e <;> cases h <;> rfl

theorem exec_params {i : Instr} {s t : State} (h : exec i s = .next t) : t.params = s.params := by
  cases i with
  | create => cases h; exact finish_params rfl fun _ => createBody_params
  | process => exact execProcess_params h
  | clear => cases h; exact finish_params rfl fun _ => clearBody_params
  | factorize => cases h; exact finish_params rfl fun _ => factorizeBody_params

theorem engineStep_params {s t : State} (h : engineStep s = .next t) : t.params = s.params := by
  unfold engineStep at h
  split at h
  · exact exec_params h
  · cases h; rfl

@[simp] theorem readReg_params (r : Option Reg) (s : State) : (readReg r s).params = s.params := by
  obtain ⟨v, ws, d, e, -⟩ := readReg_frame r s
  rw [e]

@[simp] theorem writeCmd_params (v : Word) (s : State) : (writeCmd v s).params = s.params := by
  unfold writeCmd
  dsimp only
  split
  · rfl
  · split <;> simp

@[simp] theorem writeReg_params (r : Option Reg) (v : Word) (s : State) : (writeReg r v s).params = s.params := by
  by_cases hr : r = some .cmd
  · subst hr; exact writeCmd_params v s
  · obtain ⟨dn, ie, l, tap, stage, e, -⟩ := writeReg_frame hr v s
    rw [e]

@[simp] theorem hostStore_params (a : Nat) (bytes : List Byte) (s : State) : (hostStore a bytes s).params = s.params := by
  obtain ⟨m, sts, d, e, -⟩ := hostStore_frame a bytes s
  rw [e]

@[simp] theorem pollStatus_params (s : State) : (pollStatus s).params = s.params := by
  obtain ⟨v, ws, ops, e, -⟩ := pollStatus_frame s
  rw [e]

theorem hostAct_params {op : HostOp} {s t : State} (h : hostAct op s = .next t) : t.params = s.params := by
  cases op with
  | regRead a =>
    simp only [hostAct] at h
    split at h
    · cases h; exact readReg_params _ s
    · cases h
  | regWrite a v =>
    simp only [hostAct] at h
    split at h
    · cases h; exact writeReg_params _ v s
    · cases h
  | wait => cases h; exact pollStatus_params s
  | memRead a n =>
    simp only [hostAct] at h
    split at h
    · cases h; rfl
    · cases h
  | memWrite a bytes =>
    simp only [hostAct] at h
    split at h
    · cases h; exact hostStore_params _ bytes s
    · cases h
  | engine => cases h; rfl
  | reset => cases h; exact resetEvent_params s

/-- Whoever takes the turn, the parameters of the instance stay (00_scope.md R7). -/
theorem step_params {s t : State} (h : step s = .next t) : t.params = s.params := by
  rcases step_cases h with ⟨-, -, ⟨-, he⟩ | ⟨rest, -, he⟩⟩ | ⟨op, rest, -, ha, -⟩ | ⟨-, -, rfl⟩
  · exact engineStep_params he
  · exact engineStep_params (s := { s with host := rest }) he
  · exact hostAct_params (s := { s with host := rest }) ha
  · rfl

/-- Settles O56: TAPS is made of the parameters alone, which every kind of step keeps. -/
theorem stepKeepsParameters : Obligations.StepKeepsParameters := by
  intro s t h
  have hp := step_params h
  exact ⟨hp, by rw [regValue, regValue, hp]⟩

/-! ### Rounding is to the nearest, ties to even (00_scope.md R9) -/

/-- The integer that `roundMag` scales: `num / d` rounded to the nearest integer, ties to even. -/
def roundQuotient (num d : Nat) : Nat :=
  if 2 * (num % d) < d then num / d else if d < 2 * (num % d) then num / d + 1 else num / d + num / d % 2

/-- The exponent of the unit in the last place that `roundMag` rounds to. -/
def roundExponent (p num den : Nat) : Nat := Nat.log2 (num / den) + 1 - p

theorem roundMag_eq (p num den : Nat) :
    roundMag p num den = roundQuotient num (den * 2 ^ roundExponent p num den) * 2 ^ roundExponent p num den := rfl

/-- Rounding a quotient takes the nearer neighbour, and of two equally near ones the even one. -/
theorem roundQuotient_cases (num d : Nat) :
    (roundQuotient num d = num / d ∧ (2 * (num % d) < d ∨ 2 * (num % d) = d ∧ num / d % 2 = 0)) ∨
    (roundQuotient num d = num / d + 1 ∧ (d < 2 * (num % d) ∨ 2 * (num % d) = d ∧ num / d % 2 = 1)) := by
  unfold roundQuotient
  split_ifs <;> omega

/-- Distances from a multiple of a unit are distances of the multiplier, the unit moved into the denominator. -/
theorem distanceFrom_mul (num den c u : Nat) : distanceFrom num den (c * u) = distanceFrom num (den * u) c := by
  rw [distanceFrom, distanceFrom, Nat.mul_assoc, Nat.mul_comm u den]

/-- The two neighbours of a quotient are at its remainder and at what the remainder lacks. -/
theorem distanceFrom_floor (num d : Nat) : distanceFrom num d (num / d) = num % d := by
  have := Nat.div_add_mod' num d
  unfold distanceFrom
  omega

theorem distanceFrom_ceil {d : Nat} (num : Nat) (hd : 0 < d) : distanceFrom num d (num / d + 1) = d - num % d := by
  have := Nat.div_add_mod' num d
  have := Nat.mod_lt num hd
  unfold distanceFrom
  rw [Nat.add_mul, Nat.one_mul]
  omega

/-- Below the floor of a quotient every magnitude is farther than the floor. -/
theorem distanceFrom_lt_of_lt {num d c m : Nat} (hd : 0 < d) (hm : m < c) (hc : c * d ≤ num) :
    distanceFrom num d c < distanceFrom num d m := by
  have := (Nat.mul_lt_mul_right hd).2 hm
  unfold distanceFrom
  omega

/-- Above the ceiling of a quotient every magnitude is farther than the ceiling. -/
theorem distanceFrom_lt_of_gt {num d c m : Nat} (hd : 0 < d) (hm : c < m) (hc : num ≤ c * d) :
    distanceFrom num d c < distanceFrom num d m := by
  have := (Nat.mul_lt_mul_right hd).2 hm
  unfold distanceFrom
  omega

theorem distanceFrom_roundQuotient {d : Nat} (num : Nat) (hd : 0 < d) :
    distanceFrom num d (roundQuotient num d) = min (num % d) (d - num % d) := by
  rcases roundQuotient_cases num d with ⟨e, h⟩ | ⟨e, h⟩
  · rw [e, distanceFrom_floor]; omega
  · rw [e, distanceFrom_ceil num hd]; omega

/-- An integer is no nearer to a quotient than the rounded one; if as near, it is the other neighbour and the rounded one is
even. -/
theorem roundQuotient_nearest {d : Nat} (num : Nat) (hd : 0 < d) (c : Nat) :
    distanceFrom num d (roundQuotient num d) ≤ distanceFrom num d c ∧
    (c ≠ roundQuotient num d → distanceFrom num d c = distanceFrom num d (roundQuotient num d) →
      2 ∣ roundQuotient num d ∧ (c + 1 = roundQuotient num d ∨ c = roundQuotient num d + 1)) := by
  have hdist := distanceFrom_roundQuotient num hd
  have hfloor := distanceFrom_floor num d
  have hceil := distanceFrom_ceil num hd
  rcases Nat.lt_trichotomy c (num / d) with hc | rfl | hc
  · have := distanceFrom_lt_of_lt hd hc (Nat.div_mul_le_self num d)
    omega
  · have := roundQuotient_cases num d
    omega
  · rcases (show num / d + 1 ≤ c from hc).eq_or_lt with rfl | hc
    · have := roundQuotient_cases num d
      have := Nat.mod_lt num hd
      omega
    · have hnum : num ≤ (num / d + 1) * d := Nat.mul_comm d _ ▸ (Nat.lt_mul_div_succ num hd).le
      have := distanceFrom_lt_of_gt hd hc hnum
      omega

/-- A representable magnitude is a multiple of the unit that a quotient is rounded to, or lies below the
quotient rounded down. -/
theorem representable_dvd_or_lt {p num den m : Nat} (hp : 0 < p) (hm : representable p m) :
    2 ^ roundExponent p num den ∣ m ∨
      m < num / (den * 2 ^ roundExponent p num den) * 2 ^ roundExponent p num den := by
  unfold roundExponent
  generalize hk : Nat.log2 (num / den) = k
  rcases Nat.eq_zero_or_pos (k + 1 - p) with hs | hs
  · simp [hs]
  · by_cases hmk : 2 ^ k ≤ m
    · exact Or.inl (representable_dvd hm hmk)
    · right
      have hv : num / den ≠ 0 := by
        intro h0
        rw [h0, Nat.log2_zero] at hk
        omega
      have hsplit : 2 ^ k = 2 ^ (p - 1) * 2 ^ (k + 1 - p) := by
        rw [← pow_add]
        congr 1
        omega
      have hquot : 2 ^ (p - 1) ≤ num / (den * 2 ^ (k + 1 - p)) := by
        rw [← Nat.div_div_eq_div_mul, Nat.le_div_iff_mul_le (by positivity), ← hsplit, ← hk]
        exact Nat.log2_self_le hv
      calc m < 2 ^ k := by omega
        _ = 2 ^ (p - 1) * 2 ^ (k + 1 - p) := hsplit
        _ ≤ _ := Nat.mul_le_mul_right _ hquot

/-- No multiple of the unit is nearer than the rounded magnitude, and at a tie that one is the even multiple. -/
theorem roundQuotient_mul_nearest {num den u q : Nat} (hd : 0 < den) (hu : 0 < u) (hq : roundQuotient num (den * u) = q)
    (c : Nat) :
    distanceFrom num den (q * u) ≤ distanceFrom num den (c * u) ∧
    (c * u ≠ q * u → distanceFrom num den (c * u) = distanceFrom num den (q * u) →
      2 * (c * u - q * u + (q * u - c * u)) ∣ q * u) := by
  rw [distanceFrom_mul, distanceFrom_mul]
  obtain ⟨hle, htie⟩ := roundQuotient_nearest num (Nat.mul_pos hd hu) c
  rw [hq] at hle htie
  refine ⟨hle, fun hne heq => ?_⟩
  obtain ⟨heven, hc⟩ := htie (fun h => hne (by rw [h])) heq
  have hgap : c - q + (q - c) = 1 := by omega
  rw [← Nat.sub_mul, ← Nat.sub_mul, ← Nat.add_mul, hgap, Nat.one_mul]
  exact Nat.mul_dvd_mul_right heven u

/-- A magnitude below the quotient's rounding down to a multiple of the unit is farther than the rounded magnitude. -/
theorem roundQuotient_mul_nearer {num den u m : Nat} (hd : 0 < den) (hu : 0 < u) (hm : m < num / (den * u) * u) :
    distanceFrom num den (roundQuotient num (den * u) * u) < distanceFrom num den m :=
  calc distanceFrom num den (roundQuotient num (den * u) * u)
      ≤ distanceFrom num den (num / (den * u) * u) := (roundQuotient_mul_nearest hd hu rfl _).1
    _ < distanceFrom num den m := distanceFrom_lt_of_lt hd hm (by
        rw [Nat.mul_assoc, Nat.mul_comm u den]
        exact Nat.div_mul_le_self _ _)

/-- Settles O58: a representable magnitude is a multiple of the unit in the last place, and then nearness is that of integers to
a quotient, or it is farther than the quotient rounded down. -/
theorem roundsToNearestEven : Obligations.RoundsToNearestEven := by
  intro p num den hp hd
  refine ⟨roundMag_representable hp, fun m hm => ?_⟩
  have hu : 0 < 2 ^ roundExponent p num den := by positivity
  rw [roundMag_eq]
  rcases representable_dvd_or_lt (num := num) (den := den) hp hm with ⟨c, rfl⟩ | hlt
  · rw [Nat.mul_comm _ c]
    exact roundQuotient_mul_nearest hd hu rfl c
  · have := roundQuotient_mul_nearer hd hu hlt
    exact ⟨this.le, fun _ heq => absurd heq this.ne'⟩

/-! ### Patterns and values (00_scope.md R9) -/

theorem unpack_eq_nan {F : Fmt} {w : Word} (h : unpack F w = .nan) :
    w.toNat / 2 ^ fracBits F % 2 ^ expBits F = expOnes F ∧ w.toNat % 2 ^ fracBits F ≠ 0 := by
  simp only [unpack] at h
  split at h
  · rename_i he
    split at h
    · cases h
    · rename_i hf
      exact ⟨he, hf⟩
  · split at h <;> cases h

/-- A NaN pattern of the format's width is the NaN that it chooses itself (42_fir.md R145 (c)). -/
theorem nanPattern_self {F : Fmt} {w : Word} (hw : w.toNat < 256 ^ partBytes F) (h : unpack F w = .nan) :
    nanPattern F w = w := by
  obtain ⟨he, hf⟩ := unpack_eq_nan h
  have hfields := fieldsWord_of_toNat F hw
  rw [he] at hfields
  rw [nanPattern, if_neg hf]
  exact hfields

/-- Settles O59: the model's laws of patterns both ways, and the NaN patterns by their fields. -/
theorem patternsAndValuesInverse : Obligations.PatternsAndValuesInverse :=
  ⟨fun _ _ free hw hn => pack_unpack hw hn free,
    fun _ _ free hv => unpack_pack hv free,
    fun _ _ hw hn => nanPattern_self hw hn⟩

end Sys2Proof.Machine
end

section
/-!
PROOFS. The state of the block (10_state.md): what the engine's step leaves unchanged, the invariant and the configuration over
every step, and what the registers and the cursor show of the state.
-/

namespace Sys2Proof.Machine

/-! ### What an engine step changes (10_state.md R41, R42, R44; 60_exceptions.md R223) -/

/-- The command in flight has ended with these result bits: BUSY is clear and DONE is set (44_host_bus.md R210). -/
def endCommand (err : Bool) (code : BitVec 8) (result : Word) (s : State) : State :=
  { s with err := err, errCode := code, result := result, busy := false, done := true }

theorem completeOk_eq_endCommand (s : State) : completeOk s = endCommand false 0#8 s.result s := rfl

theorem raiseError_eq_endCommand (e : Err) (s : State) : raiseError e s = endCommand true (errCodeOf e) 0#64 s := rfl

/-- CREATE touches the configuration alone, however it ends (43_cascade.md R161, R165). -/
theorem create_frame (s : State) :
    ∃ err code res c, execCreate s = .next (endCommand err code res { s with cas := c }) := by
  unfold execCreate
  cases hc : createCascade s.params (createOperands s.larg) with
  | error e => rw [createBody_error hc]; exact ⟨_, _, _, _, rfl⟩
  | ok c => rw [createBody_ok hc]; exact ⟨_, _, _, c, rfl⟩

/-- CLEAR touches filter state alone, however it ends (43_cascade.md R178). -/
theorem clear_frame (s : State) :
    ∃ err code res sts, execClear s = .next (endCommand err code res { s with cas := { s.cas with stages := sts } }) ∧
      fixedPart { s.cas with stages := sts } = fixedPart s.cas := by
  unfold execClear
  cases hc : s.cas.cfg with
  | false => rw [clearBody_unconfigured hc]; exact ⟨_, _, _, s.cas.stages, rfl, rfl⟩
  | true =>
    rw [clearBody_ok hc]
    exact ⟨_, _, _, _, rfl, by simp [fixedPart, clearStage]⟩

/-- FACTORIZE touches the factor list alone, however it ends (40_factorizer.md R102). -/
theorem factorize_frame (s : State) :
    ∃ err code res fz, execFactorize s = .next (endCommand err code res { s with fz := fz }) := by
  unfold execFactorize
  rcases Nat.eq_zero_or_pos (factorizeOperand s.larg) with h0 | h1
  · rw [factorizeBody_zero h0]; exact ⟨_, _, _, s.fz, rfl⟩
  · rcases Nat.lt_or_ge ratioMax (factorizeOperand s.larg) with habove | hmax
    · rw [factorizeBody_above habove]; exact ⟨_, _, _, s.fz, rfl⟩
    · rw [factorizeBody_ok h1 hmax]; exact ⟨_, _, _, _, rfl⟩

/-- What the engine's step makes of the state, command by command (44_host_bus.md R209, R210). -/
theorem engineStep_cases {s t : State} (h : engineStep s = .next t) : ∃ err code res,
    (decode s.lcmd = .ok .create ∧ ∃ c, t = endCommand err code res { s with cas := c }) ∨
    (decode s.lcmd = .ok .process ∧ ∃ ws m sts d,
      t = endCommand err code res { s with windows := ws, mem := m, cas := { s.cas with stages := sts }, draws := d } ∧
      fixedPart { s.cas with stages := sts } = fixedPart s.cas) ∨
    (decode s.lcmd = .ok .clear ∧ ∃ sts, t = endCommand err code res { s with cas := { s.cas with stages := sts } } ∧
      fixedPart { s.cas with stages := sts } = fixedPart s.cas) ∨
    (decode s.lcmd = .ok .factorize ∧ ∃ fz, t = endCommand err code res { s with fz := fz }) ∨
    ((∀ i, decode s.lcmd ≠ .ok i) ∧ t = endCommand err code res s) := by
  unfold engineStep at h
  cases hd : decode s.lcmd with
  | error _ =>
    rw [hd] at h
    cases h
    exact ⟨_, _, _, .inr (.inr (.inr (.inr ⟨by simp, rfl⟩)))⟩
  | ok i =>
    rw [hd] at h
    cases i with
    | create =>
      obtain ⟨err, code, res, c, e⟩ := create_frame s
      cases e.symm.trans h
      exact ⟨err, code, res, .inl ⟨rfl, c, rfl⟩⟩
    | process =>
      obtain ⟨ws, m, sts, d, res, o, e, hf⟩ := process_frame s
      cases e.symm.trans h
      cases o with
      | none => exact ⟨false, 0#8, res, .inr (.inl ⟨rfl, ws, m, sts, d, rfl, hf⟩)⟩
      | some o => exact ⟨true, errCodeOf o, 0#64, .inr (.inl ⟨rfl, ws, m, sts, d, rfl, hf⟩)⟩
    | clear =>
      obtain ⟨err, code, res, sts, e, hf⟩ := clear_frame s
      cases e.symm.trans h
      exact ⟨err, code, res, .inr (.inr (.inl ⟨rfl, sts, rfl, hf⟩))⟩
    | factorize =>
      obtain ⟨err, code, res, fz, e⟩ := factorize_frame s
      cases e.symm.trans h
      exact ⟨err, code, res, .inr (.inr (.inr (.inl ⟨rfl, fz, rfl⟩)))⟩

/-- Settles O33: each command's own frame, from the one inversion of the engine's step. -/
theorem engineStepFrame : Obligations.EngineStepFrame := by
  intro s t h
  obtain ⟨err, code, res, hc⟩ := engineStep_cases h
  rcases hc with ⟨hd, c, rfl⟩ | ⟨hd, ws, m, sts, d, rfl, hf⟩ | ⟨hd, sts, rfl, hf⟩ | ⟨hd, fz, rfl⟩ | ⟨hd, rfl⟩
  · simp [endCommand, hd]
  · simp [endCommand, hd, hf]
  · simp [endCommand, hd, hf]
  · simp [endCommand, hd]
  · simp [endCommand]

/-! ### The invariant over every step (10_state.md R26, R41, R42, R44) -/

/-- The invariant says nothing of what the host will still do. -/
theorem Inv_withHost {s : State} (h : s.Inv) (ops : List HostOp) : ({ s with host := ops } : State).Inv :=
  ⟨h.mem, h.status, h.cascade, h.factors, h.lost, h.windows⟩

/-- Settles O53: the engine's step, each operation of the host, and rest keep the invariant. -/
theorem stepKeepsInvariant : Obligations.StepKeepsInvariant := by
  intro s t hs h
  rcases step_cases h with ⟨-, ho, ⟨-, he⟩ | ⟨rest, -, he⟩⟩ | ⟨op, rest, -, ha, -⟩ | ⟨-, -, rfl⟩
  · exact Inv_engineStep hs ho he
  · exact Inv_engineStep (Inv_withHost hs rest) ho he
  · exact Inv_hostAct (Inv_withHost hs rest) ha
  · exact hs

/-! ### What changes the configuration (10_state.md R41, 20_memory.md R75) -/

/-- Only CREATE among the engine's commands changes the configuration. -/
theorem engineStep_fixedPart {s t : State} (h : engineStep s = .next t) (hd : decode s.lcmd ≠ .ok .create) :
    fixedPart t.cas = fixedPart s.cas := by
  obtain ⟨err, code, res, hc⟩ := engineStep_cases h
  rcases hc with ⟨hcreate, -⟩ | ⟨-, ws, m, sts, d, rfl, hf⟩ | ⟨-, sts, rfl, hf⟩ | ⟨-, fz, rfl⟩ | ⟨-, rfl⟩
  · exact absurd hcreate hd
  · exact hf
  · exact hf
  · rfl
  · rfl

/-- A register write changes the configuration only as the CMD write of an overrun (60_exceptions.md R225). -/
theorem writeReg_cas (r : Option Reg) (v : Word) (s : State) :
    (writeReg r v s).cas = s.cas ∨ (s.busy = true ∧ s.ovr = false ∧ (writeReg r v s).ovr = true) := by
  by_cases hr : r = some .cmd
  · subst hr
    change (writeCmd v s).cas = s.cas ∨ (s.busy = true ∧ s.ovr = false ∧ (writeCmd v s).ovr = true)
    cases ho : s.ovr with
    | true => rw [writeCmd_stuck ho]; exact .inl rfl
    | false =>
      cases hb : s.busy with
      | true => rw [writeCmd_busy ho hb]; exact .inr ⟨rfl, rfl, overrun_ovr _⟩
      | false => rw [writeCmd_idle ho hb]; exact .inl rfl
  · obtain ⟨dn, ie, l, tap, stage, e, -⟩ := writeReg_frame hr v s
    rw [e]; exact .inl rfl

/-- Of the host's operations a reset and the CMD write of an overrun alone change the configuration. -/
theorem hostAct_fixedPart {op : HostOp} {s t : State} (h : hostAct op s = .next t) :
    fixedPart t.cas = fixedPart s.cas ∨ op = .reset ∨ (s.busy = true ∧ s.ovr = false ∧ t.ovr = true) := by
  cases op with
  | regRead a =>
    simp only [hostAct] at h
    split at h
    · cases h
      obtain ⟨v, ws, d, e, -⟩ := readReg_frame (regAt _) s
      rw [e]; exact .inl rfl
    · cases h
  | regWrite a v =>
    simp only [hostAct] at h
    split at h
    · cases h
      exact (writeReg_cas _ v s).imp (congrArg fixedPart) .inr
    · cases h
  | wait =>
    cases h
    obtain ⟨v, ws, ops, e, -⟩ := pollStatus_frame s
    rw [e]; exact .inl rfl
  | memRead a n =>
    simp only [hostAct] at h
    split at h
    · cases h; exact .inl rfl
    · cases h
  | memWrite a bytes =>
    simp only [hostAct] at h
    split at h
    · cases h
      obtain ⟨m, sts, d, e, hf⟩ := hostStore_frame a.toNat bytes s
      rw [e]; exact .inl hf
    · cases h
  | engine => cases h; exact .inl rfl
  | reset => exact .inr (.inl rfl)

/-- Settles O54: the engine's commands but CREATE, and the host's operations but a reset and an overrun, keep the fixed part. -/
theorem configurationChangesOnlyBy : Obligations.ConfigurationChangesOnlyBy := by
  intro s t h
  rcases step_cases h with ⟨hb, ho, he⟩ | ⟨op, rest, hh, ha, -⟩ | ⟨-, -, rfl⟩
  · by_cases hd : decode s.lcmd = .ok .create
    · refine .inr (.inl ⟨hb, ho, hd, ?_⟩)
      rcases he with ⟨hh, -⟩ | ⟨rest, hh, -⟩
      · exact .inl hh
      · exact .inr (by rw [hh]; rfl)
    · rcases he with ⟨-, he⟩ | ⟨rest, -, he⟩
      · exact .inl (engineStep_fixedPart he hd)
      · exact .inl (engineStep_fixedPart (s := { s with host := rest }) he hd)
  · rcases hostAct_fixedPart ha with hf | rfl | hov
    · exact .inl hf
    · exact .inr (.inr (.inl (by rw [hh]; rfl)))
    · exact .inr (.inr (.inr hov))
  · exact .inl rfl

/-! ### The register map (10_state.md R23, R40) -/

/-- Where the named registers lie: below the reserved range 0x088 to 0x0FF, or above it and below 0x300. -/
theorem offset_bounds (r : Reg) : r.offset < 0x088 ∨ (0x100 ≤ r.offset ∧ r.offset < 0x300) := by
  cases r <;> simp only [Reg.offset] <;> omega

/-- Settles O3: the two directions of the map, and no register has an offset of the reserved ranges. -/
theorem registerMapRoundTrip : Obligations.RegisterMapRoundTrip := by
  refine ⟨regAt_offset, fun _ _ => offset_of_regAt, fun off hoff => ?_⟩
  cases hr : regAt off with
  | none => rfl
  | some r =>
    have hbounds := offset_bounds r
    rw [offset_of_regAt hr] at hbounds
    omega

/-! ### The cursor is not observable (10_state.md R48) -/

/-- A step's output is a function of the coefficients, the history and the input (42_fir.md R141, R143). -/
theorem firOutput_of_history (F : Fmt) {T : Nat} (dr : Nat) {st : Stage} (hd : st.delay.length = T) (hc : st.cursor < T)
    (hk : st.coef.length = T) (x : Sample) :
    firOutput F T dr st x =
      { re := pack F (Config.freeWord dr) (convolve F st.coef ((x :: (history T st).take (T - 1)).map Sample.re))
        im := pack F (Config.freeWord (dr + 1)) (convolve F st.coef ((x :: (history T st).take (T - 1)).map Sample.im)) } := by
  rw [firOutput, laneSum_history F hd hc hk x Sample.re, laneSum_history F hd hc hk x Sample.im]

/-- Settles O25, by induction on the inputs: each step gives the same output and pushes the same sample into both histories. -/
theorem cursorUnobservable : Obligations.CursorUnobservable := by
  intro F T dr i a b xs
  induction xs generalizing dr i a b with
  | nil => exact fun _ _ _ _ _ _ _ hh => ⟨rfl, hh⟩
  | cons x xs ih =>
    intro had hbd hac hbc hak hk hf hh
    have hpos : 0 < T := by omega
    have hout : firOutput F T dr a x = firOutput F T dr b x := by
      rw [firOutput_of_history F dr had hac hak, firOutput_of_history F dr hbd hbc (hk ▸ hak), hk, hh]
    have hhist : history T (storeSample T a x) = history T (storeSample T b x) := by
      rw [history_storeSample had hac, history_storeSample hbd hbc, hh]
    obtain ⟨hkept, hend⟩ := ih (dr + 2) (i + 1) (storeSample T a x) (storeSample T b x) (by simpa using had)
      (by simpa using hbd) (Nat.mod_lt _ hpos) (Nat.mod_lt _ hpos) hak hk hf hhist
    rw [runStage_cons, runStage_cons]
    exact ⟨by simp only [hf, hout, hkept], hend⟩

/-! ### The fields of the register words (10_state.md R26, R27, R35) -/

theorem getLsbD_eq_of_toNat {w : Nat} {x : BitVec w} {i : Nat} {b : Bool} (h : x.toNat / 2 ^ i % 2 = b.toNat) :
    x.getLsbD i = b := by
  rw [bit_of_toNat, h]
  cases b <;> rfl

theorem extractLsb'_eq_of_toNat {w start len : Nat} {x : BitVec w} {v : BitVec len}
    (h : x.toNat / 2 ^ start % 2 ^ len = v.toNat) : x.extractLsb' start len = v := by
  apply BitVec.eq_of_toNat_eq
  rw [BitVec.extractLsb'_toNat, Nat.shiftRight_eq_div_pow, h]

/-- The fields of STATUS (10_state.md R26). -/
theorem statusWord_fields (s : State) :
    (statusWord s).getLsbD 0 = s.busy ∧ (statusWord s).getLsbD 1 = s.done ∧ (statusWord s).getLsbD 2 = s.err ∧
    (statusWord s).getLsbD 3 = s.cas.cfg ∧ (statusWord s).getLsbD 4 = s.ovr ∧
    (statusWord s).extractLsb' 5 3 = 0#3 ∧ (statusWord s).extractLsb' 8 8 = s.errCode ∧
    (statusWord s).extractLsb' 16 48 = 0#48 := by
  have hword := statusWord_toNat s
  have hcode := s.errCode.isLt
  have hbusy := Bool.toNat_lt s.busy
  have hdone := Bool.toNat_lt s.done
  have herr := Bool.toNat_lt s.err
  have hcfg := Bool.toNat_lt s.cas.cfg
  have hovr := Bool.toNat_lt s.ovr
  refine ⟨getLsbD_eq_of_toNat ?_, getLsbD_eq_of_toNat ?_, getLsbD_eq_of_toNat ?_, getLsbD_eq_of_toNat ?_,
    getLsbD_eq_of_toNat ?_, extractLsb'_eq_of_toNat ?_, extractLsb'_eq_of_toNat ?_, extractLsb'_eq_of_toNat ?_⟩ <;>
    simp only [hword, BitVec.toNat_ofNat] <;> omega

/-- The field of CTRL (10_state.md R27). -/
theorem ctrlWord_fields (s : State) : (ctrlWord s).getLsbD 0 = s.ie ∧ (ctrlWord s).extractLsb' 1 63 = 0#63 := by
  have hword := ctrlWord_toNat s
  have hie := Bool.toNat_lt s.ie
  refine ⟨getLsbD_eq_of_toNat ?_, extractLsb'_eq_of_toNat ?_⟩ <;> simp only [hword, BitVec.toNat_ofNat] <;> omega

/-- The fields of COEF_SEL (10_state.md R35). -/
theorem coefSelWord_fields (s : State) :
    (coefSelWord s).extractLsb' 0 16 = s.coefTap ∧ (coefSelWord s).extractLsb' 16 5 = s.coefStage ∧
    (coefSelWord s).extractLsb' 21 43 = 0#43 := by
  have hword := coefSelWord_toNat s
  have htap := s.coefTap.isLt
  have hstage := s.coefStage.isLt
  refine ⟨extractLsb'_eq_of_toNat ?_, extractLsb'_eq_of_toNat ?_, extractLsb'_eq_of_toNat ?_⟩ <;>
    simp only [hword, BitVec.toNat_ofNat] <;> omega

/-- Settles O40: each field is read off the value of its word. -/
theorem statusWordLayout : Obligations.StatusWordLayout := by
  intro s
  obtain ⟨h0, h1, h2, h3, h4, h5, h8, h16⟩ := statusWord_fields s
  exact ⟨h0, h1, h2, h3, h4, h5, h8, h16, (ctrlWord_fields s).1, (ctrlWord_fields s).2, coefSelWord_fields s⟩

/-! ### COEF_DATA (10_state.md R36) -/

theorem coefDataValue_outside {s : State}
    (h : s.cas.cfg = false ∨ taps s.params ≤ s.coefTap.toNat ∨ s.cas.stages.length ≤ s.coefStage.toNat) :
    coefDataValue s = 0#64 := by
  unfold coefDataValue
  split
  · rename_i hin
    obtain ⟨hcfg, htap⟩ := hin
    have hstage : s.cas.stages.length ≤ s.coefStage.toNat := by
      rcases h with h | h | h
      · rw [hcfg] at h; cases h
      · omega
      · exact h
    rw [List.getElem?_eq_none hstage]
  · rfl

theorem coefDataValue_inside {s : State} {st : Stage} {c : Word} (hcfg : s.cas.cfg = true)
    (hst : s.cas.stages[s.coefStage.toNat]? = some st) (htap : s.coefTap.toNat < taps s.params)
    (hc : st.coef[s.coefTap.toNat]? = some c) :
    coefDataValue s = widenCoef s.params.sampleFmt (Config.freeWord s.draws) c := by
  have hcoef : st.coef.getD s.coefTap.toNat 0#64 = c := by rw [List.getD_eq_getElem?_getD, hc]; rfl
  rw [coefDataValue, if_pos ⟨hcfg, htap⟩, hst, ← hcoef]

/-- The widened coefficient has the value of the binary32 one in binary64, NaN or not. -/
theorem unpack_widenCoef (free c : Word) :
    unpack .binary64 (widenCoef .binary32 free c) = fcvt .binary32 .binary64 (unpack .binary32 c) :=
  unpack_pack (fcvt_ofFormat _ _ _) free

/-- Settles O42: the selection decides whether there is a coefficient; widening a finite one is exact. -/
theorem coefficientReadIsExact : Obligations.CoefficientReadIsExact := by
  refine fun s => ⟨coefDataValue_outside, fun st c hcfg hst htap hc => ?_⟩
  have hread : regValue s .coefData = widenCoef s.params.sampleFmt (Config.freeWord s.draws) c :=
    coefDataValue_inside hcfg hst htap hc
  refine ⟨fun hF => by rw [hread, hF]; rfl, fun hF => ?_⟩
  rw [hread, hF, unpack_widenCoef]
  refine ⟨rfl, fun neg mag hfin => ?_⟩
  have hfmt := unpack_ofFormat .binary32 c
  rw [hfin] at hfmt ⊢
  exact fcvt_widen hfmt

/-! ### The configuration registers (10_state.md R24, R30 to R34, R38) -/

theorem whenConfigured_false {s : State} (h : s.cas.cfg = false) (v : Word) : whenConfigured s v = 0#64 := by
  simp [whenConfigured, h]

theorem whenConfigured_true {s : State} (h : s.cas.cfg = true) (v : Word) : whenConfigured s v = v := by
  simp [whenConfigured, h]

/-- A factor of a legal ratio is at most RATIO_MAX. -/
theorem factorize_getD_le {r : Nat} (h1 : 1 ≤ r) (hmax : r ≤ ratioMax) (i : Nat) : (factorize r).getD i 0 ≤ ratioMax :=
  getD_le_of_prod (fun q hq => le_trans (by norm_num) (factorize_two_le h1 q hq)) (by rw [factorize_prod h1]; exact hmax) i

/-- Settles O41: every number of a legal configuration fits the register. -/
theorem configurationRegisters : Obligations.ConfigurationRegisters := by
  intro s
  have htaps := taps_lt s.params
  refine ⟨rfl, Nat.mod_eq_of_lt (by omega), fun hcfg => ⟨?_, fun i => whenConfigured_false hcfg _⟩,
    fun hcfg hok => ?_⟩
  · have hcoef : coefDataValue s = 0#64 := coefDataValue_outside (.inl hcfg)
    simp [regValue, whenConfigured_false hcfg, hcoef]
  · rw [cascadeOk, if_pos hcfg] at hok
    obtain ⟨hr1, hrmax, hfactors, -, -, hscratch⟩ := hok
    have hcap := s.params.scratchCap_le
    have hlen : s.cas.stages.length ≤ 19 := by
      have := factorize_length hr1 hrmax
      rwa [← hfactors, List.length_map] at this
    have hmax : ratioMax < 2 ^ 64 := by decide
    simp only [regValue, whenConfigured_true hcfg, true_and, BitVec.toNat_ofNat]
    refine ⟨Nat.mod_eq_of_lt (by omega), Nat.mod_eq_of_lt (by omega), Nat.mod_eq_of_lt (by omega), fun i =>
      Nat.mod_eq_of_lt ?_⟩
    rw [hfactors]
    exact lt_of_le_of_lt (factorize_getD_le hr1 hrmax _) hmax

/-! ### The interrupt line (10_state.md R46) -/

theorem irq_endCommand (err : Bool) (code : BitVec 8) (res : Word) (s : State) : irq (endCommand err code res s) = s.ie :=
  Bool.true_and _

/-- Every engine step raises DONE and leaves IE (44_host_bus.md R210). -/
theorem engineStep_irq {s t : State} (h : engineStep s = .next t) : irq t = s.ie := by
  obtain ⟨err, code, res, hc⟩ := engineStep_cases h
  rcases hc with ⟨-, c, rfl⟩ | ⟨-, ws, m, sts, d, rfl, -⟩ | ⟨-, sts, rfl, -⟩ | ⟨-, fz, rfl⟩ | ⟨-, rfl⟩ <;>
    exact irq_endCommand ..

theorem irq_of_not_done {s : State} (h : s.done = false) : irq s = false := by simp [irq, h]

/-- A CMD write never raises DONE: a start clears it, an overrun and a stuck block keep it (44_host_bus.md R201). -/
theorem writeCmd_done {s : State} (h : s.done = false) (v : Word) : (writeCmd v s).done = false := by
  cases ho : s.ovr with
  | true => rw [writeCmd_stuck ho]; exact h
  | false =>
    cases hb : s.busy with
    | true => rw [writeCmd_busy ho hb, overrun_done]; exact h
    | false => rw [writeCmd_idle ho hb]; rfl

/-- Settles O44: the line at a completion, an acknowledgement, a start, a reset and an overrun. -/
theorem interruptFollowsCompletion : Obligations.InterruptFollowsCompletion := by
  refine ⟨fun s t => engineStep_irq, fun s => irq_of_not_done rfl, fun s v ho hb => irq_of_not_done ?_,
    fun s => irq_of_not_done rfl, fun s v _ hd => irq_of_not_done (writeCmd_done hd v), fun s => rfl⟩
  change (writeCmd v s).done = false
  rw [writeCmd_idle ho hb]
  rfl

end Sys2Proof.Machine
end

section
/-!
PROOFS. Sample memory (20_memory.md): loads and stores of bytes, values and samples, what the host reads and writes, and which
steps can change a byte.
-/

namespace Sys2Proof.Machine

/-! ### Loads and stores (20_memory.md R62, R66, R67; 00_scope.md R11) -/

/-- The low digits of a number to base 256 are digits of the number. -/
theorem mod_pow_digit (v : Nat) {n i : Nat} (hi : i < n) : v % 256 ^ n / 256 ^ i % 256 = v / 256 ^ i % 256 := by
  have hsplit : 256 ^ n = 256 ^ i * 256 ^ (n - i) := by rw [← pow_add, Nat.add_sub_cancel' hi.le]
  rw [hsplit, Nat.mod_mul_right_div_self, Nat.mod_mod_of_dvd _ (dvd_pow_self 256 (by omega))]

/-- Byte `i` of a stored value is its digit `i`, lowest address first (20_memory.md R62). -/
theorem loadByte_memStore {m : Memory} (h : m.wf = true) {a n i : Nat} (v : Nat) (ha : a + n ≤ addrSpace) (hi : i < n) :
    (loadByte (memStore m a n v) (a + i)).toNat = v / 256 ^ i % 256 := by
  rw [← memLoad_byte _ a hi, memLoad_memStore h n v (.inr ha), mod_pow_digit v hi]

/-- Settles O60: a store is read back as a value and byte by byte, and a sample is two stores side by side. -/
theorem loadsReadWhatStoresWrote : Obligations.LoadsReadWhatStoresWrote := by
  intro m hm
  refine ⟨fun a n v ha => ⟨memLoad_memStore hm n v (.inr ha), wf_memStore hm n v (.inr ha), fun i hi => ?_, fun c hc => ?_⟩,
    fun F a z ha hz => readSample_writeSample hm ha hz⟩
  · exact loadByte_memStore hm v ha hi
  · exact loadByte_memStore_other m v hc

/-! ### The host's path to sample memory (20_memory.md R60, R65, R72) -/

/-- An operation of the host or its platform at the head of the list takes its turn (log 14). -/
theorem step_of_hostOp {s : State} {op : HostOp} {rest : List HostOp} (h : s.host = op :: rest) (hop : op ≠ .engine) :
    step s = hostAct op { s with host := rest } := by
  unfold step nextTurn
  rw [h]
  cases op with
  | engine => exact absurd rfl hop
  | _ => rfl

/-- Windows that a write does not meet stay unraced (70_reset_and_hazards.md R266). -/
theorem racedWindows_of_meets_none {a len : Nat} {ws : List Window} (h : ∀ w ∈ ws, w.meets a len = false) :
    racedWindows a len ws = ws := by
  have hkeep : ∀ w ∈ ws, (if w.meets a len then { w with raced := true } else w) = id w := fun w hw => by simp [h w hw]
  rw [racedWindows, List.map_congr_left hkeep, List.map_id]

/-- A write outside every handed-over buffer is no race (70_reset_and_hazards.md R266). -/
theorem noteWrite_of_meets_none {a len : Nat} {s : State} (h : ∀ w ∈ s.windows, w.meets a len = false) :
    noteWrite a len s = s := by
  have hhit : (s.windows.filter fun w => w.meets a len) = [] := List.filter_eq_nil_iff.2 fun w hw => by simp [h w hw]
  simp [noteWrite, hhit, racedWindows_of_meets_none h]

/-- Settles O49: the host's operation takes its turn, and a write that meets no window is a store of its bytes. -/
theorem hostWritesStoreBytes : Obligations.HostWritesStoreBytes := by
  refine ⟨fun s a bytes rest h => step_of_hostOp h (by simp), fun s a n rest h => step_of_hostOp h (by simp),
    fun s a bytes hm hr hw => ⟨storeBytes s.mem a bytes, noteWrite_of_meets_none hw, fun i b hb => ?_, fun c hc => ?_⟩⟩
  · exact loadByte_storeBytes hm bytes (hostReaches_le hr) hb
  · exact loadByte_storeBytes_other s.mem bytes hc

/-- Settles O48: the reply lists `hostByte` for each of the addresses read. -/
theorem hostReadsOfSampleMemory : Obligations.HostReadsOfSampleMemory := by
  intro s a n
  refine ⟨(List.range n).map (hostByte s a), rfl, by simp, fun i hi => ?_⟩
  rw [List.getElem?_map, List.getElem?_range hi]
  rfl

/-! ### What changes sample memory (20_memory.md R60) -/

/-- Only PROCESS among the engine's commands changes sample memory. -/
theorem engineStep_mem {s t : State} (h : engineStep s = .next t) (hd : decode s.lcmd ≠ .ok .process) : t.mem = s.mem := by
  obtain ⟨err, code, res, hc⟩ := engineStep_cases h
  rcases hc with ⟨-, c, rfl⟩ | ⟨hprocess, -⟩ | ⟨-, sts, rfl, -⟩ | ⟨-, fz, rfl⟩ | ⟨-, rfl⟩
  · rfl
  · exact absurd hprocess hd
  · rfl
  · rfl
  · rfl

/-- A CMD write changes sample memory only as an overrun (60_exceptions.md R225). -/
theorem writeCmd_mem (v : Word) (s : State) :
    (writeCmd v s).mem = s.mem ∨ (s.busy = true ∧ s.ovr = false ∧ (writeCmd v s).ovr = true) := by
  cases ho : s.ovr with
  | true => rw [writeCmd_stuck ho]; exact .inl rfl
  | false =>
    cases hb : s.busy with
    | true => rw [writeCmd_busy ho hb]; exact .inr ⟨rfl, rfl, overrun_ovr _⟩
    | false => rw [writeCmd_idle ho hb]; exact .inl rfl

/-- The other registers do not reach sample memory at all (44_host_bus.md R202 to R206). -/
theorem writeReg_mem (r : Option Reg) (v : Word) (s : State) :
    (writeReg r v s).mem = s.mem ∨ (s.busy = true ∧ s.ovr = false ∧ (writeReg r v s).ovr = true) := by
  by_cases hr : r = some .cmd
  · subst hr; exact writeCmd_mem v s
  · obtain ⟨dn, ie, l, tap, stage, e, -⟩ := writeReg_frame hr v s
    rw [e]; exact .inl rfl

/-- A reset of an idle block abandons no command, so it leaves sample memory alone (70_reset_and_hazards.md R262). -/
theorem resetEvent_mem_of_idle {s : State} (h : s.busy = false) : (resetEvent s).mem = s.mem := by
  simp [resetEvent, abandonedRange, h]

/-- Of the host's operations its own write, a reset during a command and the CMD write of an overrun alone change sample memory. -/
theorem hostAct_mem {op : HostOp} {s t : State} (h : hostAct op s = .next t) :
    t.mem = s.mem ∨ (∃ a bytes, op = .memWrite a bytes) ∨ (op = .reset ∧ s.busy = true) ∨
      (s.busy = true ∧ s.ovr = false ∧ t.ovr = true) := by
  cases op with
  | regRead a =>
    simp only [hostAct] at h
    split at h
    · cases h
      obtain ⟨v, ws, d, e, -⟩ := readReg_frame (regAt _) s
      rw [e]; exact .inl rfl
    · cases h
  | regWrite a v =>
    simp only [hostAct] at h
    split at h
    · cases h
      exact (writeReg_mem _ v s).imp_right fun hov => .inr (.inr hov)
    · cases h
  | wait =>
    cases h
    obtain ⟨v, ws, ops, e, -⟩ := pollStatus_frame s
    rw [e]; exact .inl rfl
  | memRead a n =>
    simp only [hostAct] at h
    split at h
    · cases h; exact .inl rfl
    · cases h
  | memWrite a bytes => exact .inr (.inl ⟨a, bytes, rfl⟩)
  | engine => cases h; exact .inl rfl
  | reset =>
    cases h
    cases hb : s.busy with
    | true => exact .inr (.inr (.inl ⟨rfl, rfl⟩))
    | false => exact .inl (resetEvent_mem_of_idle hb)

/-- Settles O55: the engine's commands but PROCESS, and the host's operations but the three named, keep sample memory. -/
theorem sampleMemoryChangesOnlyBy : Obligations.SampleMemoryChangesOnlyBy := by
  intro s t h
  rcases step_cases h with ⟨hb, ho, he⟩ | ⟨op, rest, hh, ha, -⟩ | ⟨-, -, rfl⟩
  · by_cases hd : decode s.lcmd = .ok .process
    · refine .inr (.inl ⟨hb, ho, hd, ?_⟩)
      rcases he with ⟨hh, -⟩ | ⟨rest, hh, -⟩
      · exact .inl hh
      · exact .inr (by rw [hh]; rfl)
    · rcases he with ⟨-, he⟩ | ⟨rest, -, he⟩
      · exact .inl (engineStep_mem he hd)
      · exact .inl (engineStep_mem (s := { s with host := rest }) he hd)
  · rw [hh]
    rcases hostAct_mem ha with hm | ⟨a, bytes, rfl⟩ | ⟨rfl, hb⟩ | hov
    · exact .inl hm
    · exact .inr (.inr (.inl ⟨a, bytes, rfl⟩))
    · exact .inr (.inr (.inr (.inl ⟨rfl, hb⟩)))
    · exact .inr (.inr (.inr (.inr hov)))
  · exact .inl rfl

end Sys2Proof.Machine
end

section
/-!
PROOFS. The encoding: the decoder inverts the encoder and gives each refused word its reason, and an illegal word completes
with code 1 (30_encoding.md R80 to R83).
-/

namespace Sys2Proof.Machine

/-! ### The decoder against the encoder -/

/-- The family of encoding laws, for every command at once. -/
theorem encodingStatement (i : Instr) : Laws.Encoding.Statement i := by
  cases i with
  | create => exact Laws.Encoding.create
  | process => exact Laws.Encoding.process
  | clear => exact Laws.Encoding.clear
  | factorize => exact Laws.Encoding.factorize

@[simp] theorem decode_encode (i : Instr) : decode (encode i) = .ok i := by
  obtain ⟨-, -, hdecode, -⟩ := encodingStatement i
  exact hdecode

theorem eq_encode_of_decode_ok {w : Word} {i : Instr} (h : decode w = .ok i) : w = encode i := by
  apply BitVec.eq_of_toNat_eq
  rw [encode_toNat]
  rw [decode_value] at h
  split_ifs at h with _ hcreate hprocess hclear hfactorize
  · cases h; exact hcreate
  · cases h; exact hprocess
  · cases h; exact hclear
  · cases h; exact hfactorize

theorem decode_eq_ok_iff (w : Word) (i : Instr) : decode w = .ok i ↔ w = encode i :=
  ⟨eq_encode_of_decode_ok, fun h => h ▸ decode_encode i⟩

/-! ### Why a word is refused -/

theorem decode_eq_reservedBits_iff (w : Word) : decode w = .error .reservedBits ↔ 256 ≤ w.toNat := by
  rw [decode_value]
  split_ifs with hrsvd <;> simp [hrsvd]

theorem decode_eq_unknownOpcode_iff (w : Word) :
    decode w = .error .unknownOpcode ↔ w.toNat = 0 ∨ (5 ≤ w.toNat ∧ w.toNat < 256) := by
  rw [decode_value]
  split_ifs <;> simp <;> omega

theorem decode_error_of_not_command {w : Word} (h : ¬ (1 ≤ w.toNat ∧ w.toNat ≤ 4)) : ∃ e, decode w = .error e := by
  rcases Nat.lt_or_ge w.toNat 256 with hlow | hhigh
  · exact ⟨.unknownOpcode, (decode_eq_unknownOpcode_iff w).2 (by omega)⟩
  · exact ⟨.reservedBits, (decode_eq_reservedBits_iff w).2 hhigh⟩

theorem engineStep_of_decode_error {s : State} {e : IllegalWord} (h : decode s.lcmd = .error e) :
    engineStep s = .next (illegalCommand s) := by
  unfold engineStep
  rw [h]

/-! ### The obligations -/

/-- Settles O2: the decoder inverts the encoder, and the two refusals part the other words by their value. -/
theorem decodeMeetsEncodeBothWays : Obligations.DecodeMeetsEncodeBothWays :=
  ⟨decode_eq_ok_iff, decode_eq_reservedBits_iff, decode_eq_unknownOpcode_iff⟩

/-- Settles O4: a word that is no command is refused by the decoder, and the refusal ends the step with code 1. -/
theorem illegalWordCompletesWithCodeOne : Obligations.IllegalWordCompletesWithCodeOne := by
  intro s h
  obtain ⟨e, he⟩ := decode_error_of_not_command h
  exact engineStep_of_decode_error he

/-- Settles O1: the four words are the encodings of the commands, and the other three are refused for their value. -/
theorem commandWordsDecode : Obligations.CommandWordsDecode :=
  ⟨decode_encode .create, decode_encode .process, decode_encode .clear, decode_encode .factorize,
    (decode_eq_unknownOpcode_iff _).2 (by decide), (decode_eq_unknownOpcode_iff _).2 (by decide),
    (decode_eq_reservedBits_iff _).2 (by decide)⟩

end Sys2Proof.Machine
end

section
/-!
PROOFS. The rate factorizer (40_factorizer.md): the properties of the factor list, and what FACTORIZE leaves for every operand.
-/

namespace Sys2Proof.Machine

/-! ### The two parts of the factor list (40_factorizer.md R100, R101) -/

/-- The part of a factor list that the preference list supplies (40_factorizer.md R101 (c) to (e)). -/
structure PreferredPart (l : List Nat) : Prop where
  preferred : ∀ q ∈ l, q ∈ [8, 6, 5, 4, 3, 2]
  nonincreasing : l.Pairwise (· ≥ ·)
  count_four : l.count 4 ≤ 1
  count_two : l.count 2 ≤ 1
  not_two_and_three : ¬ (2 ∈ l ∧ 3 ∈ l)

/-- What the preference list leaves over: nothing, or one factor without a 2, 3 or 5 (40_factorizer.md R101 (c)). -/
def ResidualPart (l : List Nat) : Prop := l = [] ∨ ∃ m, l = [m] ∧ ¬ 2 ∣ m ∧ ¬ 3 ∣ m ∧ ¬ 5 ∣ m

/-- Blocks of equal factors in the order of the preference list. A 4 or a 2 occurs once, and a 2 leaves no 3. -/
theorem preferredPart_replicates {d e f : Nat} (a b c : Nat) (hd : d ≤ 1) (hf : f ≤ 1) (hef : e = 0 ∨ f = 0) :
    PreferredPart (List.replicate a 8 ++ (List.replicate b 6 ++ (List.replicate c 5 ++ (List.replicate d 4 ++
      (List.replicate e 3 ++ List.replicate f 2))))) where
  preferred q hq := by
    simp only [List.mem_append, List.mem_replicate] at hq
    simp only [List.mem_cons, List.not_mem_nil, or_false]
    omega
  nonincreasing := by
    simp only [List.pairwise_append, List.pairwise_replicate, List.mem_append, List.mem_replicate]
    and_intros <;> (intros; omega)
  count_four := by simpa [List.count_append, List.count_replicate] using hd
  count_two := by simpa [List.count_append, List.count_replicate] using hf
  not_two_and_three := by
    simp only [List.mem_append, List.mem_replicate]
    omega

theorem factorize_eq_append {r : Nat} (hr : 1 ≤ r) :
    ∃ ps res, factorize r = ps ++ res ∧ PreferredPart ps ∧ ResidualPart res := by
  obtain ⟨a, b, c, d, e, f, m, h, -, -, h2, h3, h5, hd, hf, hedf, -⟩ := factorize_shape hr
  have hef : e = 0 ∨ f = 0 := hedf.imp_right And.right
  refine ⟨_, if 1 < m then [m] else [], by simpa only [List.append_assoc] using h,
    preferredPart_replicates a b c hd hf hef, ?_⟩
  split
  · exact .inr ⟨m, rfl, h2, h3, h5⟩
  · exact .inl rfl

/-- Every preferred factor has a 2, a 3 or a 5 in it, so a residual is none of them. -/
theorem not_preferred_of_residual {m : Nat} (h2 : ¬ 2 ∣ m) (h3 : ¬ 3 ∣ m) (h5 : ¬ 5 ∣ m) : m ∉ [8, 6, 5, 4, 3, 2] := by
  simp only [List.mem_cons, List.not_mem_nil, or_false]
  omega

/-- The preferred factors of the whole list are those of its first part. -/
theorem filter_preferred_append {ps res : List Nat} (hps : PreferredPart ps) (hres : ResidualPart res) :
    (ps ++ res).filter (· ∈ [8, 6, 5, 4, 3, 2]) = ps := by
  have hkept : ps.filter (· ∈ [8, 6, 5, 4, 3, 2]) = ps :=
    List.filter_eq_self.2 fun q hq => decide_eq_true (hps.preferred q hq)
  rcases hres with rfl | ⟨m, rfl, h2, h3, h5⟩
  · rw [List.append_nil, hkept]
  · rw [List.filter_append, hkept, List.filter_singleton, decide_eq_false (not_preferred_of_residual h2 h3 h5)]
    exact List.append_nil ps

/-- The preferred factors of a factor list are as R101 (d) and (e) say (40_factorizer.md). -/
theorem preferredPart_filter_factorize {r : Nat} (hr : 1 ≤ r) :
    PreferredPart ((factorize r).filter (· ∈ [8, 6, 5, 4, 3, 2])) := by
  obtain ⟨ps, res, h, hps, hres⟩ := factorize_eq_append hr
  rw [h, filter_preferred_append hps hres]
  exact hps

theorem preferred_of_mem_dropLast_factorize {r : Nat} (hr : 1 ≤ r) :
    ∀ q ∈ (factorize r).dropLast, q ∈ [8, 6, 5, 4, 3, 2] := by
  obtain ⟨ps, res, h, hps, rfl | ⟨m, rfl, -⟩⟩ := factorize_eq_append hr
  · rw [h, List.append_nil]
    exact fun q hq => hps.preferred q (List.mem_of_mem_dropLast hq)
  · rw [h, List.dropLast_concat]
    exact hps.preferred

theorem preferred_or_residual_of_getLast_factorize {r : Nat} (hr : 1 ≤ r) :
    ∀ q ∈ (factorize r).getLast?, q ∈ [8, 6, 5, 4, 3, 2] ∨ (¬ 2 ∣ q ∧ ¬ 3 ∣ q ∧ ¬ 5 ∣ q) := by
  obtain ⟨ps, res, h, hps, rfl | ⟨m, rfl, hm⟩⟩ := factorize_eq_append hr
  · rw [h, List.append_nil]
    exact fun q hq => .inl (hps.preferred q (List.mem_of_getLast? hq))
  · rw [h, List.getLast?_concat]
    rintro q ⟨⟩
    exact .inr hm

/-- Settles O8: what holds of the preferred factors holds of the list, since a preferred number occurs nowhere else in it. -/
theorem factorListProperties : Obligations.FactorListProperties := by
  refine ⟨by decide, by decide, by decide +kernel, fun r hr => ?_⟩
  have hpart := preferredPart_filter_factorize hr
  refine ⟨factorize_prod hr, factorize_two_le hr, preferred_of_mem_dropLast_factorize hr,
    preferred_or_residual_of_getLast_factorize hr, hpart.nonincreasing, ?_, ?_, ?_, factorize_length hr⟩
  · rw [← List.count_filter (p := (· ∈ [8, 6, 5, 4, 3, 2])) (by decide)]
    exact hpart.count_four
  · rw [← List.count_filter (p := (· ∈ [8, 6, 5, 4, 3, 2])) (by decide)]
    exact hpart.count_two
  · rintro ⟨h2, h3⟩
    exact hpart.not_two_and_three ⟨List.mem_filter.2 ⟨h2, by decide⟩, List.mem_filter.2 ⟨h3, by decide⟩⟩

/-! ### The command (40_factorizer.md R102) -/

theorem exec_factorize_of_body {s : State} {body : Except Err State} (h : factorizeBody s = body) :
    exec .factorize s = .next (finish s body) := h ▸ rfl

theorem word_toNat_of_lt {n : Nat} (h : n < 2 ^ 64) : (BitVec.ofNat 64 n).toNat = n := by
  rw [BitVec.toNat_ofNat, Nat.mod_eq_of_lt h]

/-- Settles O7: the three ranges of the operand; at most 19 factors of at most RATIO_MAX each fit the registers. -/
theorem factorizeResult : Obligations.FactorizeResult := by
  refine ⟨by decide, by decide, by decide +kernel, by decide, fun s =>
    ⟨fun h0 => exec_factorize_of_body (factorizeBody_zero h0),
      fun habove => exec_factorize_of_body (factorizeBody_above habove), fun h1 hmax => ?_⟩⟩
  have hlen : (factorize s.larg.a0.toNat).length < 2 ^ 64 := (factorize_length h1 hmax).trans_lt (by decide)
  have hfactor (i : Nat) : (factorize s.larg.a0.toNat).getD i 0 < 2 ^ 64 :=
    (factorize_getD_le h1 hmax i).trans_lt (by decide)
  exact ⟨_, exec_factorize_of_body (factorizeBody_ok h1 hmax), rfl, word_toNat_of_lt hlen, word_toNat_of_lt hlen,
    fun i => word_toNat_of_lt (hfactor i.val)⟩

end Sys2Proof.Machine
end

section
/-!
PROOFS. The filter designer (41_filter_design.md): the shape of every designed set, and the set with one tap.
-/

namespace Sys2Proof.Machine

/-! ### A designed set (41_filter_design.md R126 to R128) -/

/-- The raw taps are the left half, the centre tap and the left half mirrored (41_filter_design.md R126). -/
theorem rawTaps_eq_append (sin cos : Word → Word) (f T : Nat) :
    rawTaps sin cos f T = (List.range (centreTap T)).map (rawTap sin cos f T) ++
      rawTap sin cos f T (centreTap T) :: ((List.range (centreTap T)).map (rawTap sin cos f T)).reverse := by
  simp [rawTaps, List.range_succ]

theorem rawTaps_reverse (sin cos : Word → Word) (f T : Nat) : (rawTaps sin cos f T).reverse = rawTaps sin cos f T := by
  simp [rawTaps_eq_append]

theorem storedTap_ofFormat (F : Fmt) (sum h : Fp) : (storedTap F sum h).ofFormat F := fcvt_ofFormat _ F _

theorem eq_fin_of_isNonFinite_eq_false {v : Fp} (h : isNonFinite v = false) : ∃ neg mag, v = .fin neg mag := by
  cases v with
  | nan => cases h
  | inf neg => cases h
  | fin neg mag => exact ⟨neg, mag, rfl⟩

theorem design_reverse {sin cos : Word → Word} {F : Fmt} {f T : Nat} {c : List Word}
    (h : design sin cos F f T = some c) : c.reverse = c := by
  obtain ⟨rfl, -⟩ := design_some h
  rw [← List.map_reverse, ← List.map_reverse, rawTaps_reverse]

theorem design_finite {sin cos : Word → Word} {F : Fmt} {f T : Nat} {c : List Word}
    (h : design sin cos F f T = some c) : ∀ w ∈ c, ∃ neg mag, unpack F w = .fin neg mag := by
  obtain ⟨rfl, hfinite⟩ := design_some h
  intro w hw
  obtain ⟨v, hv, rfl⟩ := List.mem_map.1 hw
  obtain ⟨tap, -, htap⟩ := List.mem_map.1 hv
  rw [unpack_pack (htap ▸ storedTap_ofFormat F _ tap)]
  exact eq_fin_of_isNonFinite_eq_false (hfinite v hv)

/-- Settles O15: the raw taps are a palindrome, storing works tap by tap, and a value that is not finite makes a fault. -/
theorem designIsSymmetric : Obligations.DesignIsSymmetric := fun p _ _ _ _ h =>
  ⟨taps_odd p, design_length (taps_odd p) h, design_reverse h, design_finite h⟩

/-! ### One tap (41_filter_design.md R129) -/

/-- The argument of the sinc at the centre tap is +0.0: a finite scale times zero (41_filter_design.md R123, R124). -/
theorem sincArgument_centreTap {f : Nat} (hf : 1 ≤ f) (T : Nat) : sincArgument f T (centreTap T) = .fin false 0 := by
  obtain ⟨m, hm⟩ := cutoffScale_finite hf
  rw [sincArgument, hm, Nat.sub_self, ofRat_zero, fmul_zero_mag, decide_eq_false (lt_irrefl _)]
  rfl

theorem sinc_zero (sin : Word → Word) : sinc sin (.fin false 0) = f64Nat 1 := if_pos (by decide)

theorem hann_one (cos : Word → Word) (n : Nat) : hann cos 1 n = f64Nat 1 := if_pos (by decide)

theorem rawTap_one (sin cos : Word → Word) {f : Nat} (hf : 1 ≤ f) : rawTap sin cos f 1 (centreTap 1) = f64Nat 1 := by
  have hprod : fmul .binary64 (f64Nat 1) (f64Nat 1) = f64Nat 1 := by decide +kernel
  rw [rawTap, sincArgument_centreTap hf, sinc_zero, hann_one, hprod]

theorem rawTaps_one (sin cos : Word → Word) {f : Nat} (hf : 1 ≤ f) : rawTaps sin cos f 1 = [f64Nat 1] := by
  rw [rawTaps_eq_append, rawTap_one sin cos hf]
  rfl

theorem tapSum_one : tapSum [f64Nat 1] = f64Nat 1 := by decide +kernel

theorem storedTap_one (F : Fmt) : storedTap F (f64Nat 1) (f64Nat 1) = ofRat F false 1 1 := by
  cases F <;> decide +kernel

/-- A set of one tap is the format's 1.0 (41_filter_design.md R129). -/
theorem design_one (sin cos : Word → Word) (F : Fmt) {f : Nat} (hf : 1 ≤ f) :
    design sin cos F f 1 = some [pack F 0#64 (ofRat F false 1 1)] := by
  have hsum : (isNonFinite (f64Nat 1) || isZero (f64Nat 1)) = false := by decide +kernel
  have htap : [ofRat F false 1 1].any isNonFinite = false := by cases F <;> decide +kernel
  simp only [design, rawTaps_one sin cos hf, tapSum_one, hsum, List.map_cons, List.map_nil, storedTap_one, htap,
    Bool.false_eq_true, if_false]

/-- Settles O16: the one raw tap is 1.0, SIN and COS not being called for it, and 1.0 / 1.0 is stored exactly. -/
theorem oneTapIsUnity : Obligations.OneTapIsUnity := by
  intro sin cos f hf
  rw [design_one sin cos .binary32 hf, design_one sin cos .binary64 hf]
  decide +kernel

end Sys2Proof.Machine
end

section
/-!
PROOFS. The FIR step (42_fir.md R140 to R148): the delay line as a history, the output as a convolution, the two lanes apart,
and what its zeros and NaNs look like.
-/

namespace Sys2Proof.Machine

theorem firStep_fst (F : Fmt) (T dr : Nat) (st : Stage) (x : Sample) : (firStep F T dr st x).1 = firOutput F T dr st x := rfl

/-! ### The delay line (42_fir.md R144) -/

/-- Settles O23: a pass stores its inputs one by one, and each moves the cursor and the history on by one. -/
theorem delayLineHoldsLastInputs : Obligations.DelayLineHoldsLastInputs := by
  intro F T dr i st xs hd hc
  rw [runStage_stage]
  have hcursor := storeAll_cursor hc xs
  refine ⟨?_, hcursor, fun hT => ?_, by simpa using hd, history_storeAll hd hc xs⟩
  · exact hcursor ▸ Nat.mod_lt _ (by omega)
  · rw [hcursor, hT, Nat.add_mod_right, Nat.mod_eq_of_lt hc]

/-! ### The output as a convolution (42_fir.md R141, R143) -/

/-- Settles O24: the lane sum over slots is the sum over the history, newest first. -/
theorem firStepIsConvolution : Obligations.FirStepIsConvolution := by
  intro F T dr st x hd hc hk
  have hpos : 0 < T := by omega
  rw [firStep_fst, firOutput_of_history F dr hd hc hk x, List.take_cons hpos]

/-! ### The two lanes (42_fir.md R142) -/

/-- Two stages that are alike but for their delay lines, of which one lane of the first holds what a lane of the second does. -/
structure LanesAgree (part part' : Sample → Word) (a b : Stage) : Prop where
  coef   : a.coef = b.coef
  factor : a.factor = b.factor
  cursor : a.cursor = b.cursor
  lane   : a.delay.map part = b.delay.map part'

/-- Storing a sample stores its part in the lane, whatever the other part is. -/
theorem storedLine_lane (part : Sample → Word) (st : Stage) (x : Sample) :
    (storedLine st x).map part = (st.delay.map part).set st.cursor (part x) := List.map_set

section
variable {part part' : Sample → Word} {a b : Stage} {x y : Sample}

theorem LanesAgree.storedLine_eq (h : LanesAgree part part' a b) (hx : part x = part' y) :
    (storedLine a x).map part = (storedLine b y).map part' := by
  rw [storedLine_lane, storedLine_lane, h.lane, h.cursor, hx]

theorem LanesAgree.storeSample (T : Nat) (h : LanesAgree part part' a b) (hx : part x = part' y) :
    LanesAgree part part' (storeSample T a x) (storeSample T b y) where
  coef := h.coef
  factor := h.factor
  cursor := by rw [storeSample_cursor, storeSample_cursor, h.cursor]
  lane := h.storedLine_eq hx

theorem LanesAgree.laneSum_eq (F : Fmt) (T : Nat) (h : LanesAgree part part' a b) (hx : part x = part' y) :
    laneSum F T a.coef ((storedLine a x).map part) a.cursor = laneSum F T b.coef ((storedLine b y).map part') b.cursor := by
  rw [h.coef, h.cursor, h.storedLine_eq hx]

/-- What holds between the two lanes' parts of every step's outputs holds between those of a pass: both keep the same steps. -/
theorem LanesAgree.forall₂_runStage {F : Fmt} {T : Nat} {R : Word → Word → Prop}
    (hstep : ∀ {dr a b x y}, LanesAgree part part' a b → part x = part' y →
      R (part (firOutput F T dr a x)) (part' (firOutput F T dr b y)))
    (h : LanesAgree part part' a b) (dr i : Nat) {xs ys : List Sample} (hxs : xs.map part = ys.map part') :
    List.Forall₂ R ((runStage F T dr i a xs).1.map part) ((runStage F T dr i b ys).1.map part') := by
  induction xs generalizing dr i a b ys with
  | nil =>
    obtain rfl : ys = [] := by simpa using hxs.symm
    exact .nil
  | cons x xs ih =>
    obtain ⟨y, ys, rfl, hy, hys⟩ := List.map_eq_cons_iff.1 hxs.symm
    have htail := ih (h.storeSample T hy.symm) (dr + 2) (i + 1) hys.symm
    rw [runStage_cons, runStage_cons, h.factor]
    by_cases hkeep : i % b.factor = 0
    · simpa only [if_pos hkeep] using .cons (hstep h hy.symm) htail
    · simpa only [if_neg hkeep] using htail

end

/-- Settles O26: an output part is packed from its own lane's sum, and two lanes that agree have the same sum at every step. -/
theorem lanesIndependent : Obligations.LanesIndependent := by
  intro F T dr i a b xs ys hcoef hfactor hcursor
  refine ⟨fun hlane hxs => ?_, fun hlane hxs => ?_, fun hlane hxs => ?_⟩
  · refine List.forall₂_eq_eq_eq ▸ LanesAgree.forall₂_runStage (fun h hx => ?_) ⟨hcoef, hfactor, hcursor, hlane⟩ dr i hxs
    exact congrArg (pack F _) (h.laneSum_eq F T hx)
  · refine List.forall₂_eq_eq_eq ▸ LanesAgree.forall₂_runStage (fun h hx => ?_) ⟨hcoef, hfactor, hcursor, hlane⟩ dr i hxs
    exact congrArg (pack F _) (h.laneSum_eq F T hx)
  · refine LanesAgree.forall₂_runStage (fun h hx => ?_) ⟨hcoef, hfactor, hcursor, hlane⟩ dr i hxs
    simp only [firOutput, h.laneSum_eq F T hx]
    exact samePart_pack _ _

/-! ### Zeros and NaNs (42_fir.md R145) -/

theorem pack_laneSum_ne_negZero {F : Fmt} {w : Word} (hw : unpack F w = .fin true 0) {T : Nat} {coef lane : List Word}
    {p : Nat} {free : Word} : pack F free (laneSum F T coef lane p) ≠ w := by
  rintro rfl
  rw [unpack_pack (laneSum_ofFormat F T coef lane p)] at hw
  exact laneSum_ne_negZero F T coef lane p hw

/-- Settles O27: the pattern of -0.0 holds the value -0.0, which no sum from +0.0 has. -/
theorem outputsNeverNegativeZero : Obligations.OutputsNeverNegativeZero := by
  intro T dr st x
  have h32 : unpack .binary32 0x80000000#64 = .fin true 0 := by decide
  have h64 : unpack .binary64 0x8000000000000000#64 = .fin true 0 := by decide
  exact ⟨pack_laneSum_ne_negZero h32, pack_laneSum_ne_negZero h32, pack_laneSum_ne_negZero h64, pack_laneSum_ne_negZero h64⟩

theorem fmul_nan_right (F : Fmt) (v : Fp) : fmul F v .nan = .nan := by cases v <;> rfl

theorem fadd_nan_right (F : Fmt) (v : Fp) : fadd F v .nan = .nan := by cases v <;> rfl

/-- One NaN in a lane, of as many inputs as there are coefficients, makes the sum a NaN: its product is one, and so is every
sum from there on. -/
theorem convolve_eq_nan {F : Fmt} {coef lane : List Word} {w : Word} (hlen : lane.length ≤ coef.length) (hw : w ∈ lane)
    (hnan : unpack F w = .nan) : convolve F coef lane = .nan := by
  rw [← List.map_snd_zip hlen] at hw
  obtain ⟨⟨c, _⟩, hmem, rfl⟩ := List.mem_map.1 hw
  obtain ⟨before, after, hzip⟩ := List.append_of_mem hmem
  rw [convolve, hzip, List.foldl_append, List.foldl_cons, hnan, fmul_nan_right, fadd_nan_right]
  exact List.foldl_fixed' (fun _ => rfl) after

theorem laneSum_eq_nan {F : Fmt} {T : Nat} {st : Stage} {x z : Sample} (hd : st.delay.length = T) (hc : st.cursor < T)
    (hk : st.coef.length = T) (part : Sample → Word) (hz : z ∈ x :: (history T st).take (T - 1))
    (hnan : unpack F (part z) = .nan) : laneSum F T st.coef ((storedLine st x).map part) st.cursor = .nan := by
  rw [laneSum_history F hd hc hk]
  refine convolve_eq_nan ?_ (List.mem_map_of_mem hz) hnan
  simp only [List.length_map, List.length_cons, List.length_take, history_length]
  omega

/-- Settles O28: the sample lies among the last `T` inputs, so its lane's sum is a NaN, and a NaN is packed as one. -/
theorem nanSpreadsWhileItStays : Obligations.NanSpreadsWhileItStays := by
  intro F T dr j st x z hd hc hk hj hz
  have hmem : z ∈ x :: (history T st).take (T - 1) := by
    rw [← List.take_cons (by omega)]
    exact List.mem_of_getElem? (by rw [List.getElem?_take_of_lt hj, hz])
  refine ⟨fun hnan => ?_, fun hnan => ?_⟩
  · rw [firStep_fst, firOutput, laneSum_eq_nan hd hc hk Sample.re hmem hnan]
    exact unpack_nanPattern F _
  · rw [firStep_fst, firOutput, laneSum_eq_nan hd hc hk Sample.im hmem hnan]
    exact unpack_nanPattern F _

end Sys2Proof.Machine
end

section
/-!
PROOFS. CREATE and CLEAR (43_cascade.md R161 to R166, R178, R179): the two ways in which CREATE ends, its errors in their order,
the ratio and the scratch size, and CLEAR as the way back to the state that CREATE left.
-/

namespace Sys2Proof.Machine

/-! ### How CREATE ends (43_cascade.md R161, R165) -/

theorem exec_create_of_error {s : State} {e : Err} (h : createCascade s.params (createOperands s.larg) = .error e) :
    exec .create s = .next (raiseError e { s with cas := Cascade.unconfigured }) := by
  rw [exec, execCreate, createBody_error h, finish]

theorem exec_create_of_ok {s : State} {c : Cascade} (h : createCascade s.params (createOperands s.larg) = .ok c) :
    exec .create s = .next (completeOk { s with cas := c, result := BitVec.ofNat 64 c.stages.length }) := by
  rw [exec, execCreate, createBody_ok h, finish]

theorem exec_create_cases {s t : State} (h : exec .create s = .next t) :
    (∃ e, createCascade s.params (createOperands s.larg) = .error e ∧
      t = raiseError e { s with cas := Cascade.unconfigured }) ∨
    ∃ c, createCascade s.params (createOperands s.larg) = .ok c ∧
      t = completeOk { s with cas := c, result := BitVec.ofNat 64 c.stages.length } := by
  cases hc : createCascade s.params (createOperands s.larg) with
  | error e =>
    rw [exec_create_of_error hc] at h
    exact .inl ⟨e, rfl, (Host.Outcome.next.inj h).symm⟩
  | ok c =>
    rw [exec_create_of_ok hc] at h
    exact .inr ⟨c, rfl, (Host.Outcome.next.inj h).symm⟩

theorem exec_create_committed {s t : State} (h : exec .create s = .next t) (he : t.err = false) :
    createCascade s.params (createOperands s.larg) = .ok t.cas := by
  obtain ⟨e, -, rfl⟩ | ⟨c, hc, rfl⟩ := exec_create_cases h
  · simp at he
  · exact hc

/-- With rates that pass, the ratio is the first thing that can fail (43_cascade.md R161, 60_exceptions.md R227). -/
theorem createCascade_error_cases {p : Params} {o : CreateOperands} {e : Err} (hv : ratesValid o = true)
    (h : createCascade p o = .error e) :
    (e = .ratioOutOfRange ∧ ratioOf p.ratioTies o.inRate o.outRate = none) ∨
    ((e = .scratchTooLarge ∨ e = .designFault) ∧ ratioOf p.ratioTies o.inRate o.outRate ≠ none) := by
  cases hr : ratioOf p.ratioTies o.inRate o.outRate with
  | none =>
    rw [createCascade_badRatio hv hr] at h
    exact .inl ⟨(Except.error.inj h).symm, rfl⟩
  | some r =>
    refine .inr ⟨?_, Option.some_ne_none r⟩
    rcases Nat.lt_or_ge p.scratchCap (scratchSize p o.maxLen) with hbig | hfits
    · rw [createCascade_bigScratch hv hr hbig] at h
      exact .inl (Except.error.inj h).symm
    · cases hd : designStages Config.sin Config.cos p.sampleFmt (taps p) (factorize r) with
      | none =>
        rw [createCascade_badDesign hv hr hfits hd] at h
        exact .inr (Except.error.inj h).symm
      | some stages =>
        rw [createCascade_commits hv hr hfits hd] at h
        cases h

theorem scratchSize_le_iff (p : Params) (n : Int) (cap : Nat) :
    scratchSize p n ≤ cap ↔ max n (p.minScratch : Int) ≤ (cap : Int) := by
  rw [← scratchSize_int, Int.ofNat_le]

/-- Settles O9: the checks pass in the order of R161, and the committed configuration is read off field by field. -/
theorem createConfigures : Obligations.CreateConfigures := by
  intro s r hin hin' hout hout' hr hfits hdesign
  have hv : ratesValid (createOperands s.larg) = true := (ratesValid_iff _).2 ⟨⟨hin, hin'⟩, hout, hout'⟩
  obtain ⟨stages, hstages⟩ : ∃ stages,
      designStages Config.sin Config.cos s.params.sampleFmt (taps s.params) (factorize r) = some stages :=
    Option.ne_none_iff_exists'.1 fun hnone =>
      let ⟨f, hf, hfail⟩ := designStages_none.1 hnone
      hdesign f hf hfail
  obtain ⟨hfactors, hfresh⟩ := designStages_some hstages
  have hlength : (factorize r).length = stages.length := by rw [← hfactors, List.length_map]
  rw [hlength]
  exact ⟨_, exec_create_of_ok (createCascade_commits hv hr ((scratchSize_le_iff _ _ _).2 hfits) hstages), rfl, rfl, hfactors,
    hfresh, scratchSize_int _ _, unpack_pack (fdiv_ofFormat _ _ _) _⟩

/-- Settles O14: the operands of CREATE decide its configuration or its error, which is all that the three fields show. -/
theorem createDeterministic : Obligations.CreateDeterministic := by
  intro s s' t t' hp h0 h1 h2 ht ht'
  have hoperands : createOperands s.larg = createOperands s'.larg := by simp only [createOperands, h0, h1, h2]
  obtain ⟨e, hc, rfl⟩ | ⟨c, hc, rfl⟩ := exec_create_cases ht
  · rw [hp, hoperands] at hc
    rw [exec_create_of_error hc] at ht'
    cases ht'
    exact ⟨rfl, rfl, rfl⟩
  · rw [hp, hoperands] at hc
    rw [exec_create_of_ok hc] at ht'
    cases ht'
    exact ⟨rfl, rfl, rfl⟩

/-! ### The ratio (43_cascade.md R162) -/

/-- Rounded down below the tie, rounded up above it, and at the tie by RATIO_TIES. -/
theorem roundToInteger_cases (F : Fmt) (ties : Ties) (mag : Nat) :
    (roundToInteger F ties mag = mag / 2 ^ unitExp F ∧
      (2 * (mag % 2 ^ unitExp F) < 2 ^ unitExp F ∨
       2 * (mag % 2 ^ unitExp F) = 2 ^ unitExp F ∧ ties = .even ∧ mag / 2 ^ unitExp F % 2 = 0)) ∨
    (roundToInteger F ties mag = mag / 2 ^ unitExp F + 1 ∧
      (2 ^ unitExp F < 2 * (mag % 2 ^ unitExp F) ∨
       2 * (mag % 2 ^ unitExp F) = 2 ^ unitExp F ∧ (ties = .even → mag / 2 ^ unitExp F % 2 = 1))) := by
  unfold roundToInteger
  dsimp only
  split
  · exact .inl ⟨rfl, .inl ‹_›⟩
  · split
    · exact .inr ⟨rfl, .inl ‹_›⟩
    · have htie : 2 * (mag % 2 ^ unitExp F) = 2 ^ unitExp F := by omega
      cases ties with
      | away => exact .inr ⟨rfl, .inr ⟨htie, nofun⟩⟩
      | even =>
        rcases Nat.mod_two_eq_zero_or_one (mag / 2 ^ unitExp F) with h | h
        · exact .inl ⟨by simp only [h, Nat.add_zero], .inr ⟨htie, rfl, h⟩⟩
        · exact .inr ⟨by simp only [h], .inr ⟨htie, fun _ => h⟩⟩

/-- The integer is within one half of `mag` units; a tie goes to the even one, or away from zero. -/
theorem roundToInteger_nearest (F : Fmt) (ties : Ties) (mag : Nat) :
    2 * mag ≤ (2 * roundToInteger F ties mag + 1) * 2 ^ unitExp F ∧
    2 * roundToInteger F ties mag * 2 ^ unitExp F ≤ 2 * mag + 2 ^ unitExp F ∧
    (ties = .even → (2 * mag = (2 * roundToInteger F ties mag + 1) * 2 ^ unitExp F ∨
      2 * roundToInteger F ties mag * 2 ^ unitExp F = 2 * mag + 2 ^ unitExp F) → roundToInteger F ties mag % 2 = 0) ∧
    (ties = .away → 2 * mag ≠ (2 * roundToInteger F ties mag + 1) * 2 ^ unitExp F) := by
  have hlt : mag % 2 ^ unitExp F < 2 ^ unitExp F := Nat.mod_lt _ (by positivity)
  have hdiv := Nat.div_add_mod mag (2 ^ unitExp F)
  have hodd (k : Nat) : (2 * k + 1) * 2 ^ unitExp F = 2 * (2 ^ unitExp F * k) + 2 ^ unitExp F := by ring
  have heven (k : Nat) : 2 * k * 2 ^ unitExp F = 2 * (2 ^ unitExp F * k) := by ring
  rw [hodd, heven]
  obtain ⟨hk, h⟩ | ⟨hk, h⟩ := roundToInteger_cases F ties mag
  · rw [hk]
    refine ⟨by omega, by omega, fun _ htie => ?_, ?_⟩
    · rcases h with h | ⟨-, -, h⟩ <;> omega
    · rintro rfl
      rcases h with h | ⟨-, hne, -⟩
      · omega
      · cases hne
  · rw [hk, Nat.mul_add, Nat.mul_one]
    refine ⟨by omega, by omega, fun hev htie => ?_, fun _ => by omega⟩
    rcases h with h | ⟨-, h⟩
    · omega
    · have := h hev; omega

theorem unitExp_binary64 : unitExp .binary64 = 1074 := rfl

/-- Settles O11: with rates that pass, only the ratio raises code 4, and a committed configuration holds it; the ratio itself is
the nearest integer with its clamp. -/
theorem ratioRoundsToNearest : Obligations.RatioRoundsToNearest := by
  refine ⟨fun s t hin hin' hout hout' ht => ?_, fun ties inR outR => ⟨fun h => by rw [ratioOf, h], fun mag h => ?_⟩⟩
  · have hv : ratesValid (createOperands s.larg) = true := (ratesValid_iff _).2 ⟨⟨hin, hin'⟩, hout, hout'⟩
    obtain ⟨e, hc, rfl⟩ | ⟨c, hc, rfl⟩ := exec_create_cases ht
    · refine ⟨?_, nofun⟩
      obtain ⟨rfl, hr⟩ | ⟨rfl | rfl, hr⟩ := createCascade_error_cases hv hc
      · exact iff_of_true rfl hr
      · exact iff_of_false (by decide : (5#8 : BitVec 8) ≠ 4#8) hr
      · exact iff_of_false (by decide : (10#8 : BitVec 8) ≠ 4#8) hr
    · obtain ⟨-, r, stages, hr, -, -, rfl⟩ := createCascade_ok hc
      exact ⟨iff_of_false (by decide : (0#8 : BitVec 8) ≠ 4#8) fun hnone => Option.some_ne_none r (hr.symm.trans hnone),
        fun _ => hr⟩
  · obtain ⟨hup, hdown, heven, haway⟩ := unitExp_binary64 ▸ roundToInteger_nearest .binary64 ties mag
    exact ⟨_, hup, hdown, heven, haway, by rw [ratioOf, h]; rfl⟩

/-! ### The scratch size (43_cascade.md R164) -/

/-- Settles O12: the size is that of the committed configuration, or the check after the ratio refuses it. -/
theorem scratchSizeClampsUp : Obligations.ScratchSizeClampsUp := by
  refine fun s => ⟨fun t ht he => ?_, fun hin hin' hout hout' hratio hbig => ?_⟩
  · obtain ⟨-, r, stages, -, hfits, -, hcas⟩ := createCascade_ok (exec_create_committed ht he)
    rw [hcas]
    exact ⟨scratchSize_int _ _, hfits⟩
  · obtain ⟨r, hr⟩ := Option.ne_none_iff_exists'.1 hratio
    have hv : ratesValid (createOperands s.larg) = true := (ratesValid_iff _).2 ⟨⟨hin, hin'⟩, hout, hout'⟩
    have hcap : s.params.scratchCap < scratchSize s.params s.larg.a2.toInt :=
      Nat.lt_of_not_le fun hle => absurd ((scratchSize_le_iff _ _ _).1 hle) (not_le.2 hbig)
    exact exec_create_of_error (createCascade_bigScratch hv hr hcap)

/-! ### CLEAR (43_cascade.md R178) -/

theorem exec_clear_of_configured {s : State} (h : s.cas.cfg = true) :
    exec .clear s = .next (completeOk
      { s with cas := { s.cas with stages := s.cas.stages.map (clearStage (taps s.params)) }, result := 0#64 }) := by
  rw [exec, execClear, clearBody_ok h, finish]

theorem exec_clear_of_unconfigured {s : State} (h : s.cas.cfg = false) :
    exec .clear s = .next (raiseError .notConfigured s) := by
  rw [exec, execClear, clearBody_unconfigured h, finish]

/-- Clearing forgets all of the stages but their factors and coefficients. -/
theorem map_clearStage_congr (T : Nat) {a b : List Stage}
    (h : a.map (fun st => (st.factor, st.coef)) = b.map (fun st => (st.factor, st.coef))) :
    a.map (clearStage T) = b.map (clearStage T) := by
  have hclear (l : List Stage) :
      l.map (clearStage T) = (l.map fun st => (st.factor, st.coef)).map fun fc => freshStage T fc.1 fc.2 := by
    rw [List.map_map]
    rfl
  rw [hclear, h, ← hclear]

/-- Fresh stages are clear already. -/
theorem map_clearStage_designStages {sin cos : Word → Word} {F : Fmt} {T : Nat} {fs : List Nat} {sts : List Stage}
    (h : designStages sin cos F T fs = some sts) : sts.map (clearStage T) = sts := by
  obtain ⟨-, hfresh⟩ := designStages_some h
  refine (List.map_congr_left fun st hst => ?_).trans (List.map_id sts)
  obtain ⟨-, hdelay, hcursor⟩ := hfresh st hst
  rw [clearStage, ← hdelay, ← hcursor]
  rfl

/-- Settles O30: CLEAR keeps what the two blocks share, and zeroes the histories that CREATE had zeroed. -/
theorem clearZeroesHistory : Obligations.ClearZeroesHistory := by
  refine ⟨by decide, fun s hs => exec_clear_of_configured hs, fun s hs => exec_clear_of_unconfigured hs,
    fun s t u v ht he hp hfixed hv => ?_⟩
  obtain ⟨-, r, stages, -, -, hstages, hcas⟩ := createCascade_ok (exec_create_committed ht he)
  simp only [fixedPart, hcas, Prod.mk.injEq] at hfixed
  obtain ⟨hcfg, hratio, hshape, hscratch, hachieved⟩ := hfixed
  rw [exec_clear_of_configured hcfg] at hv
  obtain rfl := Host.Outcome.next.inj hv
  have hclear : u.cas.stages.map (clearStage (taps u.params)) = stages := by
    rw [hp, map_clearStage_congr _ hshape, map_clearStage_designStages hstages]
  simp only [completeOk_cas, hcas, hcfg, hratio, hclear, hscratch, hachieved]

end Sys2Proof.Machine
end

section
/-!
PROOFS. PROCESS (43_cascade.md R167 to R175): its errors in the order of its checks, what a PROCESS that passes them writes, the
lengths of the chain of stages, and the samples that a stage keeps.
-/

namespace Sys2Proof.Machine

/-! ### The checks of the buffers (43_cascade.md R167, R175) -/

theorem checkBuffer_misaligned {p : Params} {b m : Nat} (hm : 0 < m) (hb : b % partBytes p.sampleFmt ≠ 0) :
    checkBuffer p b m = some .alignmentFault := by
  rw [checkBuffer, if_neg hm.ne', if_pos hb]

theorem checkBuffer_outOfRange {p : Params} {b m : Nat} (hm : 0 < m) (hb : b % partBytes p.sampleFmt = 0)
    (hr : inRange p b m = false) : checkBuffer p b m = some .memoryFault := by
  rw [checkBuffer, if_neg hm.ne', if_neg (not_not.2 hb), if_pos hr]

theorem checkBuffer_error_cases {p : Params} {b m : Nat} {e : Err} (h : checkBuffer p b m = some e) :
    e = .alignmentFault ∨ e = .memoryFault := by
  unfold checkBuffer at h
  split_ifs at h
  · exact .inl (Option.some.inj h).symm
  · exact .inr (Option.some.inj h).symm

theorem processCheck_unconfigured {p : Params} {c : Cascade} (o : ProcessOperands) (h : c.cfg = false) :
    processCheck p c o = some .notConfigured := if_pos h

theorem processCheck_configured {p : Params} {c : Cascade} (o : ProcessOperands) (h : c.cfg = true) :
    processCheck p c o = (checkBuffer p o.inB o.n).or (checkBuffer p o.outB (producedLen c o.n o.maxOut)) :=
  if_neg (by rw [h]; decide)

theorem processCheck_input {p : Params} {c : Cascade} {o : ProcessOperands} (h : c.cfg = true) {e : Err}
    (hin : checkBuffer p o.inB o.n = some e) : processCheck p c o = some e := by
  rw [processCheck_configured o h, hin, Option.some_or]

theorem processCheck_output {p : Params} {c : Cascade} {o : ProcessOperands} (h : c.cfg = true)
    (hin : checkBuffer p o.inB o.n = none) {e : Err} (hout : checkBuffer p o.outB (producedLen c o.n o.maxOut) = some e) :
    processCheck p c o = some e := by
  rw [processCheck_configured o h, hin, Option.none_or, hout]

theorem processCheck_error_cases {p : Params} {c : Cascade} {o : ProcessOperands} {e : Err} (h : processCheck p c o = some e) :
    e = .notConfigured ∨ e = .alignmentFault ∨ e = .memoryFault := by
  cases hcfg : c.cfg with
  | false =>
    rw [processCheck_unconfigured o hcfg] at h
    exact .inl (Option.some.inj h).symm
  | true =>
    rw [processCheck_configured o hcfg, Option.or_eq_some_iff] at h
    obtain h | ⟨-, h⟩ := h
    · exact .inr (checkBuffer_error_cases h)
    · exact .inr (checkBuffer_error_cases h)

/-- Settles O17: each clause is the first check to fail, and the error of an unraced PROCESS changes nothing else. -/
theorem processRejectsInOrder : Obligations.ProcessRejectsInOrder := fun _ hs =>
  ⟨fun hcfg => process_fails hs (processCheck_unconfigured _ hcfg),
    fun hcfg hn hin => process_fails hs (processCheck_input hcfg (checkBuffer_misaligned hn hin)),
    fun hcfg hn hin hr => process_fails hs (processCheck_input hcfg (checkBuffer_outOfRange hn hin hr)),
    fun hcfg hin hp hout => process_fails hs
      (processCheck_output hcfg ((checkBuffer_none _ _ _).2 hin) (checkBuffer_misaligned hp hout)),
    fun hcfg hin hp hout hr => process_fails hs
      (processCheck_output hcfg ((checkBuffer_none _ _ _).2 hin) (checkBuffer_outOfRange hp hout hr))⟩

theorem exec_process_errCode {s t : State} (h : exec .process s = .next t) :
    t.errCode = 0#8 ∨ ∃ e, processCheck s.params s.cas (processOperands s.larg) = some e ∧ t.errCode = errCodeOf e := by
  rw [exec, execProcess] at h
  obtain rfl := Host.Outcome.next.inj h
  cases hc : processCheck s.params s.cas (processOperands s.larg) with
  | some e => exact .inr ⟨e, rfl, by rw [processBody_error hc, finish, raiseError_errCode]⟩
  | none => exact .inl (by rw [processBody_ok hc, finish, completeOk_errCode])

/-- Settles O10: the rates are the first check of CREATE, and neither its later checks nor those of PROCESS have code 3. -/
theorem createRejectsRates : Obligations.CreateRejectsRates := by
  refine fun s => ⟨fun hbad => ?_, fun hin hin' hout hout' t ht => ?_, fun t ht => ?_⟩
  · have hv : ratesValid (createOperands s.larg) = false :=
      Bool.eq_false_iff.2 fun hv => not_and_or.2 hbad ((ratesValid_iff _).1 hv)
    exact exec_create_of_error (createCascade_badRates hv)
  · have hv : ratesValid (createOperands s.larg) = true := (ratesValid_iff _).2 ⟨⟨hin, hin'⟩, hout, hout'⟩
    obtain ⟨e, hc, rfl⟩ | ⟨c, hc, rfl⟩ := exec_create_cases ht
    · rw [raiseError_errCode]
      obtain ⟨rfl, -⟩ | ⟨rfl | rfl, -⟩ := createCascade_error_cases hv hc <;> decide
    · rw [completeOk_errCode]
      decide
  · obtain hcode | ⟨e, hc, hcode⟩ := exec_process_errCode ht <;> rw [hcode]
    · decide
    · obtain rfl | rfl | rfl := processCheck_error_cases hc <;> decide

/-! ### The lengths of the chain (43_cascade.md R168, R169, R171) -/

theorem cascadeOk_configured {p : Params} {c : Cascade} (h : cascadeOk p c) (hcfg : c.cfg = true) :
    1 ≤ c.ratio ∧ c.ratio ≤ ratioMax ∧ c.stages.map Stage.factor = factorize c.ratio ∧
    (∀ st ∈ c.stages, stageOk p st) ∧ p.minScratch ≤ c.scratch ∧ c.scratch ≤ p.scratchCap := by
  rwa [cascadeOk, if_pos hcfg] at h

theorem factor_pos_of_cascadeOk {p : Params} {c : Cascade} (h : cascadeOk p c) (hcfg : c.cfg = true) :
    ∀ f ∈ c.stages.map Stage.factor, 0 < f := by
  obtain ⟨hratio, -, hfactors, -⟩ := cascadeOk_configured h hcfg
  rw [hfactors]
  exact fun f hf => zero_lt_two.trans_le (factorize_two_le hratio f hf)

theorem length_take_runStages (F : Fmt) (T dr : Nat) {c : Cascade} (hpos : ∀ f ∈ c.stages.map Stage.factor, 0 < f)
    (xs : List Sample) (maxOut : Nat) :
    ((runStages F T c.scratch dr c.stages xs).1.take maxOut).length = producedLen c xs.length maxOut := by
  rw [List.length_take, runStages_length _ _ _ _ _ (List.forall_mem_map.1 hpos), producedLen, Nat.min_comm]

/-- Settles O19: the chain's length stage by stage, its cut at the capacity, and one division by the factors' product
where no stage is cut. -/
theorem producedLengthMatchesRatio : Obligations.ProducedLengthMatchesRatio := by
  intro p c maxOut hcfg hok
  have hpos := factor_pos_of_cascadeOk hok hcfg
  obtain ⟨hratio, -, hfactors, -⟩ := cascadeOk_configured hok hcfg
  refine ⟨fun F T dr xs => ⟨runStages_length _ _ _ _ _ (List.forall_mem_map.1 hpos) xs,
      length_take_runStages F T dr hpos xs maxOut⟩,
    fun n => ⟨producedLen_le c n maxOut, fun hfirst => ?_⟩⟩
  rw [producedLen, keptLen_untruncated hpos hfirst, hfactors, factorize_prod hratio]

/-! ### The samples that a stage keeps (43_cascade.md R169, R170) -/

/-- With `d` samples to go to the next multiple of the factor, the outputs kept are those at `d`, `d + f`, `d + 2f`, ... of the
same stage keeping all. -/
theorem runStage_getElem? (F : Fmt) (T dr : Nat) {i d : Nat} (j : Nat) {st : Stage} (xs : List Sample) (k : Nat)
    (hd : d < st.factor) (hi : (i + d) % st.factor = 0) :
    (runStage F T dr i st xs).1[k]? = (runStage F T dr j { st with factor := 1 } xs).1[d + k * st.factor]? := by
  induction xs generalizing dr i d j st k with
  | nil => rfl
  | cons x xs ih =>
    have hall : (runStage F T dr j { st with factor := 1 } (x :: xs)).1 =
        firOutput F T dr st x :: (runStage F T (dr + 2) (j + 1) { storeSample T st x with factor := 1 } xs).1 := by
      rw [runStage_cons, if_pos (Nat.mod_one j)]
      rfl
    rw [hall, runStage_cons]
    dsimp only
    split
    · rename_i h0
      obtain rfl : d = 0 := by
        rwa [Nat.add_mod, h0, Nat.zero_add, Nat.mod_mod, Nat.mod_eq_of_lt hd] at hi
      cases k with
      | zero => rw [Nat.zero_mul]; rfl
      | succ k =>
        have hnext : 0 + (k + 1) * st.factor = st.factor - 1 + k * st.factor + 1 := by rw [Nat.succ_mul]; omega
        have hphase : (i + 1 + (st.factor - 1)) % st.factor = 0 := by
          rw [show i + 1 + (st.factor - 1) = i + st.factor by omega, Nat.add_mod_right, h0]
        rw [hnext, List.getElem?_cons_succ, List.getElem?_cons_succ]
        exact ih (dr + 2) (j + 1) k (st := storeSample T st x) (Nat.sub_lt hd one_pos) hphase
    · rename_i h0
      obtain ⟨d, rfl⟩ : ∃ d', d = d' + 1 := Nat.exists_eq_succ_of_ne_zero fun hzero => h0 (by rwa [hzero] at hi)
      rw [Nat.add_right_comm, List.getElem?_cons_succ]
      exact ih (dr + 2) (j + 1) k (st := storeSample T st x) (Nat.lt_of_succ_lt hd) (by rwa [Nat.add_right_comm])

/-- Settles O22: the first output is kept, and then every one a factor later. -/
theorem keptOutputsAreMultiples : Obligations.KeptOutputsAreMultiples := by
  intro F T dr st xs hf
  have hlength (g : Stage) (hg : 0 < g.factor) : (runStage F T dr 0 g xs).1.length = ceilDiv xs.length g.factor := by
    have h := runStage_length F T dr 0 g hg xs
    rwa [ceilDiv_zero, Nat.add_zero, Nat.zero_add] at h
  refine ⟨(hlength _ one_pos).trans (by simp [ceilDiv]), hlength st hf, fun j _ => ?_⟩
  rw [runStage_getElem? F T dr 0 xs j hf (Nat.zero_mod _), Nat.zero_add]

/-! ### What a PROCESS writes (43_cascade.md R167, R171 to R174) -/

/-- What the chain of stages makes of the input buffer of a PROCESS. -/
def chainOutput (o : ProcessOperands) (s : State) : List Sample :=
  (runStages s.params.sampleFmt (taps s.params) s.cas.scratch s.draws s.cas.stages
    (readSamples s.params.sampleFmt s.mem o.inB o.n)).1

theorem processWork_mem (o : ProcessOperands) (s : State) :
    (processWork o s).mem =
      writeSamples s.params.sampleFmt s.mem o.outB ((chainOutput o s).take (producedLen s.cas o.n o.maxOut)) := rfl

theorem chainOutput_fits (o : ProcessOperands) (s : State) : ∀ z ∈ chainOutput o s, z.fits s.params.sampleFmt :=
  runStages_fits _ _ _ _ _ _ (readSamples_fits _ _ _ _)

theorem producedLen_le_chainOutput (o : ProcessOperands) {s : State} (hpos : ∀ f ∈ s.cas.stages.map Stage.factor, 0 < f) :
    producedLen s.cas o.n o.maxOut ≤ (chainOutput o s).length := by
  rw [chainOutput, runStages_length _ _ _ _ _ (List.forall_mem_map.1 hpos), readSamples_length]
  exact Nat.min_le_left _ _

theorem loadByte_processWork_other (o : ProcessOperands) (s : State) {a : Nat}
    (h : a < o.outB ∨ o.outB + producedLen s.cas o.n o.maxOut * sampleBytes s.params.sampleFmt ≤ a) :
    loadByte (processWork o s).mem a = loadByte s.mem a := by
  have hlen : ((chainOutput o s).take (producedLen s.cas o.n o.maxOut)).length ≤ producedLen s.cas o.n o.maxOut :=
    List.length_take_le _ _
  rw [processWork_mem]
  exact loadByte_writeSamples_other _ _ _ (h.imp_right (le_trans (Nat.add_le_add_left (Nat.mul_le_mul_right _ hlen) _)))

/-- The output buffer holds the chain's outputs, computed from sample memory as it was before. -/
theorem readSample_processWork {o : ProcessOperands} {s : State} (hm : s.mem.wf = true)
    (hpos : ∀ f ∈ s.cas.stages.map Stage.factor, 0 < f)
    (hout : checkBuffer s.params o.outB (producedLen s.cas o.n o.maxOut) = none) {j : Nat}
    (hj : j < producedLen s.cas o.n o.maxOut) :
    (chainOutput o s)[j]? =
      some (readSample s.params.sampleFmt (processWork o s).mem (o.outB + j * sampleBytes s.params.sampleFmt)) := by
  have hle := producedLen_le_chainOutput o hpos
  have hlen := List.length_take_of_le hle
  have hspace : o.outB + producedLen s.cas o.n o.maxOut * sampleBytes s.params.sampleFmt ≤ addrSpace := by
    obtain hzero | ⟨-, hrange⟩ := (checkBuffer_none _ _ _).1 hout
    · omega
    · exact inRange_le hrange
  rw [processWork_mem, readSample_writeSamples hm (hlen.symm ▸ hspace)
    (fun z hz => chainOutput_fits o s z (List.mem_of_mem_take hz)) (hlen.symm ▸ hj), List.getElem_take,
    List.getElem?_eq_getElem (hj.trans_le hle)]

/-- Settles O18: the checks pass, and the work is read off the rules of its writes; the chain keeps factors and coefficients. -/
theorem processCompletes : Obligations.ProcessCompletes := by
  intro s hinv hunraced hovr hcfg F inB n outB produced run hin hout
  have hpos := factor_pos_of_cascadeOk (hinv.cascade hovr) hcfg
  have hout' := (checkBuffer_none s.params outB produced).2 hout
  obtain ⟨ws, hexec⟩ :=
    process_runs hunraced ((processCheck_none _ _ _).2 ⟨hcfg, (checkBuffer_none _ _ _).2 hin, hout'⟩)
  exact ⟨_, ws, hexec, fun a ha => loadByte_processWork_other (processOperands s.larg) s ha,
    fun j hj => readSample_processWork (o := processOperands s.larg) hinv.mem hpos hout' hj, runStages_factors _ _ _ _ _ _⟩

/-! ### PROCESS with nothing to filter (43_cascade.md R173, R174) -/

theorem producedLen_of_empty (c : Cascade) {n : Nat} (h : n = 0) (maxOut : Nat) : producedLen c n maxOut = 0 := by
  rw [producedLen, h, keptLen_zero, Nat.zero_min]

/-- Nothing is read, so no sample is stored and none written. -/
theorem processWork_of_empty {o : ProcessOperands} (h : o.n = 0) (s : State) :
    processWork o s = { s with result := 0#64 } := by
  have hread : readSamples s.params.sampleFmt s.mem o.inB o.n = [] := by rw [h]; rfl
  rw [processWork, hread, runStages_empty, producedLen_of_empty _ h]
  rfl

/-- Settles O21: an empty buffer passes every check, and the chain of nothing is nothing. -/
theorem emptyInputChangesNothing : Obligations.EmptyInputChangesNothing := by
  intro s hunraced hn
  refine ⟨fun hcfg => ?_, fun hcfg => ?_⟩
  · obtain ⟨ws, hexec⟩ := process_runs hunraced ((processCheck_none _ _ _).2
      ⟨hcfg, (checkBuffer_none _ _ _).2 (.inl hn), (checkBuffer_none _ _ _).2 (.inl (producedLen_of_empty _ hn _))⟩)
    rw [processWork_of_empty hn] at hexec
    exact ⟨ws, hexec⟩
  · obtain ⟨ws, hexec⟩ := process_fails hunraced (processCheck_unconfigured _ hcfg)
    exact ⟨ws, hexec⟩

theorem producedLen_of_no_stage {c : Cascade} (h : c.stages = []) (n maxOut : Nat) : producedLen c n maxOut = min n maxOut := by
  rw [producedLen, h]
  rfl

theorem runStages_of_no_stage (F : Fmt) (T S dr : Nat) {sts : List Stage} (h : sts = []) (seq : List Sample) :
    runStages F T S dr sts seq = (seq, sts, dr) := by
  rw [h, runStages_nil]

/-- No stage to step: no configuration changes and no free value is drawn. -/
theorem processWork_keeps_of_no_stage (o : ProcessOperands) {s : State} (h : s.cas.stages = []) :
    (processWork o s).cas = s.cas ∧ (processWork o s).draws = s.draws := by
  rw [processWork, runStages_of_no_stage _ _ _ _ h]
  exact ⟨rfl, rfl⟩

/-- With no stage the work of a PROCESS is a copy: the chain's output is the input. -/
theorem loadByte_processWork_of_no_stage {o : ProcessOperands} {s : State} (hm : s.mem.wf = true) (h : s.cas.stages = [])
    (hout : checkBuffer s.params o.outB (producedLen s.cas o.n o.maxOut) = none) {k : Nat}
    (hk : k < producedLen s.cas o.n o.maxOut * sampleBytes s.params.sampleFmt) :
    loadByte (processWork o s).mem (o.outB + k) = loadByte s.mem (o.inB + k) := by
  have hj : k / sampleBytes s.params.sampleFmt < producedLen s.cas o.n o.maxOut :=
    Nat.div_lt_of_lt_mul (by rwa [Nat.mul_comm])
  have hn : k / sampleBytes s.params.sampleFmt < o.n :=
    hj.trans_le ((producedLen_of_no_stage h _ _).trans_le (Nat.min_le_left _ _))
  have hr : k % sampleBytes s.params.sampleFmt < sampleBytes s.params.sampleFmt :=
    Nat.mod_lt _ (Nat.mul_pos two_pos (partBytes_pos _))
  have hread := readSample_processWork hm (by rw [h]; exact nofun) hout hj
  rw [chainOutput, runStages_of_no_stage _ _ _ _ h, readSamples, List.getElem?_map, List.getElem?_range hn,
    Option.map_some, Option.some.injEq] at hread
  have hbyte := readSample_bytes hread hr
  rw [Nat.add_assoc, Nat.add_assoc, Nat.div_add_mod'] at hbyte
  exact hbyte.symm

/-- Settles O20: the chain of no stage hands its input on, so each sample written is a sample read, byte for byte. -/
theorem passThroughCopiesBits : Obligations.PassThroughCopiesBits := by
  intro s hm hunraced hcfg hstages inB n outB produced half hin hout
  have hproduced : producedLen s.cas n s.larg.a3.toNat = produced := producedLen_of_no_stage hstages _ _
  have hout' : checkBuffer s.params outB (producedLen s.cas n s.larg.a3.toNat) = none :=
    (checkBuffer_none _ _ _).2 (hproduced.symm ▸ hout)
  obtain ⟨ws, hexec⟩ :=
    process_runs hunraced ((processCheck_none _ _ _).2 ⟨hcfg, (checkBuffer_none _ _ _).2 hin, hout'⟩)
  have hlt : produced < 2 ^ 64 := (Nat.min_le_right _ _).trans_lt s.larg.a3.isLt
  obtain ⟨hcas, hdraws⟩ := processWork_keeps_of_no_stage (processOperands s.larg) hstages
  rw [← hproduced] at hlt ⊢
  exact ⟨_, hexec, rfl, word_toNat_of_lt hlt, hcas, hdraws,
    fun k hk => loadByte_processWork_of_no_stage (o := processOperands s.larg) hm hstages hout' hk,
    fun a ha => loadByte_processWork_other (processOperands s.larg) s ha⟩

end Sys2Proof.Machine
end

section
/-!
PROOFS. The host bus (44_host_bus.md): the engine's turn and how it ends (R209, R210), register writes and reads (R201 to R207),
accesses that are refused (R208), and that a started command completes (R209, R272).
-/

namespace Sys2Proof.Machine

/-! ### Whose turn it is (44_host_bus.md R200, R209) -/

theorem engineEnabled_of_running {s : State} (hb : s.busy = true) (ho : s.ovr = false) : engineEnabled s = true := by
  simp [engineEnabled, hb, ho]

/-- With nothing left of the host's list the engine runs what it has been given. -/
theorem step_of_no_host {s : State} (hh : s.host = []) (he : engineEnabled s = true) : step s = engineStep s := by
  unfold step nextTurn
  rw [hh]
  simp only [he, if_true]

/-- The engine's turn at the head of the list, with a command to run. -/
theorem step_of_engineTurn {s : State} {rest : List HostOp} (hh : s.host = .engine :: rest) (he : engineEnabled s = true) :
    step s = engineStep { s with host := rest } := by
  unfold step nextTurn
  rw [hh]
  simp only [he, if_true]

/-- The engine's turn without a command is dropped. -/
theorem step_of_idleTurn {s : State} {rest : List HostOp} (hh : s.host = .engine :: rest) (he : engineEnabled s = false) :
    step s = .next { s with host := rest } := by
  unfold step nextTurn
  rw [hh]
  simp only [he, Bool.false_eq_true, if_false]
  rfl

theorem step_of_rest {s : State} (hh : s.host = []) (he : engineEnabled s = false) (ho : s.ovr = false) :
    step s = .next s := by
  unfold step nextTurn
  rw [hh]
  simp only [he, ho, Bool.false_eq_true, if_false]

theorem engineStep_of_decode_ok {s : State} {i : Instr} (h : decode s.lcmd = .ok i) : engineStep s = exec i s := by
  unfold engineStep
  rw [h]

/-- Settles O5: both ways in which the engine's turn comes lead to its step, which runs the decoded command. -/
theorem stepRunsDecodedCommand : Obligations.StepRunsDecodedCommand := by
  intro s i hb ho hd
  have he := engineEnabled_of_running hb ho
  refine ⟨fun hh => ?_, fun rest hh => ?_⟩
  · rw [step_of_no_host hh he, engineStep_of_decode_ok hd]
  · rw [step_of_engineTurn hh he, engineStep_of_decode_ok (s := { s with host := rest }) hd]

/-- Settles O6: the three turns that are not the engine's step. -/
theorem hostOperationTakesItsTurn : Obligations.HostOperationTakesItsTurn :=
  ⟨fun _ _ _ => step_of_hostOp, fun _ _ hh hb => step_of_idleTurn hh (by simp [engineEnabled, hb]),
    fun _ hh hb ho => step_of_rest hh (by simp [engineEnabled, hb]) ho⟩

/-! ### The engine step completes its command (44_host_bus.md R210, 60_exceptions.md R221) -/

theorem errCodeOf_mem (e : Err) : errCodeOf e ∈ [1#8, 2#8, 3#8, 4#8, 5#8, 6#8, 7#8, 8#8, 10#8] := by
  cases e <;> decide

/-- Every engine step ends in the one completion of R210. -/
theorem engineStep_eq_finish (s : State) : ∃ failed body, engineStep s = .next (finish failed body) := by
  cases hd : decode s.lcmd with
  | error e => exact ⟨s, .error .illegalCommand, engineStep_of_decode_error hd⟩
  | ok i =>
    rw [engineStep_of_decode_ok hd]
    cases i <;> exact ⟨_, _, rfl⟩

/-- The completion clears BUSY, sets DONE, and leaves a code of the table exactly with an error (R210, R221). -/
theorem finish_status (failed : State) (body : Except Err State) :
    (finish failed body).busy = false ∧ (finish failed body).done = true ∧
    ((finish failed body).err = false ↔ (finish failed body).errCode = 0#8) ∧
    ((finish failed body).err = true →
      (finish failed body).result = 0#64 ∧
      (finish failed body).errCode ∈ [1#8, 2#8, 3#8, 4#8, 5#8, 6#8, 7#8, 8#8, 10#8]) := by
  cases body with
  | ok t => simp [finish]
  | error e =>
    have hcode : errCodeOf e ≠ 0#8 := by cases e <;> decide
    exact ⟨rfl, rfl, by simp [finish, hcode], fun _ => ⟨rfl, errCodeOf_mem e⟩⟩

theorem engineStep_ovr {s t : State} (h : engineStep s = .next t) : t.ovr = s.ovr := by
  obtain ⟨err, code, res, hc⟩ := engineStep_cases h
  rcases hc with ⟨-, c, rfl⟩ | ⟨-, ws, m, sts, d, rfl, -⟩ | ⟨-, sts, rfl, -⟩ | ⟨-, fz, rfl⟩ | ⟨-, rfl⟩ <;> rfl

/-- Settles O32: the step is a completion, whose STATUS is that of R210, and it does not touch OVR. -/
theorem engineStepCompletes : Obligations.EngineStepCompletes := by
  intro s
  obtain ⟨failed, body, h⟩ := engineStep_eq_finish s
  obtain ⟨hbusy, hdone, hcode, herr⟩ := finish_status failed body
  exact ⟨_, h, hbusy, hdone, engineStep_ovr h, hcode, herr⟩

/-! ### A command runs on its latched operands (44_host_bus.md R201, 70_reset_and_hazards.md R268) -/

/-- The state with other values of the registers that the host may write while a command runs: ARG0 to ARG3, CTRL, COEF_SEL. -/
def lateWrite (a : Args) (ie : Bool) (tap : BitVec 16) (stage : BitVec 5) (s : State) : State :=
  { s with args := a, ie := ie, coefTap := tap, coefStage := stage }

section
variable (a : Args) (ie : Bool) (tap : BitVec 16) (stage : BitVec 5)

/-- A completion commutes with late writes when the state it completes does. -/
theorem finish_lateWrite (failed : State) (body : Except Err State) :
    finish (lateWrite a ie tap stage failed) (body.map (lateWrite a ie tap stage)) =
      lateWrite a ie tap stage (finish failed body) := by
  cases body <;> rfl

theorem createBody_lateWrite (s : State) :
    createBody (lateWrite a ie tap stage s) = (createBody s).map (lateWrite a ie tap stage) := by
  cases hc : createCascade s.params (createOperands s.larg) with
  | error e => rw [createBody_error hc, createBody_error (s := lateWrite a ie tap stage s) hc]; rfl
  | ok c => rw [createBody_ok hc, createBody_ok (s := lateWrite a ie tap stage s) hc]; rfl

theorem clearBody_lateWrite (s : State) :
    clearBody (lateWrite a ie tap stage s) = (clearBody s).map (lateWrite a ie tap stage) := by
  cases hc : s.cas.cfg with
  | false => rw [clearBody_unconfigured hc, clearBody_unconfigured (s := lateWrite a ie tap stage s) hc]; rfl
  | true => rw [clearBody_ok hc, clearBody_ok (s := lateWrite a ie tap stage s) hc]; rfl

theorem factorizeBody_lateWrite (s : State) :
    factorizeBody (lateWrite a ie tap stage s) = (factorizeBody s).map (lateWrite a ie tap stage) := by
  rcases Nat.eq_zero_or_pos (factorizeOperand s.larg) with h0 | h1
  · rw [factorizeBody_zero h0, factorizeBody_zero (s := lateWrite a ie tap stage s) h0]; rfl
  · rcases Nat.lt_or_ge ratioMax (factorizeOperand s.larg) with habove | hmax
    · rw [factorizeBody_above habove, factorizeBody_above (s := lateWrite a ie tap stage s) habove]; rfl
    · rw [factorizeBody_ok h1 hmax, factorizeBody_ok (s := lateWrite a ie tap stage s) h1 hmax]; rfl

theorem settleWindow_lateWrite (r : Range) (s : State) :
    settleWindow r (lateWrite a ie tap stage s) = lateWrite a ie tap stage (settleWindow r s) := by
  rcases hw : s.windows with _ | ⟨w, rest⟩
  · simp [settleWindow, lateWrite, hw]
  · cases hran : w.ran with
    | true => simp [settleWindow, lateWrite, hw, hran]
    | false =>
      cases hraced : w.raced with
      | true => simp [settleWindow, lateWrite, hw, hran, hraced, drawFilters, drawRange]
      | false => simp [settleWindow, lateWrite, hw, hran, hraced]

theorem processBody_lateWrite (s : State) :
    processBody (lateWrite a ie tap stage s) = (processBody s).map (lateWrite a ie tap stage) := by
  cases hc : processCheck s.params s.cas (processOperands s.larg) with
  | some e => rw [processBody_error hc, processBody_error (s := lateWrite a ie tap stage s) hc]; rfl
  | none =>
    rw [processBody_ok hc, processBody_ok (s := lateWrite a ie tap stage s) hc]
    exact congrArg Except.ok (settleWindow_lateWrite a ie tap stage _ (processWork (processOperands s.larg) s))

/-- The engine step reads none of the registers that the host may write while a command runs. -/
theorem engineStep_lateWrite {s t : State} (h : engineStep s = .next t) :
    engineStep (lateWrite a ie tap stage s) = .next (lateWrite a ie tap stage t) := by
  cases hd : decode s.lcmd with
  | error e =>
    rw [engineStep_of_decode_error hd] at h
    cases h
    exact engineStep_of_decode_error (s := lateWrite a ie tap stage s) hd
  | ok i =>
    rw [engineStep_of_decode_ok hd] at h
    rw [engineStep_of_decode_ok (s := lateWrite a ie tap stage s) hd]
    cases i with
    | create =>
      cases h
      rw [← finish_lateWrite, ← createBody_lateWrite]
      rfl
    | process =>
      cases h
      rw [← finish_lateWrite, ← processBody_lateWrite, ← settleWindow_lateWrite]
      rfl
    | clear =>
      cases h
      rw [← finish_lateWrite, ← clearBody_lateWrite]
      rfl
    | factorize =>
      cases h
      rw [← finish_lateWrite, ← factorizeBody_lateWrite]
      rfl

end

/-- Settles O34: the engine step ends in a next state, and the late writes carry over to it. -/
theorem lateWritesDoNotReachCommand : Obligations.LateWritesDoNotReachCommand := by
  intro s a ie tap stage
  obtain ⟨t, ht, -⟩ := engineStepCompletes s
  rw [ht]
  exact engineStep_lateWrite a ie tap stage ht

/-! ### CMD writes (44_host_bus.md R201, 60_exceptions.md R225) -/

theorem writeReg_cmd (v : Word) (s : State) : writeReg (some .cmd) v s = writeCmd v s := rfl

theorem writeCmd_cmd (v : Word) (s : State) : (writeCmd v s).cmd = v := by
  cases ho : s.ovr with
  | true => rw [writeCmd_stuck ho]
  | false =>
    cases hb : s.busy with
    | true => rw [writeCmd_busy ho hb, overrun_cmd]
    | false => rw [writeCmd_idle ho hb, startCommand_cmd]

/-- The start of a PROCESS opens a window, that of any other word none (70_reset_and_hazards.md R266). -/
theorem windowsAtStart_eq (v : Word) (s : State) :
    windowsAtStart v s =
      (if v = encode .process then [openWindow s.params s.args] else []) ++ missWindows s.windows := by
  unfold windowsAtStart
  split
  · rename_i hd
    rw [if_pos (eq_encode_of_decode_ok hd)]
    rfl
  · rename_i hd
    rw [if_neg (by rintro rfl; exact hd (decode_encode .process))]
    rfl

/-- Another value of ARG0 to ARG3 alone does not reach the engine step either. -/
theorem engineStep_withArgs {s t : State} (h : engineStep s = .next t) (a : Args) :
    engineStep { s with args := a } = .next { t with args := a } := by
  obtain ⟨-, -, hie, -, htap, hstage, -⟩ := engineStepFrame s t h
  have hkeep : lateWrite a s.ie s.coefTap s.coefStage t = { t with args := a } := by
    rw [← hie, ← htap, ← hstage]
    rfl
  rw [← hkeep]
  exact engineStep_lateWrite a s.ie s.coefTap s.coefStage h

/-- Settles O35: the three outcomes of a CMD write, and the engine step's independence of ARG0 to ARG3. -/
theorem commandWriteStartsOrOverruns : Obligations.CommandWriteStartsOrOverruns := by
  intro s v
  refine ⟨writeCmd_cmd v s, fun ho => writeCmd_stuck ho v, fun ho hb => ?_, fun ho hb => ?_,
    fun a u hu => engineStep_withArgs hu a⟩
  · simp [writeReg_cmd, writeCmd_busy ho hb, hb]
  · rw [writeReg_cmd, writeCmd_idle ho hb, startCommand, windowsAtStart_eq]
    rfl

/-- What an overrun draws for the internal state, from the one counter (60_exceptions.md R225 (d)). -/
theorem overrun_drawn (s : State) :
    ∃ d, (overrun s).cas = Config.freeCascade d ∧ (overrun s).fz = Config.freeFactors d ∧
      (overrun s).result = Config.freeWord d ∧ (overrun s).lcmd = Config.freeWord (d + 1) ∧
      (overrun s).larg = ⟨Config.freeWord (d + 2), Config.freeWord (d + 3), Config.freeWord (d + 4), Config.freeWord (d + 5)⟩ :=
  ⟨(drawRange (inFlightRange s) s).draws, rfl, rfl, rfl, rfl, rfl⟩

theorem overrun_mem (s : State) : (overrun s).mem = (drawRange (inFlightRange s) s).mem := rfl

/-- Settles O45: the overrun keeps the exact registers, draws the internal state, and frees the range in flight alone. -/
theorem overrunFreesState : Obligations.OverrunFreesState := by
  intro s v hm hb ho
  simp only [writeReg_cmd, writeCmd_busy ho hb]
  refine ⟨overrun_ovr _, (overrun_busy _).trans hb, overrun_done _, overrun_err _, overrun_errCode _, overrun_cmd _,
    overrun_ie _, overrun_args _, overrun_coefTap _, overrun_coefStage _, overrun_params _, overrun_drawn _,
    fun c hc => ?_, fun r hr => ⟨inFlightRange_inSpace s r hr, fun k hk => ?_⟩⟩
  · exact loadByte_drawRange_other (inFlightRange s) { s with cmd := v } hc
  · have hrange : inFlightRange { s with cmd := v } = some r := hr
    rw [overrun_mem, hrange]
    exact loadByte_drawRange (s := { s with cmd := v }) hm (inFlightRange_inSpace s r hr) hk

/-! ### STATUS, CTRL, ARG0 to ARG3 and COEF_SEL (44_host_bus.md R202 to R206) -/

/-- Bit 1 of a word cut at its two lowest bits is cleared by the mask of R202. -/
theorem append_clear_bit_one (hi : BitVec 62) (b c : BitVec 1) :
    hi ++ 0#1 ++ c = (hi ++ b ++ c) &&& 0xFFFFFFFFFFFFFFFD#64 := by
  have hmask : 0xFFFFFFFFFFFFFFFD#64 = BitVec.allOnes 62 ++ 0#1 ++ BitVec.allOnes 1 := by decide
  rw [hmask, BitVec.and_append, BitVec.and_append, BitVec.and_allOnes, BitVec.and_allOnes, BitVec.and_zero]

theorem statusWord_clear_done (s : State) :
    statusWord { s with done := false } = statusWord s &&& 0xFFFFFFFFFFFFFFFD#64 :=
  append_clear_bit_one _ (BitVec.ofBool s.done) (BitVec.ofBool s.busy)

/-- Settles O36: bit 1 decides whether DONE is cleared, in the state and in the word read. -/
theorem statusWriteClearsDoneOnly : Obligations.StatusWriteClearsDoneOnly := by
  intro s v
  refine ⟨rfl, ?_⟩
  simp only [writeReg]
  split
  · exact statusWord_clear_done s
  · rfl

/-- A mask of the `n` lowest bits is the remainder by `2^n`. -/
theorem toNat_and_mask (v : Word) {mask : Word} {n : Nat} (hmask : mask.toNat = 2 ^ n - 1) :
    (v &&& mask).toNat = v.toNat % 2 ^ n := by
  rw [BitVec.toNat_and, hmask, Nat.and_two_pow_sub_one_eq_mod]

theorem ctrlWord_write (v : Word) (s : State) : ctrlWord { s with ie := v.getLsbD 0 } = v &&& 1#64 := by
  apply BitVec.eq_of_toNat_eq
  rw [ctrlWord_toNat, toNat_and_mask v (n := 1) rfl]
  change (v.getLsbD 0).toNat = v.toNat % 2
  rw [bit_of_toNat, pow_zero, Nat.div_one]
  rcases Nat.mod_two_eq_zero_or_one v.toNat with h | h <;> rw [h] <;> rfl

theorem coefSelWord_write (v : Word) (s : State) :
    coefSelWord { s with coefTap := v.extractLsb' 0 16, coefStage := v.extractLsb' 16 5 } = v &&& 0x1FFFFF#64 := by
  apply BitVec.eq_of_toNat_eq
  rw [coefSelWord_toNat, toNat_and_mask v (n := 21) rfl]
  simp only [BitVec.extractLsb'_toNat, Nat.shiftRight_eq_div_pow]
  omega

theorem get_set (l : Args) (v : Word) (i j : Fin 4) : (l.set v i).get j = if i = j then v else l.get j := by
  fin_cases i <;> fin_cases j <;> rfl

/-- Settles O37: the writes are those of the definition, and each word reads back what the fields keep of it. -/
theorem controlOperandSelectorWrites : Obligations.ControlOperandSelectorWrites := fun s v =>
  ⟨rfl, ctrlWord_write v s, fun i j => get_set s.args v i j, fun _ => rfl, rfl, coefSelWord_write v s⟩

/-- A register that none of the writable offsets names ignores a write (R206). -/
theorem writeReg_readOnly {r : Reg} (h : r.offset ∉ [0x008, 0x010, 0x018, 0x020, 0x028, 0x030, 0x038, 0x070]) (v : Word)
    (s : State) : writeReg (some r) v s = s := by
  cases r with
  | cmd | status | ctrl | coefSel => exact absurd (by decide) h
  | arg i => exact absurd (by revert i; decide) h
  | _ => rfl

/-- Settles O38: a reserved offset names no register, and a named one is read-only unless it is listed. -/
theorem readOnlyWritesIgnored : Obligations.ReadOnlyWritesIgnored := by
  intro s v off hoff
  cases hr : regAt off with
  | none => rfl
  | some r => exact writeReg_readOnly (by rwa [offset_of_regAt hr]) v s

/-! ### Register reads (44_host_bus.md R207) -/

/-- An exact read: the register's value, and the windows that a read of DONE = 1 closes. -/
theorem readReg_exact {s : State} {r : Reg} (h : s.busy = false ∨ isResultReg r = false) :
    readReg (some r) s =
      if r = .status ∧ s.done = true then closeWindows (reply (regValue s r) s) else reply (regValue s r) s := by
  have hfree : (s.busy && isResultReg r) = false := by rcases h with h | h <;> simp [h]
  simp only [readReg, hfree, Bool.false_eq_true, if_false]

/-- A read of a result register while a command runs: a free value of the next draw. -/
theorem readReg_free {s : State} {r : Reg} (hb : s.busy = true) (hr : isResultReg r = true) :
    readReg (some r) s = { reply (Config.freeWord s.draws) s with draws := s.draws + 1 } := by
  have hfree : (s.busy && isResultReg r) = true := by rw [hb, hr]; rfl
  simp only [readReg, hfree, if_true]

theorem isResultReg_iff (r : Reg) :
    isResultReg r = true ↔
      r ∈ [Reg.result, Reg.ratio, Reg.nstages, Reg.scratch, Reg.achieved, Reg.coefData, Reg.fzN] ∨
      (∃ i, r = .factor i) ∨ ∃ i, r = .fz i := by
  cases r <;> simp [isResultReg]

/-- Settles O39: exact reads and free reads, by whether the command runs and the register is one of results. -/
theorem registerReadsHaveNoSideEffect : Obligations.RegisterReadsHaveNoSideEffect := by
  intro s r
  refine ⟨fun hexact hstatus => ?_, fun hd => ?_, fun hb hr => ?_, isResultReg_iff r, rfl⟩
  · rw [readReg_exact hexact, if_neg hstatus]
    rfl
  · rw [readReg_exact (.inr rfl), if_pos ⟨rfl, hd⟩]
    simp [closeWindows, reply]
  · exact readReg_free hb hr

/-! ### Accesses that are refused (44_host_bus.md R208) -/

/-- The accesses that reach the block: 64 bits wide, aligned, and within the 4096 bytes at `base`. -/
theorem wf_eq_true_iff (base : Nat) (a : BusAccess) :
    a.wf base = true ↔
      ¬ (a.width ≠ 8 ∨ a.addr < base ∨ (a.addr - base) % 8 ≠ 0 ∨ base + 4096 ≤ a.addr) := by
  simp only [BusAccess.wf, Bool.and_eq_true, beq_iff_eq, decide_eq_true_eq]
  omega

theorem busOffset_none {base : Nat} {a : BusAccess} (h : a.wf base = false) : busOffset base a = none := by
  rw [busOffset, if_neg (by rw [h]; decide)]

theorem hostAct_regRead_of_wf {s : State} {a : BusAccess} (h : a.wf s.params.regBase = true) :
    hostAct (.regRead a) s = .next (readReg (regAt (a.addr - s.params.regBase)) s) := by
  simp only [hostAct, busOffset_some h]

theorem hostAct_regWrite_of_wf {s : State} {a : BusAccess} (h : a.wf s.params.regBase = true) (v : Word) :
    hostAct (.regWrite a v) s = .next (writeReg (regAt (a.addr - s.params.regBase)) v s) := by
  simp only [hostAct, busOffset_some h]

/-- Settles O43: the access has a register offset exactly when it is well formed. -/
theorem unsupportedAccessRefused : Obligations.UnsupportedAccessRefused := by
  intro s a v rest outside
  have hwf : a.wf s.params.regBase = true ↔ ¬ outside := wf_eq_true_iff _ _
  have hnone (h : outside) : busOffset s.params.regBase a = none :=
    busOffset_none (Bool.eq_false_iff.2 fun hw => hwf.1 hw h)
  refine ⟨fun hh => ⟨fun hout => ?_, fun hin => ?_⟩, fun hh => ⟨fun hout => ?_, fun hin => ?_⟩⟩
  · rw [step_of_hostOp hh (by simp)]
    simp only [hostAct, hnone hout]
  · rw [step_of_hostOp hh (by simp), hostAct_regRead_of_wf (s := { s with host := rest }) (hwf.2 hin)]
  · rw [step_of_hostOp hh (by simp)]
    simp only [hostAct, hnone hout]
  · rw [step_of_hostOp hh (by simp), hostAct_regWrite_of_wf (s := { s with host := rest }) (hwf.2 hin)]

/-! ### A started command completes (44_host_bus.md R209, 70_reset_and_hazards.md R272) -/

/-- An operation of the host that can be carried out and neither starts a command nor resets the block: a register access other
than a CMD write, or an access to mapped sample memory. -/
def besideCommand (p : Params) (op : HostOp) : Prop :=
  (∃ a, op = .regRead a ∧ a.wf p.regBase = true) ∨
  (∃ a v, op = .regWrite a v ∧ a.wf p.regBase = true ∧ a.addr ≠ p.regBase + 0x008) ∨
  (∃ a n, op = .memRead a n ∧ hostReaches p a.toNat n = true) ∨
  (∃ a bytes, op = .memWrite a bytes ∧ hostReaches p a.toNat bytes.length = true)

theorem besideCommand_ne_engine {p : Params} {op : HostOp} (h : besideCommand p op) : op ≠ .engine := by
  rcases h with ⟨a, rfl, -⟩ | ⟨a, v, rfl, -⟩ | ⟨a, n, rfl, -⟩ | ⟨a, bytes, rfl, -⟩ <;> simp

/-- Such an operation leaves the running command running, and what the host will do after it. -/
theorem hostAct_besideCommand {s : State} {op : HostOp} (h : besideCommand s.params op) :
    ∃ t, hostAct op s = .next t ∧ t.busy = s.busy ∧ t.ovr = s.ovr ∧ t.host = s.host := by
  rcases h with ⟨a, rfl, hwf⟩ | ⟨a, v, rfl, hwf, haddr⟩ | ⟨a, n, rfl, hreach⟩ | ⟨a, bytes, rfl, hreach⟩
  · refine ⟨_, hostAct_regRead_of_wf hwf, ?_⟩
    obtain ⟨v, ws, d, e, -⟩ := readReg_frame (regAt (a.addr - s.params.regBase)) s
    rw [e]
    exact ⟨rfl, rfl, rfl⟩
  · refine ⟨_, hostAct_regWrite_of_wf hwf v, ?_⟩
    have hcmd : regAt (a.addr - s.params.regBase) ≠ some .cmd := by
      have := (wf_eq_true_iff _ _).1 hwf
      rw [ne_eq, regAt_eq_cmd]
      omega
    obtain ⟨dn, ie, l, tap, stage, e, -⟩ := writeReg_frame hcmd v s
    rw [e]
    exact ⟨rfl, rfl, rfl⟩
  · exact ⟨hostLoad a.toNat n s, by simp only [hostAct, hreach, if_true], rfl, rfl, rfl⟩
  · refine ⟨hostStore a.toNat bytes s, by simp only [hostAct, hreach, if_true], ?_⟩
    obtain ⟨m, sts, d, e, -⟩ := hostStore_frame a.toNat bytes s
    rw [e]
    exact ⟨rfl, rfl, rfl⟩

/-- A poll of a running command gives the engine the next turn (70_reset_and_hazards.md R272; log 14). -/
theorem pollStatus_running {s : State} (hb : s.busy = true) (ho : s.ovr = false) :
    (pollStatus s).host = .engine :: .wait :: s.host ∧ (pollStatus s).busy = true ∧ (pollStatus s).ovr = false := by
  obtain ⟨v, ws, d, e, -⟩ := readReg_frame (some .status) s
  simp [pollStatus, e, hb, ho]

/-- The command in flight completes within `n` steps. -/
def CompletesWithin (n : Nat) (s : State) : Prop :=
  ∃ k t, k ≤ n ∧ Sys2Proof.core.run k s = .next t ∧ t.busy = false ∧ t.done = true ∧ t.ovr = false

theorem CompletesWithin.of_step {n : Nat} {s t : State} (h : step s = .next t) (ht : CompletesWithin n t) :
    CompletesWithin (n + 1) s := by
  obtain ⟨k, u, hk, hrun, hu⟩ := ht
  exact ⟨k + 1, u, by omega, by rw [run_next h, hrun], hu⟩

theorem CompletesWithin.mono {m n : Nat} {s : State} (hmn : m ≤ n) (h : CompletesWithin m s) : CompletesWithin n s := by
  obtain ⟨k, u, hk, hu⟩ := h
  exact ⟨k, u, hk.trans hmn, hu⟩

/-- Where the next step is the engine's, the command completes in it (R210). -/
theorem completesWithin_of_engineStep {s u : State} (h : step s = engineStep u) (ho : u.ovr = false) : CompletesWithin 1 s := by
  obtain ⟨t, ht, hbusy, hdone, hovr, -⟩ := engineStepCompletes u
  exact .of_step (h.trans ht) ⟨0, t, le_rfl, rfl, hbusy, hdone, hovr.trans ho⟩

/-- Settles O57, by induction on the host's list: an operation beside the command is one step, the engine's turn is the last, and
a poll puts it next. -/
theorem startedCommandCompletes : Obligations.StartedCommandCompletes := by
  intro s hb ho hops
  change CompletesWithin (s.host.length + 2) s
  have he := engineEnabled_of_running hb ho
  generalize hl : s.host = ops at hops
  induction ops generalizing s with
  | nil => exact (completesWithin_of_engineStep (step_of_no_host hl he) ho).mono (by omega)
  | cons op rest ih =>
    rcases hops op (by simp) with rfl | rfl | hop
    · exact (completesWithin_of_engineStep (step_of_engineTurn hl he) ho).mono (by omega)
    · obtain ⟨hhost, hbusy, hovr⟩ := pollStatus_running (s := { s with host := rest }) hb ho
      have hturn := step_of_engineTurn hhost (engineEnabled_of_running hbusy hovr)
      exact .mono (by omega) (.of_step (step_of_hostOp hl (by simp)) (completesWithin_of_engineStep hturn hovr))
    · obtain ⟨t, ht, hbusy, hovr, hhost⟩ := hostAct_besideCommand (s := { s with host := rest }) hop
      have hstep := (step_of_hostOp hl (besideCommand_ne_engine hop)).trans ht
      have hparams : t.params = s.params := step_params hstep
      have hb' : t.busy = true := hbusy.trans hb
      have ho' : t.ovr = false := hovr.trans ho
      have ht' := ih t hb' ho' (engineEnabled_of_running hb' ho') hhost
      exact .of_step hstep (ht' fun x hx => by rw [hparams]; exact hops x (by simp [hx]))

end Sys2Proof.Machine
end

section
/-!
PROOFS. Errors and overruns (60_exceptions.md): an overrun block over a whole run (R225), what an error changes (R223), and the
order in which CREATE meets its errors (R227).
-/

namespace Sys2Proof.Machine

/-! ### An overrun block stays stuck (60_exceptions.md R225, 70_reset_and_hazards.md R274) -/

/-- The block is overrun with its command still running, DONE is clear, and no reset is to come. -/
structure State.Stuck (s : State) : Prop where
  ovr     : s.ovr = true
  busy    : s.busy = true
  done    : s.done = false
  noReset : HostOp.reset ∉ s.host

/-- What is stuck shows in STATUS and in the host's list alone. -/
theorem State.Stuck.congr {s t : State} (h : s.Stuck) (ho : t.ovr = s.ovr) (hb : t.busy = s.busy) (hd : t.done = s.done)
    (hh : t.host = s.host) : t.Stuck :=
  ⟨ho.trans h.ovr, hb.trans h.busy, hd.trans h.done, by rw [hh]; exact h.noReset⟩

/-- A CMD write of a stuck block is a write of CMD, and no other register write sets DONE or touches the rest. -/
theorem State.Stuck.writeReg {s : State} (h : s.Stuck) (r : Option Reg) (v : Word) : (writeReg r v s).Stuck := by
  by_cases hr : r = some .cmd
  · subst hr
    rw [writeReg_cmd, writeCmd_stuck h.ovr]
    exact h.congr rfl rfl rfl rfl
  · obtain ⟨dn, ie, l, tap, stage, e, hdn⟩ := writeReg_frame hr v s
    rw [e]
    exact h.congr rfl rfl ((hdn h.done).trans h.done.symm) rfl

/-- A poll of a stuck block returns at once (30_encoding.md R89). -/
theorem State.Stuck.pollStatus {s : State} (h : s.Stuck) : (pollStatus s).Stuck := by
  obtain ⟨v, ws, ops, e, -, rfl | ⟨-, ho⟩⟩ := pollStatus_frame s
  · rw [e]
    exact h.congr rfl rfl rfl rfl
  · rw [h.ovr] at ho
    cases ho

/-- Of the host's operations only a reset ends an overrun. -/
theorem State.Stuck.hostAct {s t : State} (h : s.Stuck) {op : HostOp} (hop : op ≠ .reset) (ht : hostAct op s = .next t) :
    t.Stuck := by
  cases op with
  | regRead a =>
    simp only [Machine.hostAct] at ht
    split at ht
    · cases ht
      obtain ⟨v, ws, d, e, -⟩ := readReg_frame (regAt _) s
      rw [e]
      exact h.congr rfl rfl rfl rfl
    · cases ht
  | regWrite a v =>
    simp only [Machine.hostAct] at ht
    split at ht
    · cases ht; exact h.writeReg _ v
    · cases ht
  | wait => cases ht; exact h.pollStatus
  | memRead a n =>
    simp only [Machine.hostAct] at ht
    split at ht
    · cases ht; exact h.congr rfl rfl rfl rfl
    · cases ht
  | memWrite a bytes =>
    simp only [Machine.hostAct] at ht
    split at ht
    · cases ht
      obtain ⟨m, sts, d, e, -⟩ := hostStore_frame a.toNat bytes s
      rw [e]
      exact h.congr rfl rfl rfl rfl
    · cases ht
  | engine => cases ht; exact h
  | reset => exact absurd rfl hop

/-- Every step of a stuck block is an operation of the host: the engine has none, and the block is not at rest. -/
theorem State.Stuck.step {s t : State} (h : s.Stuck) (ht : step s = .next t) : t.Stuck := by
  rcases step_cases ht with ⟨-, ho, -⟩ | ⟨op, rest, hh, ha, -⟩ | ⟨-, hb, -⟩
  · rw [h.ovr] at ho
    cases ho
  · obtain ⟨hop, hrest⟩ : op ≠ .reset ∧ HostOp.reset ∉ rest := by
      have hno := h.noReset
      rw [hh, List.mem_cons, not_or] at hno
      exact ⟨Ne.symm hno.1, hno.2⟩
    exact State.Stuck.hostAct (s := { s with host := rest }) ⟨h.ovr, h.busy, h.done, hrest⟩ hop ha
  · rw [h.busy] at hb
    cases hb

/-- A run that goes on has taken its first step. -/
theorem run_succ_next {k : Nat} {s t : State} (h : Sys2Proof.core.run (k + 1) s = .next t) :
    ∃ u, step s = .next u ∧ Sys2Proof.core.run k u = .next t := by
  simp only [Host.Core.run] at h
  split at h
  · exact ⟨_, ‹_›, h⟩
  · cases h
  · cases h

/-- What every step keeps, every run keeps. -/
theorem run_keeps {P : State → Prop} (hstep : ∀ s t, P s → step s = .next t → P t) {k : Nat} {s t : State} (h : P s)
    (hrun : Sys2Proof.core.run k s = .next t) : P t := by
  induction k generalizing s with
  | zero => cases hrun; exact h
  | succ k ih =>
    obtain ⟨u, hu, hrest⟩ := run_succ_next hrun
    exact ih (hstep s u h hu) hrest

/-- Settles O46: being stuck is kept by every step of the run, and shows all that the statement asks of its last state. -/
theorem overrunStuckUntilReset : Obligations.OverrunStuckUntilReset := by
  intro k s t ho hb hd hno hrun
  have ht : t.Stuck := run_keeps (fun _ _ h => h.step) ⟨ho, hb, hd, hno⟩ hrun
  exact ⟨ht.ovr, ht.busy, ht.done, irq_of_not_done ht.done, by simp [engineEnabled, ht.ovr], writeCmd_stuck ht.ovr⟩

/-! ### What an error changes (60_exceptions.md R223) -/

/-- The state that an error of the latched command reports on: a CREATE has lost its configuration, and a PROCESS has settled
its window. -/
def failedState (ws : List Window) (s : State) : State :=
  { s with windows := ws, cas := if decode s.lcmd = .ok .create then Cascade.unconfigured else s.cas }

theorem failedState_of_create {s : State} (h : decode s.lcmd = .ok .create) :
    failedState s.windows s = { s with cas := Cascade.unconfigured } := by
  rw [failedState, if_pos h]

theorem failedState_of_other {s : State} (h : decode s.lcmd ≠ .ok .create) (ws : List Window) :
    failedState ws s = { s with windows := ws } := by
  rw [failedState, if_neg h]

/-- Without a race every engine step, if it ends with an error, ends with it on the failed state. -/
theorem engineStep_eq_finish_failedState {s : State} (h : s.unraced) :
    ∃ ws body, engineStep s = .next (finish (failedState ws s) body) := by
  cases hd : decode s.lcmd with
  | error e =>
    refine ⟨s.windows, .error .illegalCommand, ?_⟩
    rw [engineStep_of_decode_error hd, failedState_of_other (by rw [hd]; nofun)]
    rfl
  | ok i =>
    rw [engineStep_of_decode_ok hd]
    cases i with
    | create => exact ⟨s.windows, createBody s, by rw [failedState_of_create hd]; rfl⟩
    | process =>
      obtain ⟨ws, hw⟩ := settleWindow_unraced h (racedRange s)
      exact ⟨ws, processBody s, by rw [failedState_of_other (by rw [hd]; nofun), ← hw]; rfl⟩
    | clear => exact ⟨s.windows, clearBody s, by rw [failedState_of_other (by rw [hd]; nofun)]; rfl⟩
    | factorize => exact ⟨s.windows, factorizeBody s, by rw [failedState_of_other (by rw [hd]; nofun)]; rfl⟩

theorem finish_eq_raiseError {failed : State} {body : Except Err State} (h : (finish failed body).err = true) :
    ∃ e, finish failed body = raiseError e failed := by
  cases body with
  | error e => exact ⟨e, rfl⟩
  | ok t => cases h

theorem errCodeOf_ne_zero (e : Err) : errCodeOf e ≠ 0#8 := by cases e <;> decide

/-- Settles O31: the step reports its error on the failed state, and an unconfigured block reads 0. -/
theorem errorEffects : Obligations.ErrorEffects := by
  intro s t hs ht herr
  obtain ⟨ws, body, hstep⟩ := engineStep_eq_finish_failedState hs
  obtain rfl := Host.Outcome.next.inj (hstep.symm.trans ht)
  obtain ⟨e, he⟩ := finish_eq_raiseError herr
  rw [he]
  refine ⟨⟨e, ws, rfl⟩, errCodeOf_ne_zero e, fun hd => ?_⟩
  have hcfg : (raiseError e (failedState ws s)).cas.cfg = false := by
    rw [raiseError_cas, failedState, if_pos hd]
    rfl
  obtain ⟨-, -, hzero, -⟩ := configurationRegisters (raiseError e (failedState ws s))
  exact hzero hcfg

/-! ### The order of CREATE's errors (60_exceptions.md R227, 43_cascade.md R161) -/

/-- With rates that pass, the four ways in which CREATE ends, in the order of its checks. -/
theorem createCascade_outcomes {p : Params} {o : CreateOperands} (hv : ratesValid o = true) :
    (ratioOf p.ratioTies o.inRate o.outRate = none ∧ createCascade p o = .error .ratioOutOfRange) ∨
    ∃ r, ratioOf p.ratioTies o.inRate o.outRate = some r ∧
      ((¬ max o.maxLen (p.minScratch : Int) ≤ (p.scratchCap : Int) ∧ createCascade p o = .error .scratchTooLarge) ∨
       max o.maxLen (p.minScratch : Int) ≤ (p.scratchCap : Int) ∧
        (((∃ f ∈ factorize r, design Config.sin Config.cos p.sampleFmt f (taps p) = none) ∧
          createCascade p o = .error .designFault) ∨
         ((∀ f ∈ factorize r, design Config.sin Config.cos p.sampleFmt f (taps p) ≠ none) ∧
          ∃ c, createCascade p o = .ok c))) := by
  cases hr : ratioOf p.ratioTies o.inRate o.outRate with
  | none => exact .inl ⟨rfl, createCascade_badRatio hv hr⟩
  | some r =>
    refine .inr ⟨r, rfl, ?_⟩
    rw [← scratchSize_le_iff]
    by_cases hfits : scratchSize p o.maxLen ≤ p.scratchCap
    · refine .inr ⟨hfits, ?_⟩
      cases hd : designStages Config.sin Config.cos p.sampleFmt (taps p) (factorize r) with
      | none => exact .inl ⟨designStages_none.1 hd, createCascade_badDesign hv hr hfits hd⟩
      | some stages =>
        refine .inr ⟨fun f hf hfail => ?_, _, createCascade_commits hv hr hfits hd⟩
        cases hd.symm.trans (designStages_none.2 ⟨f, hf, hfail⟩)
    · exact .inl ⟨hfits, createCascade_bigScratch hv hr (Nat.lt_of_not_le hfits)⟩

/-- Settles O13: each of the four ways in which CREATE ends has its own code and excludes the conditions of the others. -/
theorem createReportsFirstError : Obligations.CreateReportsFirstError := by
  intro s hin hin' hout hout' ratio fits designed
  have hv : ratesValid (createOperands s.larg) = true := (ratesValid_iff _).2 ⟨⟨hin, hin'⟩, hout, hout'⟩
  obtain ⟨hr, hc⟩ | ⟨r, hr, ⟨hbig, hc⟩ | ⟨hfits, ⟨⟨f, hf, hfail⟩, hc⟩ | ⟨hok, c, hc⟩⟩⟩ :=
    createCascade_outcomes (p := s.params) hv
  · have hratio : ratio = none := hr
    refine ⟨_, exec_create_of_error hc, rfl, rfl, iff_of_true rfl hr, ?_, ?_, ?_, ?_, fun _ => rfl⟩ <;>
      simp [errCodeOf, hratio]
  · have hratio : ratio = some r := hr
    have hnot : ¬ fits := hbig
    refine ⟨_, exec_create_of_error hc, rfl, rfl, ?_, ?_, ?_, ?_, ?_, fun _ => rfl⟩ <;> simp [errCodeOf, hratio, hnot]
  · have hratio : ratio = some r := hr
    have hscratch : fits := hfits
    have hnot : ¬ ∀ f ∈ factorize r, designed f := fun hall => hall f hf hfail
    refine ⟨_, exec_create_of_error hc, rfl, rfl, ?_, ?_, iff_of_true rfl ⟨r, hr, hfits, f, hf, not_not.2 hfail⟩, ?_, ?_,
      fun _ => rfl⟩ <;> simp [errCodeOf, hratio, hscratch, hnot]
  · have hratio : ratio = some r := hr
    have hscratch : fits := hfits
    have hnot : ¬ ∃ f ∈ factorize r, ¬ designed f := fun ⟨f, hf, hfail⟩ => hfail (hok f hf)
    refine ⟨_, exec_create_of_ok hc, rfl, rfl, ?_, ?_, ?_, iff_of_true rfl ⟨r, hr, hfits, hok⟩, ?_, nofun⟩ <;>
      simp [hratio, hscratch, hnot]

end Sys2Proof.Machine
end

section
/-!
PROOFS. Reset and hazards (70_reset_and_hazards.md): what a reset leaves and that it meets the invariant (R260, R262, R275), and
a stream that is split between two runs of the chain (R270).
-/

namespace Sys2Proof.Machine

/-! ### The reset event (70_reset_and_hazards.md R260, R262, R275) -/

/-- Settles O52: the reset state of every set of parameters meets the invariant. -/
theorem resetMeetsInvariant : Obligations.ResetMeetsInvariant := ⟨Inv_resetOf Config.params, Inv_resetOf⟩

/-- In the reset state ID and TAPS read their constants and every other register 0 (70_reset_and_hazards.md R260). -/
theorem regValue_resetOf (p : Params) (r : Reg) : regValue (State.resetOf p) r =
    if r = .id then 0x4644430000000001#64 else if r = .taps then BitVec.ofNat 64 (taps p) else 0#64 := by
  obtain ⟨-, -, hunconfigured, -⟩ := configurationRegisters (State.resetOf p)
  obtain ⟨hzero, hfactor⟩ := hunconfigured rfl
  cases r with
  | status => simp [regValue, statusWord, State.resetOf, Cascade.unconfigured]
  | ctrl => simp [regValue, ctrlWord, State.resetOf]
  | coefSel => simp [regValue, coefSelWord, State.resetOf]
  | arg i => fin_cases i <;> rfl
  | ratio => exact hzero _ (by simp)
  | nstages => exact hzero _ (by simp)
  | scratch => exact hzero _ (by simp)
  | achieved => exact hzero _ (by simp)
  | coefData => exact hzero _ (by simp)
  | factor i => exact hfactor i
  | _ => rfl

/-- The registers read after the reset event as they do in the reset state: what the event keeps, no register shows. -/
theorem regValue_resetEvent (s : State) (r : Reg) : regValue (resetEvent s) r = regValue (State.resetOf s.params) r := by
  cases r <;> rfl

/-- A reset changes sample memory in the range that it abandons alone (70_reset_and_hazards.md R262). -/
theorem loadByte_resetEvent_other (s : State) {a : Nat} (h : ∀ x ∈ abandonedRange s, a < x.base ∨ x.base + x.len ≤ a) :
    loadByte (resetEvent s).mem a = loadByte s.mem a := loadByte_drawRange_other _ s h

/-- Settles O50: the step is the reset event, whose fields are those of the reset state. -/
theorem resetLeaves : Obligations.ResetLeaves := by
  refine ⟨fun s rest h => ⟨resetEvent { s with host := rest }, step_of_hostOp h (by simp), rfl, rfl, rfl, rfl, rfl, rfl, rfl,
    rfl, rfl, rfl, rfl, rfl, rfl, rfl, fun r => ?_, fun hidle => resetEvent_mem_of_idle hidle,
    fun _ ha => loadByte_resetEvent_other _ ha⟩, regValue_resetOf⟩
  exact (regValue_resetEvent _ r).trans (regValue_resetOf s.params r)

/-! ### A stream in two parts (70_reset_and_hazards.md R270; 43_cascade.md R170, R176, R179) -/

/-- Where the first part's length is a multiple of the factor, the second part starts again at keep index 0 (43 R170). -/
theorem runStage_append_of_dvd (F : Fmt) (T dr : Nat) {st : Stage} {xs : List Sample} (ys : List Sample)
    (h : st.factor ∣ xs.length) :
    runStage F T dr 0 st (xs ++ ys) =
      ((runStage F T dr 0 st xs).1 ++ (runStage F T (dr + 2 * xs.length) 0 (runStage F T dr 0 st xs).2 ys).1,
       (runStage F T (dr + 2 * xs.length) 0 (runStage F T dr 0 st xs).2 ys).2) := by
  have hphase : (0 + xs.length) % (xs.foldl (storeSample T) st).factor = 0 % (xs.foldl (storeSample T) st).factor := by
    rw [storeAll_factor, Nat.zero_add, Nat.mod_eq_zero_of_dvd h, Nat.zero_mod]
  rw [runStage_append, runStage_phase F T _ _ hphase, runStage_stage, runStage_stage]

/-- A pass from index 0 keeps one sample for each factor's worth of inputs, the last one begun (43 R168, R169). -/
theorem length_runStage_zero (F : Fmt) (T dr : Nat) {st : Stage} (hf : 0 < st.factor) (xs : List Sample) :
    (runStage F T dr 0 st xs).1.length = ceilDiv xs.length st.factor := by
  simpa [ceilDiv_zero] using runStage_length F T dr 0 st hf xs

/-- `runStage_same` on the pass's two results. -/
theorem runStage_results_same {F : Fmt} {T : Nat} (dr dr' : Nat) {a b : Stage} {xs ys : List Sample} (h : sameStage F a b)
    (hx : List.Forall₂ (sameSample F) xs ys) :
    List.Forall₂ (sameSample F) (runStage F T dr 0 a xs).1 (runStage F T dr' 0 b ys).1 ∧
    sameStage F (runStage F T dr 0 a xs).2 (runStage F T dr' 0 b ys).2 := by
  rw [runStage_stage, runStage_stage]
  exact runStage_same h hx

theorem ceilDiv_mul (k : Nat) {f : Nat} (hf : 0 < f) : ceilDiv (f * k) f = k := by
  rw [ceilDiv, Nat.add_sub_assoc hf, Nat.mul_add_div hf, Nat.div_eq_of_lt (by omega), Nat.add_zero]

/-- A stage that is not cut at the scratch size hands on all that it keeps (43 R171). -/
theorem runStages_cons_of_le {F : Fmt} {T S dr : Nat} {st : Stage} (rest : List Stage) {seq : List Sample}
    (h : (runStage F T dr 0 st seq).1.length ≤ S) :
    runStages F T S dr (st :: rest) seq =
      ((runStages F T S (dr + 2 * seq.length) rest (runStage F T dr 0 st seq).1).1,
       (runStage F T dr 0 st seq).2 :: (runStages F T S (dr + 2 * seq.length) rest (runStage F T dr 0 st seq).1).2.1,
       (runStages F T S (dr + 2 * seq.length) rest (runStage F T dr 0 st seq).1).2.2) := by
  rw [runStages_cons, List.take_of_length_le h]

/-- The chain over `us ++ vs` and the chain over `xs` and then over `ys`, the parts alike in pairs up to NaN bits. Every stage
splits at a multiple of its factor, and what it keeps of the first part is a multiple of the later factors long. -/
theorem runStages_split_same {F : Fmt} {T S : Nat} (dr dr' dr'' : Nat) {stages : List Stage} {us vs xs ys : List Sample}
    (hpos : ∀ st ∈ stages, 0 < st.factor) (hdvd : (stages.map Stage.factor).prod ∣ us.length)
    (hfits : ∀ f ∈ (stages.map Stage.factor).head?, ceilDiv (us.length + vs.length) f ≤ S)
    (hu : List.Forall₂ (sameSample F) us xs) (hv : List.Forall₂ (sameSample F) vs ys) :
    let whole := runStages F T S dr stages (us ++ vs)
    let first := runStages F T S dr' stages xs
    let second := runStages F T S dr'' first.2.1 ys
    List.Forall₂ (sameSample F) whole.1 (first.1 ++ second.1) ∧ List.Forall₂ (sameStage F) whole.2.1 second.2.1 := by
  induction stages generalizing dr dr' dr'' us vs xs ys with
  | nil => exact ⟨List.rel_append hu hv, .nil⟩
  | cons st rest ih =>
    obtain ⟨hf, hrest⟩ := List.forall_mem_cons.1 hpos
    obtain ⟨k, hk⟩ : st.factor * (rest.map Stage.factor).prod ∣ us.length := hdvd
    rw [Nat.mul_assoc] at hk
    have hsplit := runStage_append_of_dvd F T dr vs ⟨_, hk⟩
    obtain ⟨hkeptU, hstageU⟩ := runStage_results_same (T := T) dr dr' (sameStage_refl st) hu
    obtain ⟨hkeptV, hstageV⟩ := runStage_results_same (T := T) (dr + 2 * us.length) dr'' hstageU hv
    have hcut : (runStage F T dr 0 st (us ++ vs)).1.length ≤ S := by
      rw [length_runStage_zero F T dr hf, List.length_append]
      exact hfits st.factor rfl
    have hsum := hcut
    rw [hsplit, List.length_append] at hsum
    have hdvd' : (rest.map Stage.factor).prod ∣ (runStage F T dr 0 st us).1.length := by
      rw [length_runStage_zero F T dr hf, hk, ceilDiv_mul _ hf]
      exact Nat.dvd_mul_right _ _
    have hfits' : ∀ g ∈ (rest.map Stage.factor).head?, ceilDiv ((runStage F T dr 0 st us).1.length +
        (runStage F T (dr + 2 * us.length) 0 (runStage F T dr 0 st us).2 vs).1.length) g ≤ S := fun g hg =>
      (ceilDiv_le _ (List.forall_mem_map.2 hrest g (List.mem_of_mem_head? hg))).trans hsum
    rw [runStages_cons_of_le rest hcut, runStages_cons_of_le rest (hkeptU.length_eq ▸ (Nat.le_add_right _ _).trans hsum)]
    dsimp only
    rw [runStages_cons_of_le _ (hkeptV.length_eq ▸ (Nat.le_add_left _ _).trans hsum), hsplit]
    obtain ⟨hout, hstages⟩ := ih _ (dr' + 2 * xs.length) (dr'' + 2 * ys.length) hrest hdvd' hfits' hkeptU hkeptV
    exact ⟨hout, .cons hstageV hstages⟩

/-- Settles O29: the two parts of the input are alike to themselves. -/
theorem streamContinuity : Obligations.StreamContinuity := by
  intro F T S dr dr' dr'' stages xs ys hpos hdvd hfits
  have hself (zs : List Sample) : List.Forall₂ (sameSample F) zs zs := List.forall₂_same.2 fun z _ => sameSample_refl z
  exact runStages_split_same dr dr' dr'' hpos hdvd hfits (hself xs) (hself ys)

end Sys2Proof.Machine
end

section
/-!
PROOFS. Races and abandoned commands (70_reset_and_hazards.md): what a write into the buffers of a PROCESS makes free, before its
step and after it (R266), and what a reset in the middle of a PROCESS makes free (R262).
-/

namespace Sys2Proof.Machine

/-! ### A reset in the middle of a PROCESS (70_reset_and_hazards.md R262) -/

/-- Every byte of the range that a reset abandons takes a free value. -/
theorem loadByte_resetEvent_abandoned {s : State} (h : s.Inv) {r : Range} (hr : r ∈ abandonedRange s) {k : Nat} (hk : k < r.len) :
    loadByte (resetEvent s).mem (r.base + k) = Config.freeByte (s.draws + k) := by
  have hmem : (resetEvent s).mem = (drawRange (some r) s).mem := by rw [← Option.mem_def.1 hr]; rfl
  rw [hmem]
  exact loadByte_drawRange h.mem (abandonedRange_inSpace h r hr) hk

/-- Settles O51: the open range of the statement is the one that the reset abandons. -/
theorem resetAbandonsProcess : Obligations.ResetAbandonsProcess := fun s hinv =>
  ⟨fun _ ha => loadByte_resetEvent_other s ha, fun _ hr _ hk => loadByte_resetEvent_abandoned hinv hr hk⟩

/-! ### A race before the step of its PROCESS (70_reset_and_hazards.md R266 (b), (c)) -/

/-- A window that a write meets is marked raced, whether or not its command has run. -/
theorem raced_mem_hostStore {s : State} {a : Nat} {bytes : List Byte} {w : Window} (hw : w ∈ s.windows)
    (hmeets : w.meets a bytes.length = true) : { w with raced := true } ∈ (hostStore a bytes s).windows := by
  obtain ⟨m, sts, d, hstore, -⟩ := hostStore_frame a bytes s
  rw [hstore]
  exact List.mem_map.2 ⟨w, hw, if_pos hmeets⟩

/-- What a PROCESS has done when its window is settled: its work, where its checks pass, and nothing otherwise. -/
def afterChecks (s : State) : State :=
  if processCheck s.params s.cas (processOperands s.larg) = none then processWork (processOperands s.larg) s else s

/-- A PROCESS, checks passed or not, settles its window with the range that a race frees, and completes. -/
theorem exec_process_eq_settleWindow (s : State) :
    let check := processCheck s.params s.cas (processOperands s.larg)
    exec .process s = .next (endCommand check.isSome (check.elim 0#8 errCodeOf)
      (if check = none then BitVec.ofNat 64 (producedLen s.cas s.larg.a1.toNat s.larg.a3.toNat) else 0#64)
      (settleWindow (racedRange s) (afterChecks s))) := by
  dsimp only
  cases hc : processCheck s.params s.cas (processOperands s.larg) with
  | some e =>
    have hafter : afterChecks s = s := if_neg (by simp [hc])
    rw [exec, execProcess, processBody_error hc, hafter]
    rfl
  | none =>
    have hafter : afterChecks s = processWork (processOperands s.larg) s := if_pos hc
    rw [exec, execProcess, processBody_ok hc, hafter, finish, completeOk_eq_endCommand, settleWindow_result]
    rfl

@[simp] theorem afterChecks_params (s : State) : (afterChecks s).params = s.params := by
  unfold afterChecks; split <;> rfl

@[simp] theorem afterChecks_windows (s : State) : (afterChecks s).windows = s.windows := by
  unfold afterChecks; split <;> rfl

theorem fixedPart_processWork (o : ProcessOperands) (s : State) : fixedPart (processWork o s).cas = fixedPart s.cas := by
  unfold fixedPart processWork
  dsimp only
  rw [runStages_factors]

theorem fixedPart_afterChecks (s : State) : fixedPart (afterChecks s).cas = fixedPart s.cas := by
  unfold afterChecks
  split
  · exact fixedPart_processWork _ s
  · rfl

theorem wf_afterChecks {s : State} (h : s.mem.wf = true) : (afterChecks s).mem.wf = true := by
  unfold afterChecks
  split
  · next hc => exact wf_processWork h hc
  · exact h

/-- The work of a PROCESS stays in the range that a race on it frees. -/
theorem loadByte_afterChecks_other (s : State) {a : Nat} (h : a < (racedRange s).base ∨ (racedRange s).base + (racedRange s).len ≤ a) :
    loadByte (afterChecks s).mem a = loadByte s.mem a := by
  unfold afterChecks
  split
  · next hc =>
    rw [racedRange_of_passes hc] at h
    exact loadByte_processWork_other _ s h
  · rfl

section Settled
variable {s : State} {w : Window} {ws : List Window} (hw : s.windows = w :: ws) (hran : w.ran = false) (r : Range)
include hw hran

/-- The end of a PROCESS records in its window that it has run and its output bytes, and a race on it frees these and all filter
state. -/
theorem settleWindow_of_pending : settleWindow r s =
    let t := { s with windows := { w with ran := true, exposed := some r } :: ws }
    if w.raced = true then drawFilters (drawRange (some r) t) else t := by
  simp [settleWindow, hw, hran]

theorem settleWindow_windows : (settleWindow r s).windows = { w with ran := true, exposed := some r } :: ws := by
  rw [settleWindow_of_pending hw hran]
  dsimp only
  split <;> rfl

theorem settleWindow_stages_of_raced (hraced : w.raced = true) : (settleWindow r s).cas.stages =
    drawStages s.params.sampleFmt (taps s.params) (s.draws + r.len) s.cas.stages := by
  rw [settleWindow_of_pending hw hran, if_pos hraced]
  rfl

theorem settleWindow_mem_of_raced (hraced : w.raced = true) : (settleWindow r s).mem = (drawRange (some r) s).mem := by
  rw [settleWindow_of_pending hw hran, if_pos hraced]
  rfl

end Settled

/-! ### A race after the step of its PROCESS (70_reset_and_hazards.md R266 (b)) -/

/-- The windows that a write meets after their command has run. -/
def lateWindows (a len : Nat) (ws : List Window) : List Window := (ws.filter fun w => w.meets a len).filter Window.ran

theorem mem_lateWindows {a len : Nat} {ws : List Window} {w : Window} :
    w ∈ lateWindows a len ws ↔ w ∈ ws ∧ w.ran = true ∧ w.meets a len = true := by
  simp only [lateWindows, List.mem_filter]
  tauto

/-- A write that meets the window of a PROCESS that has run frees the recorded output bytes and all filter state at once. -/
theorem noteWrite_of_late {a len : Nat} {s : State} {w : Window} (hw : w ∈ lateWindows a len s.windows) : noteWrite a len s =
    drawFilters (drawExposed (lateWindows a len s.windows) { s with windows := racedWindows a len s.windows }) :=
  if_neg fun h => List.ne_nil_of_mem hw (List.isEmpty_iff.1 h)

/-- What a late write leaves: the windows it marks, memory and filter state that it frees, and nothing else. -/
theorem hostStore_of_late {s : State} {a : Nat} {bytes : List Byte} (hinv : s.Inv) (ha : a + bytes.length ≤ addrSpace)
    {w : Window} (hw : w ∈ lateWindows a bytes.length s.windows) :
    ∃ m sts d, hostStore a bytes s =
        { s with mem := m, windows := racedWindows a bytes.length s.windows, draws := d
                 cas := { s.cas with stages := drawStages s.params.sampleFmt (taps s.params) sts s.cas.stages } } ∧
      (∀ r ∈ w.exposed, ∀ k, k < r.len → ∃ i, s.draws ≤ i ∧ i < d ∧ loadByte m (r.base + k) = Config.freeByte i) ∧
      ∀ c, (c < a ∨ a + bytes.length ≤ c) →
        (∀ x ∈ lateWindows a bytes.length s.windows, ∀ r ∈ x.exposed, c < r.base ∨ r.base + r.len ≤ c) →
        loadByte m c = loadByte s.mem c := by
  let t : State := { s with mem := storeBytes s.mem a bytes, windows := racedWindows a bytes.length s.windows }
  have hin : ∀ x ∈ lateWindows a bytes.length s.windows, ∀ r ∈ x.exposed, r.inSpace := fun x hx =>
    hinv.windows x (mem_lateWindows.1 hx).1
  have hwf : t.mem.wf = true := wf_storeBytes hinv.mem bytes (.inr ha)
  obtain ⟨m, d, hdraw⟩ := drawExposed_frame (lateWindows a bytes.length s.windows) t
  refine ⟨m, d, d + (2 * taps s.params + 1) * s.cas.stages.length, ?_, fun r hr k hk => ?_, fun c hc hout => ?_⟩
  · rw [hostStore, noteWrite_of_late (s := { s with mem := storeBytes s.mem a bytes }) hw]
    exact congrArg drawFilters hdraw
  · obtain ⟨i, hlo, hhi, hbyte⟩ := loadByte_drawExposed hin hwf hw hr hk
    rw [hdraw] at hhi hbyte
    exact ⟨i, hlo, Nat.lt_add_right _ hhi, hbyte⟩
  · have hother := loadByte_drawExposed_other _ t hout
    rw [hdraw] at hother
    exact hother.trans (loadByte_storeBytes_other s.mem bytes hc)

/-- Settles O47: a write marks the windows it meets, the step settles the window of its PROCESS, and a late write frees what the
step would have freed. -/
theorem raceFreesOutputs : Obligations.RaceFreesOutputs := by
  refine ⟨fun s a bytes w hw hmeets => raced_mem_hostStore hw hmeets, fun s w ws hm hw hran => ?_,
    fun s a bytes hinv ha w hw hran hmeets => ?_⟩
  · intro F outB produced len check
    have hw' : (afterChecks s).windows = w :: ws := (afterChecks_windows s).trans hw
    refine ⟨_, exec_process_eq_settleWindow s, settleWindow_windows hw' hran _, rfl, rfl, ?_, rfl, rfl,
      (fixedPart_settleWindow _ _).trans (fixedPart_afterChecks s), fun hc => congrArg Range.len (racedRange_of_passes hc),
      fun hraced => ?_⟩
    · show check.elim 0#8 errCodeOf = _
      generalize check = c
      cases c <;> rfl
    · have hmem := settleWindow_mem_of_raced hw' hran (racedRange s) hraced
      have hstages := settleWindow_stages_of_raced hw' hran (racedRange s) hraced
      rw [afterChecks_params] at hstages
      refine ⟨⟨_, _, hstages⟩, ⟨(afterChecks s).draws, fun k hk => ?_⟩, fun c hc => ?_⟩
      · exact (congrArg (loadByte · _) hmem).trans (loadByte_drawRange (wf_afterChecks hm) (racedRange_inSpace s) hk)
      · exact (congrArg (loadByte · c) hmem).trans
          ((loadByte_drawRange_other _ _ fun _ hr => Option.mem_some.1 hr ▸ hc).trans (loadByte_afterChecks_other s hc))
  · obtain ⟨m, sts, d, hstore, hfree, hout⟩ := hostStore_of_late hinv ha (mem_lateWindows.2 ⟨hw, hran, hmeets⟩)
    refine ⟨m, sts, d, hstore, hfree, fun c hc hx => hout c hc fun x hlate => ?_⟩
    obtain ⟨hmem, hxran, hxmeets⟩ := mem_lateWindows.1 hlate
    exact hx x hmem hxran hxmeets

end Sys2Proof.Machine
end
